-- ==== Sys2Proof/Word.lean ====
section
/-! DEFINITION. The unit of the machine: the 16-bit word (R1), bits numbered 15 down to 0 (R2), and the
4-bit part of XM and XH. Only the types stand here; all arithmetic on them is in Machine/. -/

namespace Sys2Proof

/-- A 16-bit word: instruction words, registers, operand values, memory cells and addresses (R1). -/
abbrev Word := BitVec 16

/-- One 4-bit part of XM or XH (R18, R19), also a 4-bit immediate or bit number (R5). -/
abbrev Nibble := BitVec 4

end Sys2Proof
end

