-- ==== Sys2Proof/Syntax.lean ====
section
/-! DEFINITION. The abstract syntax: registers, the nine addressing modes, and one constructor of `Instr` for
each of the 95 rows of `spec/opcode_table.json` (R65). Field bits are turned into these names by Decode alone. -/

namespace Sys2Proof

/-- The eight general registers (R10); X0 to X3 are also the pointers (R12), C is also the carry (R13). -/
inductive Reg where
  | a | b | c | d | x0 | x1 | x2 | x3
deriving DecidableEq, Repr, Inhabited

/-- The four pointers, the `rp` of the addressing modes (R12). -/
inductive Ptr where
  | x0 | x1 | x2 | x3
deriving DecidableEq, Repr, Inhabited

/-- The number `n` of a 4-bit part of XM or XH (R18, R19). -/
inductive PartNo where
  | p0 | p1 | p2 | p3
deriving DecidableEq, Repr, Inhabited

/-- The nine addressing modes M1 to M9 (R61), each with its assembled immediate (R62). -/
inductive Adr where
  /-- M1, `imm4` (R83). -/
  | imm4 (v : Nibble)
  /-- M2, `[BP + imm4]` (R84). -/
  | stack4 (v : Nibble)
  /-- M3, `imm16` (R85). -/
  | imm16 (v : Word)
  /-- M4, `BP + imm16` (R86). -/
  | bpImm16 (v : Word)
  /-- M5, `[imm16]` (R87). -/
  | data16 (v : Word)
  /-- M6, `[BP + imm16]` (R88). -/
  | stack16 (v : Word)
  /-- M7, `rx` (R89). -/
  | reg (r : Reg)
  /-- M8, `[rp]` (R90). -/
  | ptr (p : Ptr)
  /-- M9, `[BP + rp]` (R91). -/
  | stackPtr (p : Ptr)
deriving DecidableEq, Repr, Inhabited

/-- One constructor per row of the opcode table (R65), operands in the order of the mnemonic (R3). The parameter
list of a call is part of the instruction (R80, R185; log 10): an empty list is the call word with `e` = 1. -/
inductive Instr where
  /-- `MOV adr, rx`, pattern `0000 000r rraa aaaa` (R111). -/
  | movAdrRx (a : Adr) (r : Reg)
  /-- `MOV rx, adr`, pattern `0000 001r rraa aaaa` (R110). -/
  | movRxAdr (r : Reg) (a : Adr)
  /-- `MOV adr, xmn`, pattern `0000 0100 nnaa aaaa` (R113). -/
  | movAdrXmn (n : PartNo) (a : Adr)
  /-- `MOV adr, xhn`, pattern `0000 0101 nnaa aaaa` (R115). -/
  | movAdrXhn (n : PartNo) (a : Adr)
  /-- `MOV xmn, adr`, pattern `0000 0110 nnaa aaaa` (R112). -/
  | movXmnAdr (n : PartNo) (a : Adr)
  /-- `MOV xhn, adr`, pattern `0000 0111 nnaa aaaa` (R114). -/
  | movXhnAdr (n : PartNo) (a : Adr)
  /-- `ADD adr, rx`, pattern `0000 100r rraa aaaa` (R130). -/
  | addAdrRx (a : Adr) (r : Reg)
  /-- `ADD rx, adr`, pattern `0000 101r rraa aaaa` (R130). -/
  | addRxAdr (r : Reg) (a : Adr)
  /-- `ADD C:adr, rx`, pattern `0100 100r rraa aaaa` (R130). -/
  | addCAdrRx (a : Adr) (r : Reg)
  /-- `ADD C:rx, adr`, pattern `0100 101r rraa aaaa` (R130). -/
  | addCRxAdr (r : Reg) (a : Adr)
  /-- `SUB adr, rx`, pattern `0000 110r rraa aaaa` (R133). -/
  | subAdrRx (a : Adr) (r : Reg)
  /-- `SUB rx, adr`, pattern `0000 111r rraa aaaa` (R133). -/
  | subRxAdr (r : Reg) (a : Adr)
  /-- `SUB C:adr, rx`, pattern `0100 110r rraa aaaa` (R133). -/
  | subCAdrRx (a : Adr) (r : Reg)
  /-- `SUB C:rx, adr`, pattern `0100 111r rraa aaaa` (R133). -/
  | subCRxAdr (r : Reg) (a : Adr)
  /-- `XCH adr, rx`, pattern `0001 000r rraa aaaa` (R122). -/
  | xchAdrRx (a : Adr) (r : Reg)
  /-- `XCH rx, adr`, pattern `0001 001r rraa aaaa` (R122). -/
  | xchRxAdr (r : Reg) (a : Adr)
  /-- `DIV adr, rx`, pattern `0001 010r rraa aaaa` (R139). -/
  | divAdrRx (a : Adr) (r : Reg)
  /-- `DIV rx, adr`, pattern `0001 011r rraa aaaa` (R139). -/
  | divRxAdr (r : Reg) (a : Adr)
  /-- `DIV C:adr, rx`, pattern `0101 010r rraa aaaa` (R139). -/
  | divCAdrRx (a : Adr) (r : Reg)
  /-- `DIV C:rx, adr`, pattern `0101 011r rraa aaaa` (R139). -/
  | divCRxAdr (r : Reg) (a : Adr)
  /-- `ADC adr, rx`, pattern `0001 100r rraa aaaa` (R132). -/
  | adcAdrRx (a : Adr) (r : Reg)
  /-- `ADC rx, adr`, pattern `0001 101r rraa aaaa` (R132). -/
  | adcRxAdr (r : Reg) (a : Adr)
  /-- `ADC C:adr, rx`, pattern `0101 100r rraa aaaa` (R132). -/
  | adcCAdrRx (a : Adr) (r : Reg)
  /-- `ADC C:rx, adr`, pattern `0101 101r rraa aaaa` (R132). -/
  | adcCRxAdr (r : Reg) (a : Adr)
  /-- `SBC adr, rx`, pattern `0001 110r rraa aaaa` (R135). -/
  | sbcAdrRx (a : Adr) (r : Reg)
  /-- `SBC rx, adr`, pattern `0001 111r rraa aaaa` (R135). -/
  | sbcRxAdr (r : Reg) (a : Adr)
  /-- `SBC C:adr, rx`, pattern `0101 110r rraa aaaa` (R135). -/
  | sbcCAdrRx (a : Adr) (r : Reg)
  /-- `SBC C:rx, adr`, pattern `0101 111r rraa aaaa` (R135). -/
  | sbcCRxAdr (r : Reg) (a : Adr)
  /-- `MUL adr, rx`, pattern `0010 000r rraa aaaa` (R137). -/
  | mulAdrRx (a : Adr) (r : Reg)
  /-- `MUL rx, adr`, pattern `0010 001r rraa aaaa` (R137). -/
  | mulRxAdr (r : Reg) (a : Adr)
  /-- `MUL C:adr, rx`, pattern `0110 000r rraa aaaa` (R137). -/
  | mulCAdrRx (a : Adr) (r : Reg)
  /-- `MUL C:rx, adr`, pattern `0110 001r rraa aaaa` (R137). -/
  | mulCRxAdr (r : Reg) (a : Adr)
  /-- `NOT adr, rx`, pattern `0010 010r rraa aaaa` (R153). -/
  | notAdrRx (a : Adr) (r : Reg)
  /-- `NOT rx, adr`, pattern `0010 011r rraa aaaa` (R153). -/
  | notRxAdr (r : Reg) (a : Adr)
  /-- `SHL adr, rx`, pattern `0010 100r rraa aaaa` (R154). -/
  | shlAdrRx (a : Adr) (r : Reg)
  /-- `SHL rx, adr`, pattern `0010 101r rraa aaaa` (R154). -/
  | shlRxAdr (r : Reg) (a : Adr)
  /-- `SHL C:adr, rx`, pattern `0110 100r rraa aaaa` (R154). -/
  | shlCAdrRx (a : Adr) (r : Reg)
  /-- `SHL C:rx, adr`, pattern `0110 101r rraa aaaa` (R154). -/
  | shlCRxAdr (r : Reg) (a : Adr)
  /-- `SHR adr, rx`, pattern `0010 110r rraa aaaa` (R155). -/
  | shrAdrRx (a : Adr) (r : Reg)
  /-- `SHR rx, adr`, pattern `0010 111r rraa aaaa` (R155). -/
  | shrRxAdr (r : Reg) (a : Adr)
  /-- `SHR C:adr, rx`, pattern `0110 110r rraa aaaa` (R155). -/
  | shrCAdrRx (a : Adr) (r : Reg)
  /-- `SHR C:rx, adr`, pattern `0110 111r rraa aaaa` (R155). -/
  | shrCRxAdr (r : Reg) (a : Adr)
  /-- `MAC adr, rx`, pattern `0011 000r rraa aaaa` (R138). -/
  | macAdrRx (a : Adr) (r : Reg)
  /-- `MAC rx, adr`, pattern `0011 001r rraa aaaa` (R138). -/
  | macRxAdr (r : Reg) (a : Adr)
  /-- `MAC C:adr, rx`, pattern `0111 000r rraa aaaa` (R138). -/
  | macCAdrRx (a : Adr) (r : Reg)
  /-- `MAC C:rx, adr`, pattern `0111 001r rraa aaaa` (R138). -/
  | macCRxAdr (r : Reg) (a : Adr)
  /-- `ASR adr, rx`, pattern `0011 010r rraa aaaa` (R156). -/
  | asrAdrRx (a : Adr) (r : Reg)
  /-- `ASR rx, adr`, pattern `0011 011r rraa aaaa` (R156). -/
  | asrRxAdr (r : Reg) (a : Adr)
  /-- `ASR C:adr, rx`, pattern `0111 010r rraa aaaa` (R156). -/
  | asrCAdrRx (a : Adr) (r : Reg)
  /-- `ASR C:rx, adr`, pattern `0111 011r rraa aaaa` (R156). -/
  | asrCRxAdr (r : Reg) (a : Adr)
  /-- `SLC adr, rx`, pattern `0011 100r rraa aaaa` (R157). -/
  | slcAdrRx (a : Adr) (r : Reg)
  /-- `SLC rx, adr`, pattern `0011 101r rraa aaaa` (R157). -/
  | slcRxAdr (r : Reg) (a : Adr)
  /-- `SLC C:adr, rx`, pattern `0111 100r rraa aaaa` (R157). -/
  | slcCAdrRx (a : Adr) (r : Reg)
  /-- `SLC C:rx, adr`, pattern `0111 101r rraa aaaa` (R157). -/
  | slcCRxAdr (r : Reg) (a : Adr)
  /-- `SRC adr, rx`, pattern `0011 110r rraa aaaa` (R158). -/
  | srcAdrRx (a : Adr) (r : Reg)
  /-- `SRC rx, adr`, pattern `0011 111r rraa aaaa` (R158). -/
  | srcRxAdr (r : Reg) (a : Adr)
  /-- `SRC C:adr, rx`, pattern `0111 110r rraa aaaa` (R158). -/
  | srcCAdrRx (a : Adr) (r : Reg)
  /-- `SRC C:rx, adr`, pattern `0111 111r rraa aaaa` (R158). -/
  | srcCRxAdr (r : Reg) (a : Adr)
  /-- `OR adr, rx`, pattern `0100 000r rraa aaaa` (R151). -/
  | orAdrRx (a : Adr) (r : Reg)
  /-- `OR rx, adr`, pattern `0100 001r rraa aaaa` (R151). -/
  | orRxAdr (r : Reg) (a : Adr)
  /-- `AND adr, rx`, pattern `0100 010r rraa aaaa` (R150). -/
  | andAdrRx (a : Adr) (r : Reg)
  /-- `AND rx, adr`, pattern `0100 011r rraa aaaa` (R150). -/
  | andRxAdr (r : Reg) (a : Adr)
  /-- `XOR adr, rx`, pattern `0101 000r rraa aaaa` (R152). -/
  | xorAdrRx (a : Adr) (r : Reg)
  /-- `XOR rx, adr`, pattern `0101 001r rraa aaaa` (R152). -/
  | xorRxAdr (r : Reg) (a : Adr)
  /-- `NEG adr, rx`, pattern `0110 010r rraa aaaa` (R140). -/
  | negAdrRx (a : Adr) (r : Reg)
  /-- `NEG rx, adr`, pattern `0110 011r rraa aaaa` (R140). -/
  | negRxAdr (r : Reg) (a : Adr)
  /-- `MOV adr, XM`, pattern `1000 000- 00aa aaaa` (R117). -/
  | movAdrXM (a : Adr)
  /-- `MOV adr, XH`, pattern `1000 000- 01aa aaaa` (R119). -/
  | movAdrXH (a : Adr)
  /-- `MOV adr, SP`, pattern `1000 000- 1-aa aaaa` (R121). -/
  | movAdrSp (a : Adr)
  /-- `MOV XM, adr`, pattern `1000 001- 00aa aaaa` (R116). -/
  | movXMAdr (a : Adr)
  /-- `MOV XH, adr`, pattern `1000 001- 01aa aaaa` (R118). -/
  | movXHAdr (a : Adr)
  /-- `MOV SP, adr`, pattern `1000 001- 1-aa aaaa` (R120). -/
  | movSpAdr (a : Adr)
  /-- `JMS simm10`, pattern `1000 01ii iiii iiii` (R181). -/
  | jms (off : BitVec 10)
  /-- `JFR adr {...}`, pattern `1000 1000 0eaa aaaa` (R186). -/
  | jfr (a : Adr) (ps : List Adr)
  /-- `JSV {...}`, pattern `1000 1000 1e-- ----` (R189). -/
  | jsv (ps : List Adr)
  /-- `JFA adr {...}`, pattern `1000 1001 0eaa aaaa` (R187). -/
  | jfa (a : Adr) (ps : List Adr)
  /-- `RFN`, pattern `1000 1001 1--- ----` (R188). -/
  | rfn
  /-- `ADD SP, adr`, pattern `1000 101- --aa aaaa` (R131). -/
  | addSpAdr (a : Adr)
  /-- `JMR adr`, pattern `1000 1100 --aa aaaa` (R182). -/
  | jmr (a : Adr)
  /-- `JMA adr`, pattern `1000 1101 --aa aaaa` (R183). -/
  | jma (a : Adr)
  /-- `SUB SP, adr`, pattern `1000 111- --aa aaaa` (R134). -/
  | subSpAdr (a : Adr)
  /-- `(supervisor area)`, pattern `1001 ---- ---- ----` (R190). -/
  | supervisorArea (bits : BitVec 12)
  /-- `BTC adr, imm4`, pattern `1010 00ii iiaa aaaa` (R159). -/
  | btc (a : Adr) (b : Nibble)
  /-- `XBC adr, imm4`, pattern `1010 01ii iiaa aaaa` (R171). -/
  | xbc (a : Adr) (b : Nibble)
  /-- `BTS adr, imm4`, pattern `1010 10ii iiaa aaaa` (R160). -/
  | bts (a : Adr) (b : Nibble)
  /-- `XBS adr, imm4`, pattern `1010 11ii iiaa aaaa` (R172). -/
  | xbs (a : Adr) (b : Nibble)
  /-- `XEQ adr, rx`, pattern `1011 000r rraa aaaa` (R173). -/
  | xeqAdrRx (a : Adr) (r : Reg)
  /-- `XEQ rx, adr`, pattern `1011 001r rraa aaaa` (R173). -/
  | xeqRxAdr (r : Reg) (a : Adr)
  /-- `XSG adr, rx`, pattern `1011 010r rraa aaaa` (R175). -/
  | xsgAdrRx (a : Adr) (r : Reg)
  /-- `XSG rx, adr`, pattern `1011 011r rraa aaaa` (R175). -/
  | xsgRxAdr (r : Reg) (a : Adr)
  /-- `XNE adr, rx`, pattern `1011 100r rraa aaaa` (R174). -/
  | xneAdrRx (a : Adr) (r : Reg)
  /-- `XNE rx, adr`, pattern `1011 101r rraa aaaa` (R174). -/
  | xneRxAdr (r : Reg) (a : Adr)
  /-- `XUG adr, rx`, pattern `1011 110r rraa aaaa` (R176). -/
  | xugAdrRx (a : Adr) (r : Reg)
  /-- `XUG rx, adr`, pattern `1011 111r rraa aaaa` (R176). -/
  | xugRxAdr (r : Reg) (a : Adr)
  /-- `NOP`, pattern `11-- ---- ---- ----` (R180). -/
  | nop
deriving DecidableEq, Repr, Inhabited

end Sys2Proof
end

