-- ==== Sys2Proof/WellFormed.lean ====
section
/-! DEFINITION. The one check the types do not make: at most sixteen parameters follow a call (R185). -/

namespace Sys2Proof

/-- "up to 16 parameters may follow" (R185). -/
def maxParams : Nat := 16

/-- The parameter list of a call has at most sixteen entries (R185). -/
def paramsOk (ps : List Adr) : Bool := decide (ps.length ≤ maxParams)

/-- An instruction some words encode: the typed fields admit every value the encoding admits (R67), so only the
parameter list of a call is checked. -/
def Instr.wf (i : Instr) : Bool :=
  match i with
  | .movAdrRx _ _ => true
  | .movRxAdr _ _ => true
  | .movAdrXmn _ _ => true
  | .movAdrXhn _ _ => true
  | .movXmnAdr _ _ => true
  | .movXhnAdr _ _ => true
  | .addAdrRx _ _ => true
  | .addRxAdr _ _ => true
  | .addCAdrRx _ _ => true
  | .addCRxAdr _ _ => true
  | .subAdrRx _ _ => true
  | .subRxAdr _ _ => true
  | .subCAdrRx _ _ => true
  | .subCRxAdr _ _ => true
  | .xchAdrRx _ _ => true
  | .xchRxAdr _ _ => true
  | .divAdrRx _ _ => true
  | .divRxAdr _ _ => true
  | .divCAdrRx _ _ => true
  | .divCRxAdr _ _ => true
  | .adcAdrRx _ _ => true
  | .adcRxAdr _ _ => true
  | .adcCAdrRx _ _ => true
  | .adcCRxAdr _ _ => true
  | .sbcAdrRx _ _ => true
  | .sbcRxAdr _ _ => true
  | .sbcCAdrRx _ _ => true
  | .sbcCRxAdr _ _ => true
  | .mulAdrRx _ _ => true
  | .mulRxAdr _ _ => true
  | .mulCAdrRx _ _ => true
  | .mulCRxAdr _ _ => true
  | .notAdrRx _ _ => true
  | .notRxAdr _ _ => true
  | .shlAdrRx _ _ => true
  | .shlRxAdr _ _ => true
  | .shlCAdrRx _ _ => true
  | .shlCRxAdr _ _ => true
  | .shrAdrRx _ _ => true
  | .shrRxAdr _ _ => true
  | .shrCAdrRx _ _ => true
  | .shrCRxAdr _ _ => true
  | .macAdrRx _ _ => true
  | .macRxAdr _ _ => true
  | .macCAdrRx _ _ => true
  | .macCRxAdr _ _ => true
  | .asrAdrRx _ _ => true
  | .asrRxAdr _ _ => true
  | .asrCAdrRx _ _ => true
  | .asrCRxAdr _ _ => true
  | .slcAdrRx _ _ => true
  | .slcRxAdr _ _ => true
  | .slcCAdrRx _ _ => true
  | .slcCRxAdr _ _ => true
  | .srcAdrRx _ _ => true
  | .srcRxAdr _ _ => true
  | .srcCAdrRx _ _ => true
  | .srcCRxAdr _ _ => true
  | .orAdrRx _ _ => true
  | .orRxAdr _ _ => true
  | .andAdrRx _ _ => true
  | .andRxAdr _ _ => true
  | .xorAdrRx _ _ => true
  | .xorRxAdr _ _ => true
  | .negAdrRx _ _ => true
  | .negRxAdr _ _ => true
  | .movAdrXM _ => true
  | .movAdrXH _ => true
  | .movAdrSp _ => true
  | .movXMAdr _ => true
  | .movXHAdr _ => true
  | .movSpAdr _ => true
  | .jms _ => true
  | .jfr _ ps => paramsOk ps
  | .jsv ps => paramsOk ps
  | .jfa _ ps => paramsOk ps
  | .rfn => true
  | .addSpAdr _ => true
  | .jmr _ => true
  | .jma _ => true
  | .subSpAdr _ => true
  | .supervisorArea _ => true
  | .btc _ _ => true
  | .xbc _ _ => true
  | .bts _ _ => true
  | .xbs _ _ => true
  | .xeqAdrRx _ _ => true
  | .xeqRxAdr _ _ => true
  | .xsgAdrRx _ _ => true
  | .xsgRxAdr _ _ => true
  | .xneAdrRx _ _ => true
  | .xneRxAdr _ _ => true
  | .xugAdrRx _ _ => true
  | .xugRxAdr _ _ => true
  | .nop => true

end Sys2Proof
end

