-- ==== Sys2Proof/Decode.lean ====
section
/-! DEFINITION. Decoding, total on any words and rejecting by name, and the encoder after it, both written from
the encodings of `30_encoding.md`. The decoder goes by the mask and match columns of the opcode table (R65, which
R72 restates); the encoder by its bit patterns. A conflict's corrected rows are used (C1 XCH, C2 XOR). -/

namespace Sys2Proof

/-- Why words decode to no instruction. There is no illegal encoding (R67), so only a missing word can. -/
inductive DecodeError where
  /-- A second word or a parameter word that the instruction needs is not there. -/
  | truncated
  /-- No row of the opcode table matches; never the case (R65: the rows cover all first words). -/
  | noRow
deriving DecidableEq, Repr

/-! ### Register fields (R71) -/

/-- `rrr`: 0 A, 1 B, 2 C, 3 D, 4 X0, 5 X1, 6 X2, 7 X3 (R11, R71). -/
def Reg.ofBits (b : BitVec 3) : Reg :=
  match b.getLsbD 2, b.getLsbD 1, b.getLsbD 0 with
  | false, false, false => .a
  | false, false, true => .b
  | false, true, false => .c
  | false, true, true => .d
  | true, false, false => .x0
  | true, false, true => .x1
  | true, true, false => .x2
  | true, true, true => .x3

/-- The number of a general register (R11). -/
def Reg.bits (r : Reg) : BitVec 3 :=
  match r with
  | .a => 0 | .b => 1 | .c => 2 | .d => 3 | .x0 => 4 | .x1 => 5 | .x2 => 6 | .x3 => 7

/-- `rr`: 0 X0, 1 X1, 2 X2, 3 X3 (R12, R71). -/
def Ptr.ofBits (b : BitVec 2) : Ptr :=
  match b.getLsbD 1, b.getLsbD 0 with
  | false, false => .x0
  | false, true => .x1
  | true, false => .x2
  | true, true => .x3

/-- The number of a pointer (R12). -/
def Ptr.bits (p : Ptr) : BitVec 2 :=
  match p with
  | .x0 => 0 | .x1 => 1 | .x2 => 2 | .x3 => 3

/-- `nn`: the part number (R53, R71). -/
def PartNo.ofBits (b : BitVec 2) : PartNo :=
  match b.getLsbD 1, b.getLsbD 0 with
  | false, false => .p0
  | false, true => .p1
  | true, false => .p2
  | true, true => .p3

/-- The number of a part (R71). -/
def PartNo.bits (n : PartNo) : BitVec 2 :=
  match n with
  | .p0 => 0 | .p1 => 1 | .p2 => 2 | .p3 => 3

/-! ### Fields of the first word -/

/-- Bits 5..0, the addressing-mode field (R61). -/
def adrField (w : Word) : BitVec 6 := w.extractLsb' 0 6

/-- Bits 8..6, `rx` of format RA (R52). -/
def rxField (w : Word) : Reg := Reg.ofBits (w.extractLsb' 6 3)

/-- Bits 7..6, the part number of format NA (R53). -/
def partField (w : Word) : PartNo := PartNo.ofBits (w.extractLsb' 6 2)

/-- Bits 9..6, the bit number of format IA (R57). -/
def bitField (w : Word) : Nibble := w.extractLsb' 6 4

/-- Bits 9..0, the signed jump offset of format J10 (R58). -/
def offsetField (w : Word) : BitVec 10 := w.extractLsb' 0 10

/-- Bit 6, the `e` bit of a call word (R56) and of a parameter word (R60). -/
def eField (w : Word) : Bool := w.getLsbD 6

/-! ### The addressing mode and the parameter list -/

/-- `imm16 = adr[1:0] : w2[13:0]` (R62); bits 15..14 of the second word take no part. -/
def joinImm16 (hi : BitVec 2) (w2 : Word) : Word := hi ++ w2.extractLsb' 0 14

/-- The operand of one of the modes M3 to M6 (R61), from bits 3..2 of the field and the assembled immediate. -/
def twoWordAdr (b3 b2 : Bool) (v : Word) : Adr :=
  match b3, b2 with
  | false, false => .imm16 v
  | false, true => .bpImm16 v
  | true, false => .data16 v
  | true, true => .stack16 v

/-- The addressing-mode field, and the second word when bits 5..4 are `10` (R61, R62, R63). Answers the mode and
the words after it. -/
def decodeAdr (f : BitVec 6) (rest : List Word) : Except DecodeError (Adr × List Word) :=
  match f.getLsbD 5, f.getLsbD 4 with
  | false, false => .ok (.imm4 (f.extractLsb' 0 4), rest)
  | false, true => .ok (.stack4 (f.extractLsb' 0 4), rest)
  | true, false =>
    match rest with
    | [] => .error .truncated
    | w2 :: rest' =>
      .ok (twoWordAdr (f.getLsbD 3) (f.getLsbD 2) (joinImm16 (f.extractLsb' 0 2) w2), rest')
  | true, true =>
    match f.getLsbD 3, f.getLsbD 2 with
    | false, _ => .ok (.reg (Reg.ofBits (f.extractLsb' 0 3)), rest)
    | true, false => .ok (.ptr (Ptr.ofBits (f.extractLsb' 0 2)), rest)
    | true, true => .ok (.stackPtr (Ptr.ofBits (f.extractLsb' 0 2)), rest)

/-- At most `n` parameter words, up to the first whose `e` bit is set; the last of the `n` ignores its `e` bit
(R60, R185). -/
def decodeParams (n : Nat) (ws : List Word) : Except DecodeError (List Adr × List Word) :=
  match n with
  | 0 => .ok ([], ws)
  | n + 1 =>
    match ws with
    | [] => .error .truncated
    | p :: ws' =>
      match decodeAdr (adrField p) ws' with
      | .error e => .error e
      | .ok (a, rest) =>
        match eField p with
        | true => .ok ([a], rest)
        | false =>
          match decodeParams n rest with
          | .error e => .error e
          | .ok (as, rest') => .ok (a :: as, rest')

/-- The parameter list after a call word with the given `e` bit: none when it is set (R185, D24). -/
def decodeParamList (e : Bool) (ws : List Word) : Except DecodeError (List Adr × List Word) :=
  match e with
  | true => .ok ([], ws)
  | false => decodeParams maxParams ws

/-! ### The opcode table (R65) -/

/-- What follows the first word of a row (R63): nothing; an addressing mode; an addressing mode and a parameter
list; a parameter list alone. -/
inductive RowBuild where
  | word (build : Word → Instr)
  | adr (build : Word → Adr → Instr)
  | call (build : Adr → List Adr → Instr)
  | sysCall (build : List Adr → Instr)

/-- A row of the opcode table: a first word `w` selects it iff `w &&& mask = pattern` (R65). -/
structure OpcodeRow where
  mask : Word
  pattern : Word
  build : RowBuild

/-- Class `00`: two-operand instructions without carry write, and MOV (R51). -/
def opcodeRows00 : List OpcodeRow :=
  [ ⟨0xFE00, 0x0000, .adr fun w a => .movAdrRx a (rxField w)⟩
  , ⟨0xFE00, 0x0200, .adr fun w a => .movRxAdr (rxField w) a⟩
  , ⟨0xFF00, 0x0400, .adr fun w a => .movAdrXmn (partField w) a⟩
  , ⟨0xFF00, 0x0500, .adr fun w a => .movAdrXhn (partField w) a⟩
  , ⟨0xFF00, 0x0600, .adr fun w a => .movXmnAdr (partField w) a⟩
  , ⟨0xFF00, 0x0700, .adr fun w a => .movXhnAdr (partField w) a⟩
  , ⟨0xFE00, 0x0800, .adr fun w a => .addAdrRx a (rxField w)⟩
  , ⟨0xFE00, 0x0A00, .adr fun w a => .addRxAdr (rxField w) a⟩
  , ⟨0xFE00, 0x0C00, .adr fun w a => .subAdrRx a (rxField w)⟩
  , ⟨0xFE00, 0x0E00, .adr fun w a => .subRxAdr (rxField w) a⟩
  , ⟨0xFE00, 0x1000, .adr fun w a => .xchAdrRx a (rxField w)⟩
  , ⟨0xFE00, 0x1200, .adr fun w a => .xchRxAdr (rxField w) a⟩
  , ⟨0xFE00, 0x1400, .adr fun w a => .divAdrRx a (rxField w)⟩
  , ⟨0xFE00, 0x1600, .adr fun w a => .divRxAdr (rxField w) a⟩
  , ⟨0xFE00, 0x1800, .adr fun w a => .adcAdrRx a (rxField w)⟩
  , ⟨0xFE00, 0x1A00, .adr fun w a => .adcRxAdr (rxField w) a⟩
  , ⟨0xFE00, 0x1C00, .adr fun w a => .sbcAdrRx a (rxField w)⟩
  , ⟨0xFE00, 0x1E00, .adr fun w a => .sbcRxAdr (rxField w) a⟩
  , ⟨0xFE00, 0x2000, .adr fun w a => .mulAdrRx a (rxField w)⟩
  , ⟨0xFE00, 0x2200, .adr fun w a => .mulRxAdr (rxField w) a⟩
  , ⟨0xFE00, 0x2400, .adr fun w a => .notAdrRx a (rxField w)⟩
  , ⟨0xFE00, 0x2600, .adr fun w a => .notRxAdr (rxField w) a⟩
  , ⟨0xFE00, 0x2800, .adr fun w a => .shlAdrRx a (rxField w)⟩
  , ⟨0xFE00, 0x2A00, .adr fun w a => .shlRxAdr (rxField w) a⟩
  , ⟨0xFE00, 0x2C00, .adr fun w a => .shrAdrRx a (rxField w)⟩
  , ⟨0xFE00, 0x2E00, .adr fun w a => .shrRxAdr (rxField w) a⟩
  , ⟨0xFE00, 0x3000, .adr fun w a => .macAdrRx a (rxField w)⟩
  , ⟨0xFE00, 0x3200, .adr fun w a => .macRxAdr (rxField w) a⟩
  , ⟨0xFE00, 0x3400, .adr fun w a => .asrAdrRx a (rxField w)⟩
  , ⟨0xFE00, 0x3600, .adr fun w a => .asrRxAdr (rxField w) a⟩
  , ⟨0xFE00, 0x3800, .adr fun w a => .slcAdrRx a (rxField w)⟩
  , ⟨0xFE00, 0x3A00, .adr fun w a => .slcRxAdr (rxField w) a⟩
  , ⟨0xFE00, 0x3C00, .adr fun w a => .srcAdrRx a (rxField w)⟩
  , ⟨0xFE00, 0x3E00, .adr fun w a => .srcRxAdr (rxField w) a⟩ ]

/-- Class `01`: carry-write forms, and OR, AND, XOR, NEG (R51). -/
def opcodeRows01 : List OpcodeRow :=
  [ ⟨0xFE00, 0x4000, .adr fun w a => .orAdrRx a (rxField w)⟩
  , ⟨0xFE00, 0x4200, .adr fun w a => .orRxAdr (rxField w) a⟩
  , ⟨0xFE00, 0x4400, .adr fun w a => .andAdrRx a (rxField w)⟩
  , ⟨0xFE00, 0x4600, .adr fun w a => .andRxAdr (rxField w) a⟩
  , ⟨0xFE00, 0x4800, .adr fun w a => .addCAdrRx a (rxField w)⟩
  , ⟨0xFE00, 0x4A00, .adr fun w a => .addCRxAdr (rxField w) a⟩
  , ⟨0xFE00, 0x4C00, .adr fun w a => .subCAdrRx a (rxField w)⟩
  , ⟨0xFE00, 0x4E00, .adr fun w a => .subCRxAdr (rxField w) a⟩
  , ⟨0xFE00, 0x5000, .adr fun w a => .xorAdrRx a (rxField w)⟩
  , ⟨0xFE00, 0x5200, .adr fun w a => .xorRxAdr (rxField w) a⟩
  , ⟨0xFE00, 0x5400, .adr fun w a => .divCAdrRx a (rxField w)⟩
  , ⟨0xFE00, 0x5600, .adr fun w a => .divCRxAdr (rxField w) a⟩
  , ⟨0xFE00, 0x5800, .adr fun w a => .adcCAdrRx a (rxField w)⟩
  , ⟨0xFE00, 0x5A00, .adr fun w a => .adcCRxAdr (rxField w) a⟩
  , ⟨0xFE00, 0x5C00, .adr fun w a => .sbcCAdrRx a (rxField w)⟩
  , ⟨0xFE00, 0x5E00, .adr fun w a => .sbcCRxAdr (rxField w) a⟩
  , ⟨0xFE00, 0x6000, .adr fun w a => .mulCAdrRx a (rxField w)⟩
  , ⟨0xFE00, 0x6200, .adr fun w a => .mulCRxAdr (rxField w) a⟩
  , ⟨0xFE00, 0x6400, .adr fun w a => .negAdrRx a (rxField w)⟩
  , ⟨0xFE00, 0x6600, .adr fun w a => .negRxAdr (rxField w) a⟩
  , ⟨0xFE00, 0x6800, .adr fun w a => .shlCAdrRx a (rxField w)⟩
  , ⟨0xFE00, 0x6A00, .adr fun w a => .shlCRxAdr (rxField w) a⟩
  , ⟨0xFE00, 0x6C00, .adr fun w a => .shrCAdrRx a (rxField w)⟩
  , ⟨0xFE00, 0x6E00, .adr fun w a => .shrCRxAdr (rxField w) a⟩
  , ⟨0xFE00, 0x7000, .adr fun w a => .macCAdrRx a (rxField w)⟩
  , ⟨0xFE00, 0x7200, .adr fun w a => .macCRxAdr (rxField w) a⟩
  , ⟨0xFE00, 0x7400, .adr fun w a => .asrCAdrRx a (rxField w)⟩
  , ⟨0xFE00, 0x7600, .adr fun w a => .asrCRxAdr (rxField w) a⟩
  , ⟨0xFE00, 0x7800, .adr fun w a => .slcCAdrRx a (rxField w)⟩
  , ⟨0xFE00, 0x7A00, .adr fun w a => .slcCRxAdr (rxField w) a⟩
  , ⟨0xFE00, 0x7C00, .adr fun w a => .srcCAdrRx a (rxField w)⟩
  , ⟨0xFE00, 0x7E00, .adr fun w a => .srcCRxAdr (rxField w) a⟩ ]

/-- Class `10`: special-register MOVs, jumps, calls, the Supervisor area, bit instructions and skips (R51). -/
def opcodeRows10 : List OpcodeRow :=
  [ ⟨0xFEC0, 0x8000, .adr fun _ a => .movAdrXM a⟩
  , ⟨0xFEC0, 0x8040, .adr fun _ a => .movAdrXH a⟩
  , ⟨0xFE80, 0x8080, .adr fun _ a => .movAdrSp a⟩
  , ⟨0xFEC0, 0x8200, .adr fun _ a => .movXMAdr a⟩
  , ⟨0xFEC0, 0x8240, .adr fun _ a => .movXHAdr a⟩
  , ⟨0xFE80, 0x8280, .adr fun _ a => .movSpAdr a⟩
  , ⟨0xFC00, 0x8400, .word fun w => .jms (offsetField w)⟩
  , ⟨0xFF80, 0x8800, .call fun a ps => .jfr a ps⟩
  , ⟨0xFF80, 0x8880, .sysCall fun ps => .jsv ps⟩
  , ⟨0xFF80, 0x8900, .call fun a ps => .jfa a ps⟩
  , ⟨0xFF80, 0x8980, .word fun _ => .rfn⟩
  , ⟨0xFE00, 0x8A00, .adr fun _ a => .addSpAdr a⟩
  , ⟨0xFF00, 0x8C00, .adr fun _ a => .jmr a⟩
  , ⟨0xFF00, 0x8D00, .adr fun _ a => .jma a⟩
  , ⟨0xFE00, 0x8E00, .adr fun _ a => .subSpAdr a⟩
  , ⟨0xF000, 0x9000, .word fun w => .supervisorArea (w.extractLsb' 0 12)⟩
  , ⟨0xFC00, 0xA000, .adr fun w a => .btc a (bitField w)⟩
  , ⟨0xFC00, 0xA400, .adr fun w a => .xbc a (bitField w)⟩
  , ⟨0xFC00, 0xA800, .adr fun w a => .bts a (bitField w)⟩
  , ⟨0xFC00, 0xAC00, .adr fun w a => .xbs a (bitField w)⟩
  , ⟨0xFE00, 0xB000, .adr fun w a => .xeqAdrRx a (rxField w)⟩
  , ⟨0xFE00, 0xB200, .adr fun w a => .xeqRxAdr (rxField w) a⟩
  , ⟨0xFE00, 0xB400, .adr fun w a => .xsgAdrRx a (rxField w)⟩
  , ⟨0xFE00, 0xB600, .adr fun w a => .xsgRxAdr (rxField w) a⟩
  , ⟨0xFE00, 0xB800, .adr fun w a => .xneAdrRx a (rxField w)⟩
  , ⟨0xFE00, 0xBA00, .adr fun w a => .xneRxAdr (rxField w) a⟩
  , ⟨0xFE00, 0xBC00, .adr fun w a => .xugAdrRx a (rxField w)⟩
  , ⟨0xFE00, 0xBE00, .adr fun w a => .xugRxAdr (rxField w) a⟩ ]

/-- Class `11`: NOP (R51, R68). -/
def opcodeRows11 : List OpcodeRow :=
  [ ⟨0xC000, 0xC000, .word fun _ => .nop⟩ ]

/-- The 95 rows of R65. -/
def opcodeTable : List OpcodeRow := opcodeRows00 ++ opcodeRows01 ++ opcodeRows10 ++ opcodeRows11

/-- Whether a first word selects a row (R65). -/
def OpcodeRow.selects (row : OpcodeRow) (w : Word) : Bool := (w &&& row.mask) == row.pattern

/-- The row a first word selects (R65). -/
def findRow (w : Word) : Option OpcodeRow := opcodeTable.find? fun row => row.selects w

/-- The rest of an instruction whose first word `w` has selected a row (R63, R185). -/
def RowBuild.finish (b : RowBuild) (w : Word) (rest : List Word) : Except DecodeError (Instr × List Word) :=
  match b with
  | .word build => .ok (build w, rest)
  | .adr build =>
    match decodeAdr (adrField w) rest with
    | .error e => .error e
    | .ok (a, rest') => .ok (build w a, rest')
  | .call build =>
    match decodeAdr (adrField w) rest with
    | .error e => .error e
    | .ok (a, rest') =>
      match decodeParamList (eField w) rest' with
      | .error e => .error e
      | .ok (ps, rest'') => .ok (build a ps, rest'')
  | .sysCall build =>
    match decodeParamList (eField w) rest with
    | .error e => .error e
    | .ok (ps, rest') => .ok (build ps, rest')

/-- The instruction at the head of a list of words, and the words after it (after the parameter list, for a
call). -/
def decode (ws : List Word) : Except DecodeError (Instr × List Word) :=
  match ws with
  | [] => .error .truncated
  | w :: rest =>
    match findRow w with
    | none => .error .noRow
    | some row => row.build.finish w rest

/-- The most words an instruction with its parameter list takes: a two-word call and sixteen two-word
parameters (R63, R185). -/
def maxInstrWords : Nat := 34

/-- The instruction words of a number, 16 bits each, the least significant first: how the opcode table numbers
the bits. -/
def wordsOf (n : Nat) (w : Nat) : List Word :=
  match n with
  | 0 => []
  | n + 1 => BitVec.ofNat 16 w :: wordsOf n (w / 65536)

/-- The instruction the decoder reads from one whose first `nbits` bits are `w` and whose other bits are 0. -/
def decodeTableWord (nbits w : Nat) : Option Instr :=
  match decode (wordsOf maxInstrWords (w % 2 ^ nbits)) with
  | .ok (i, _) => some i
  | .error _ => none

/-! ### The encoder -/

/-- The addressing-mode field of an operand and its second word, if any, with bits 15..14 set (R61, R62, R64). -/
def encodeAdr (a : Adr) : BitVec 6 × List Word :=
  match a with
  | .imm4 v => (0b00#2 ++ v, [])
  | .stack4 v => (0b01#2 ++ v, [])
  | .imm16 v => (0b1000#4 ++ v.extractLsb' 14 2, [0b11#2 ++ v.extractLsb' 0 14])
  | .bpImm16 v => (0b1001#4 ++ v.extractLsb' 14 2, [0b11#2 ++ v.extractLsb' 0 14])
  | .data16 v => (0b1010#4 ++ v.extractLsb' 14 2, [0b11#2 ++ v.extractLsb' 0 14])
  | .stack16 v => (0b1011#4 ++ v.extractLsb' 14 2, [0b11#2 ++ v.extractLsb' 0 14])
  | .reg r => (0b110#3 ++ r.bits, [])
  | .ptr p => (0b1110#4 ++ p.bits, [])
  | .stackPtr p => (0b1111#4 ++ p.bits, [])

/-- A first word made of its fixed and field bits above bit 5 and an operand, with the operand's second word. -/
def encodeWith (hi : BitVec 10) (a : Adr) : List Word := (hi ++ (encodeAdr a).1) :: (encodeAdr a).2

/-- A parameter word, bits 15..14 set and the other ignored bits 0 (R60, R64). -/
def encodeParam (last : Bool) (a : Adr) : List Word := encodeWith (0b110000000#9 ++ BitVec.ofBool last) a

/-- A parameter list, the `e` bit set in the last word (R185). -/
def encodeParams (ps : List Adr) : List Word :=
  match ps with
  | [] => []
  | [a] => encodeParam true a
  | a :: b :: ps' => encodeParam false a ++ encodeParams (b :: ps')

/-- The words of an instruction, its parameter list included. Ignored bits are 0 (R64, D18). -/
def encode (i : Instr) : List Word :=
  match i with
  | .movAdrRx a r => encodeWith (0b0000000#7 ++ r.bits) a
  | .movRxAdr r a => encodeWith (0b0000001#7 ++ r.bits) a
  | .movAdrXmn n a => encodeWith (0b00000100#8 ++ n.bits) a
  | .movAdrXhn n a => encodeWith (0b00000101#8 ++ n.bits) a
  | .movXmnAdr n a => encodeWith (0b00000110#8 ++ n.bits) a
  | .movXhnAdr n a => encodeWith (0b00000111#8 ++ n.bits) a
  | .addAdrRx a r => encodeWith (0b0000100#7 ++ r.bits) a
  | .addRxAdr r a => encodeWith (0b0000101#7 ++ r.bits) a
  | .addCAdrRx a r => encodeWith (0b0100100#7 ++ r.bits) a
  | .addCRxAdr r a => encodeWith (0b0100101#7 ++ r.bits) a
  | .subAdrRx a r => encodeWith (0b0000110#7 ++ r.bits) a
  | .subRxAdr r a => encodeWith (0b0000111#7 ++ r.bits) a
  | .subCAdrRx a r => encodeWith (0b0100110#7 ++ r.bits) a
  | .subCRxAdr r a => encodeWith (0b0100111#7 ++ r.bits) a
  | .xchAdrRx a r => encodeWith (0b0001000#7 ++ r.bits) a
  | .xchRxAdr r a => encodeWith (0b0001001#7 ++ r.bits) a
  | .divAdrRx a r => encodeWith (0b0001010#7 ++ r.bits) a
  | .divRxAdr r a => encodeWith (0b0001011#7 ++ r.bits) a
  | .divCAdrRx a r => encodeWith (0b0101010#7 ++ r.bits) a
  | .divCRxAdr r a => encodeWith (0b0101011#7 ++ r.bits) a
  | .adcAdrRx a r => encodeWith (0b0001100#7 ++ r.bits) a
  | .adcRxAdr r a => encodeWith (0b0001101#7 ++ r.bits) a
  | .adcCAdrRx a r => encodeWith (0b0101100#7 ++ r.bits) a
  | .adcCRxAdr r a => encodeWith (0b0101101#7 ++ r.bits) a
  | .sbcAdrRx a r => encodeWith (0b0001110#7 ++ r.bits) a
  | .sbcRxAdr r a => encodeWith (0b0001111#7 ++ r.bits) a
  | .sbcCAdrRx a r => encodeWith (0b0101110#7 ++ r.bits) a
  | .sbcCRxAdr r a => encodeWith (0b0101111#7 ++ r.bits) a
  | .mulAdrRx a r => encodeWith (0b0010000#7 ++ r.bits) a
  | .mulRxAdr r a => encodeWith (0b0010001#7 ++ r.bits) a
  | .mulCAdrRx a r => encodeWith (0b0110000#7 ++ r.bits) a
  | .mulCRxAdr r a => encodeWith (0b0110001#7 ++ r.bits) a
  | .notAdrRx a r => encodeWith (0b0010010#7 ++ r.bits) a
  | .notRxAdr r a => encodeWith (0b0010011#7 ++ r.bits) a
  | .shlAdrRx a r => encodeWith (0b0010100#7 ++ r.bits) a
  | .shlRxAdr r a => encodeWith (0b0010101#7 ++ r.bits) a
  | .shlCAdrRx a r => encodeWith (0b0110100#7 ++ r.bits) a
  | .shlCRxAdr r a => encodeWith (0b0110101#7 ++ r.bits) a
  | .shrAdrRx a r => encodeWith (0b0010110#7 ++ r.bits) a
  | .shrRxAdr r a => encodeWith (0b0010111#7 ++ r.bits) a
  | .shrCAdrRx a r => encodeWith (0b0110110#7 ++ r.bits) a
  | .shrCRxAdr r a => encodeWith (0b0110111#7 ++ r.bits) a
  | .macAdrRx a r => encodeWith (0b0011000#7 ++ r.bits) a
  | .macRxAdr r a => encodeWith (0b0011001#7 ++ r.bits) a
  | .macCAdrRx a r => encodeWith (0b0111000#7 ++ r.bits) a
  | .macCRxAdr r a => encodeWith (0b0111001#7 ++ r.bits) a
  | .asrAdrRx a r => encodeWith (0b0011010#7 ++ r.bits) a
  | .asrRxAdr r a => encodeWith (0b0011011#7 ++ r.bits) a
  | .asrCAdrRx a r => encodeWith (0b0111010#7 ++ r.bits) a
  | .asrCRxAdr r a => encodeWith (0b0111011#7 ++ r.bits) a
  | .slcAdrRx a r => encodeWith (0b0011100#7 ++ r.bits) a
  | .slcRxAdr r a => encodeWith (0b0011101#7 ++ r.bits) a
  | .slcCAdrRx a r => encodeWith (0b0111100#7 ++ r.bits) a
  | .slcCRxAdr r a => encodeWith (0b0111101#7 ++ r.bits) a
  | .srcAdrRx a r => encodeWith (0b0011110#7 ++ r.bits) a
  | .srcRxAdr r a => encodeWith (0b0011111#7 ++ r.bits) a
  | .srcCAdrRx a r => encodeWith (0b0111110#7 ++ r.bits) a
  | .srcCRxAdr r a => encodeWith (0b0111111#7 ++ r.bits) a
  | .orAdrRx a r => encodeWith (0b0100000#7 ++ r.bits) a
  | .orRxAdr r a => encodeWith (0b0100001#7 ++ r.bits) a
  | .andAdrRx a r => encodeWith (0b0100010#7 ++ r.bits) a
  | .andRxAdr r a => encodeWith (0b0100011#7 ++ r.bits) a
  | .xorAdrRx a r => encodeWith (0b0101000#7 ++ r.bits) a
  | .xorRxAdr r a => encodeWith (0b0101001#7 ++ r.bits) a
  | .negAdrRx a r => encodeWith (0b0110010#7 ++ r.bits) a
  | .negRxAdr r a => encodeWith (0b0110011#7 ++ r.bits) a
  | .movAdrXM a => encodeWith 0b1000000000#10 a
  | .movAdrXH a => encodeWith 0b1000000001#10 a
  | .movAdrSp a => encodeWith 0b1000000010#10 a
  | .movXMAdr a => encodeWith 0b1000001000#10 a
  | .movXHAdr a => encodeWith 0b1000001001#10 a
  | .movSpAdr a => encodeWith 0b1000001010#10 a
  | .jms off => [0b100001#6 ++ off]
  | .jfr a ps => encodeWith (0b100010000#9 ++ BitVec.ofBool ps.isEmpty) a ++ encodeParams ps
  | .jsv ps => (0b100010001#9 ++ BitVec.ofBool ps.isEmpty ++ 0#6) :: encodeParams ps
  | .jfa a ps => encodeWith (0b100010010#9 ++ BitVec.ofBool ps.isEmpty) a ++ encodeParams ps
  | .rfn => [0b1000100110000000]
  | .addSpAdr a => encodeWith 0b1000101000#10 a
  | .jmr a => encodeWith 0b1000110000#10 a
  | .jma a => encodeWith 0b1000110100#10 a
  | .subSpAdr a => encodeWith 0b1000111000#10 a
  | .supervisorArea bits => [0b1001#4 ++ bits]
  | .btc a b => encodeWith (0b101000#6 ++ b) a
  | .xbc a b => encodeWith (0b101001#6 ++ b) a
  | .bts a b => encodeWith (0b101010#6 ++ b) a
  | .xbs a b => encodeWith (0b101011#6 ++ b) a
  | .xeqAdrRx a r => encodeWith (0b1011000#7 ++ r.bits) a
  | .xeqRxAdr r a => encodeWith (0b1011001#7 ++ r.bits) a
  | .xsgAdrRx a r => encodeWith (0b1011010#7 ++ r.bits) a
  | .xsgRxAdr r a => encodeWith (0b1011011#7 ++ r.bits) a
  | .xneAdrRx a r => encodeWith (0b1011100#7 ++ r.bits) a
  | .xneRxAdr r a => encodeWith (0b1011101#7 ++ r.bits) a
  | .xugAdrRx a r => encodeWith (0b1011110#7 ++ r.bits) a
  | .xugRxAdr r a => encodeWith (0b1011111#7 ++ r.bits) a
  | .nop => [0b1100000000000000]

end Sys2Proof
end

