-- ==== Sys2Proof/Config.lean ====
section
/-! DEFINITION. What an implementation fixes: the named parameters of `00_scope.md` section 4 as plain data
(`Params`), and the free values, constants without a body that no proof can look into. -/

namespace Sys2Proof

/-- The two spaces an operand can lie in (R31, R32). Code space is reached by fetch alone (R30). -/
inductive Space where
  | data
  | stack
deriving DecidableEq, Repr, Inhabited

/-- What stands at the addresses of a region of `DATA_MAP`: plain memory, or a device, whose reads and writes have
effects of its own (R39, D3). -/
inductive RegionKind where
  | ram
  | device
deriving DecidableEq, Repr, Inhabited

/-- The word addresses `lo` to `hi`, both included. -/
structure AddrRange where
  lo : Nat
  hi : Nat
deriving DecidableEq, Repr, Inhabited

/-- A range of `DATA_MAP`, and what stands there. -/
structure Region extends AddrRange where
  kind : RegionKind
deriving DecidableEq, Repr, Inhabited

/-- Which instance of the parameter `PTRMODE` the machine has (R92): one of the two the spec defines for its
test vectors, or the platform's own, which the spec does not give and `Config.ptrMode` stands for. -/
inductive PtrModeChoice where
  | plain
  | postInc1
  | platform
deriving DecidableEq, Repr, Inhabited

/-- Which `KERNEL` answers a supervisor call (R189, D7): the platform's, which the spec does not give and
`Config.kernel` stands for, or one that simply resumes the application, the case R189 speaks of. -/
inductive KernelChoice where
  | platform
  | resumesAtOnce
deriving DecidableEq, Repr, Inhabited

/-- The parameters of `00_scope.md` section 4 that are plain data. No step changes them. `pcw` is `PCW` (R15, D1),
`spRelative` is `SP_RELATIVE` (R21, D6), `dataMap` and `stackMap` are `DATA_MAP` and `STACK_MAP` (R31, R32, D3, D4),
the latter only which addresses exist, `ptrMode` selects `PTRMODE` (R92, D5), `kernel` selects `KERNEL` (R189, D7),
`pramStall` is `PRAM_STALL` (R228, D9). -/
structure Params where
  pcw : Nat
  spRelative : Bool
  dataMap : List Region
  stackMap : List AddrRange
  ptrMode : PtrModeChoice
  kernel : KernelChoice
  pramStall : Nat
deriving DecidableEq, Repr

/-- `PCW` is between 1 and 16 (D1). -/
abbrev Params.wf (p : Params) : Prop := 1 ≤ p.pcw ∧ p.pcw ≤ 16

/-- The bit field of a word that a narrowed pointer access reaches (R92). -/
structure BitField where
  shift : Nat
  width : Nat
deriving DecidableEq, Repr, Inhabited

/-- One access of the CPU to a device word of data space (R39): a read, or a write with the bit field it is narrowed
to, if any (R92). -/
inductive DeviceAccess where
  | read (addr : Word)
  | write (addr : Word) (field : Option BitField) (value : Word)
deriving DecidableEq, Repr, Inhabited

/-- What `PTRMODE` answers (R92): the word address the pointer yields, the bit field when the access is
narrowed, and the values the pointer register and its XH part take in phase 4. -/
structure PtrAccess where
  addr : Word
  field : Option BitField
  ptr' : Word
  part' : Nibble
deriving DecidableEq, Repr, Inhabited

namespace Config

/-- DESIGN CHOICE (log 6). The platform's `PTRMODE(space, n, p, m, h)` (R92): uninterpreted, so that a
statement about a pointer access holds for every pointer mode. -/
opaque ptrMode : Space → Ptr → Word → Nibble → Nibble → PtrAccess

/-- DESIGN CHOICE (log 34). What a device answers a read at an address (R39, D3): uninterpreted, a function of all the
accesses before it, the latest first, so that a read or a write may change every later answer. -/
opaque deviceRead : List DeviceAccess → Word → Word

/-- DESIGN CHOICE (log 2). What a data word that nothing has written holds (R26, U1). -/
opaque initialData : Word → Word

/-- DESIGN CHOICE (log 2). What a stack word that nothing has written holds (R26, U1). -/
opaque initialStack : Word → Word

/-- DESIGN CHOICE (log 2). What a code word outside the loaded program holds (R192, U6). -/
opaque initialCode : Word → Word

end Config

end Sys2Proof
end

