-- ==== Sys2Proof/Machine/State.lean ====
section
/-! DEFINITION. The state of the machine as plain data, the reasons a step can stop, and the state after reset.
Every piece of state the spec names is here (R27, with the supervisor stack of R33 and the parameters of R27). -/

namespace Sys2Proof.Machine

/-- User or supervisor mode (R23, R200). -/
inductive Mode where
  | user
  | supervisor
deriving DecidableEq, Repr, Inhabited

/-- The general registers (R10). -/
structure Regs where
  a : Word
  b : Word
  c : Word
  d : Word
  x0 : Word
  x1 : Word
  x2 : Word
  x3 : Word
deriving DecidableEq, Repr, Inhabited

/-- A memory space as its listed words: pairs of a word address and the 16-bit word there (R35, log 1), addresses
strictly rising. An unlisted address has no value of its own (log 2). -/
abbrev Memory := List (Nat × Word)

/-- Everything the machine holds between two instructions (R27). `supStack` is the supervisor stack's parameters
(R33), `code` the parameter `CODE` (R34), `params` the other parameters (log 5); no step changes these two. `devices`
is every access a device of `DATA_MAP` has seen, the latest first: all that its behaviour can depend on (R39; log 34). -/
structure State where
  regs : Regs
  pc : Word
  xm : Word
  xh : Word
  sp : Word
  bp : Word
  mode : Mode
  data : Memory
  stack : Memory
  supStack : List Word
  devices : List DeviceAccess
  code : Memory
  params : Params
deriving DecidableEq, Repr

/-- The cause of the terminal outcome `Terminated(cause)` (R203). -/
inductive TermCause where
  /-- User mode began to execute a word of the Supervisor area (R201). -/
  | supervisorTrap
  /-- The kernel did not resume the application (R203); which state it ends in, the spec leaves open (log 35). -/
  | kernelExit
deriving DecidableEq, Repr

/-- The ways the machine stops. -/
inductive Fault where
  /-- The application is terminated (R203): no step follows, and the last state is the one before the step. Raised by
  the Supervisor area in user mode, for which the spec gives that state (D27), so safe there; and by a JSV whose kernel
  does not resume, for which the spec gives no state: DESIGN CHOICE (log 35), unsafe. -/
  | terminated (cause : TermCause)
  /-- An access to an address outside `DATA_MAP` or `STACK_MAP`: the machine is stuck (R41, D17, U3). Raised by
  `guardAccess`. Safe: the model stops where the hardware may go on. -/
  | unmapped (space : Space) (addr : Word)
deriving DecidableEq, Repr

/-- What the model gives no meaning. -/
inductive Refusal where
  /-- An instruction without a meaning yet; no arm of `exec` answers it. Safe. -/
  | notModelled (mnemonic : String)
  /-- A word of the Supervisor area in supervisor mode, where the spec describes no instruction (I4, R190). Raised by
  `execSupervisorArea`. Safe: the model stops where the hardware goes on. -/
  | supervisorInstruction
  /-- The words fetched decode to nothing. Raised by `step`, and never in fact: every first word has a row and
  enough words are fetched (R65, R67). Safe. -/
  | undecodable
deriving DecidableEq, Repr

/-- The three outcomes of an operation of this machine. -/
abbrev Result (α : Type) := Host.Outcome α Fault Refusal

/-- The user-visible state a kernel resumes the application in: every register, the words of Data and Stack it has
stored, in the order of the stores, and its accesses to devices, the latest first (R189: which of them it changes is
not in the spec). -/
structure KernelResume where
  regs : Regs
  pc : Word
  xm : Word
  xh : Word
  sp : Word
  bp : Word
  dataWrites : List (Word × Word)
  stackWrites : List (Word × Word)
  deviceAccesses : List DeviceAccess
deriving DecidableEq, Repr, Inhabited

/-- The outcome of `KERNEL`: `Terminate`, or `Resume` with a user-visible state (R189). -/
inductive KernelReply where
  | terminate
  | resume (r : KernelResume)
deriving DecidableEq, Repr, Inhabited

/-- The spec's defaults for the parameters (`00_scope.md` section 4), and the uninterpreted `PTRMODE` and `KERNEL`.
DESIGN CHOICE (log 5, log 6, log 11). -/
def defaultParams : Params where
  pcw := 16
  spRelative := true
  dataMap := [⟨⟨0, 65535⟩, .ram⟩]
  stackMap := [⟨0, 65535⟩]
  ptrMode := .platform
  kernel := .platform
  pramStall := 0

/-- The machine right after reset. The spec gives no reset value for anything (R26, R220): the registers are zero and
the mode is user by DESIGN CHOICE (log 3, log 4), no memory word is listed (log 2), no program is loaded (log 9), no
device has been accessed (log 34). -/
def State.reset : State where
  regs := ⟨0, 0, 0, 0, 0, 0, 0, 0⟩
  pc := 0
  xm := 0
  xh := 0
  sp := 0
  bp := 0
  mode := .user
  data := []
  stack := []
  supStack := []
  devices := []
  code := []
  params := defaultParams

end Sys2Proof.Machine

namespace Sys2Proof.Config

/-- DESIGN CHOICE (log 11). The parameter `KERNEL(state, args)` (R189, D7): uninterpreted, so that a statement about a
supervisor call holds for every kernel. -/
opaque kernel : Sys2Proof.Machine.State → List Word → Sys2Proof.Machine.KernelReply

end Sys2Proof.Config
end

