-- ==== Sys2Proof/Machine/Memory.lean ====
section
/-! DEFINITION. A memory space as a list in one canonical form: reading a word, writing a word, and the form. -/

namespace Sys2Proof.Machine

/-- The listed word at an address; none where nothing has been written (log 2). -/
def Memory.read (m : Memory) (a : Nat) : Option Word :=
  match m with
  | [] => none
  | (b, w) :: rest => if a = b then some w else Memory.read rest a

/-- The memory with the word at one address replaced, addresses kept in rising order. -/
def Memory.write (m : Memory) (a : Nat) (v : Word) : Memory :=
  match m with
  | [] => [(a, v)]
  | (b, w) :: rest =>
    if a < b then (a, v) :: (b, w) :: rest
    else if a = b then (a, v) :: rest
    else (b, w) :: Memory.write rest a v

/-- The words of a list of stores, written one after the other. -/
def Memory.writeAll (m : Memory) (ws : List (Word × Word)) : Memory :=
  match ws with
  | [] => m
  | (a, v) :: rest => Memory.writeAll (Memory.write m a.toNat v) rest

/-- The canonical form: addresses strictly rising and below 2^16 (R31, R32). An unlisted address reads as no value
(log 2), so no entry can equal it. -/
abbrev Memory.wf (m : Memory) : Prop :=
  m.Pairwise (fun x y => x.1 < y.1) ∧ ∀ c ∈ m, c.1 < 65536

end Sys2Proof.Machine
end

