-- ==== Sys2Proof/Machine/Ops.lean ====
section
/-! DEFINITION. The named operations over registers, memory, program counter, stack and modes that every meaning is
built from: the only places that read or write the state's parts. -/

namespace Sys2Proof.Machine

/-! ### Outcomes -/

/-- Goes on with what an operation answers; a fault or a refusal stops. -/
def thenNext {α β : Type} (x : Result α) (k : α → Result β) : Result β :=
  match x with
  | .next a => k a
  | .fault f => .fault f
  | .refused r => .refused r

/-! ### General registers (R10, R14) -/

/-- The value of a general register. -/
def Regs.get (x : Regs) (r : Reg) : Word :=
  match r with
  | .a => x.a | .b => x.b | .c => x.c | .d => x.d
  | .x0 => x.x0 | .x1 => x.x1 | .x2 => x.x2 | .x3 => x.x3

/-- The registers with one replaced. -/
def Regs.set (x : Regs) (r : Reg) (v : Word) : Regs :=
  match r with
  | .a => { x with a := v } | .b => { x with b := v } | .c => { x with c := v } | .d => { x with d := v }
  | .x0 => { x with x0 := v } | .x1 => { x with x1 := v } | .x2 => { x with x2 := v } | .x3 => { x with x3 := v }

/-- `x[i]`, the value of general register `i`. -/
def State.reg (s : State) (r : Reg) : Word := s.regs.get r

/-- `x[i] <- v`. -/
def State.setReg (s : State) (r : Reg) (v : Word) : State := { s with regs := s.regs.set r v }

/-- The general register a pointer is: `rr` is register `4 + rr` (R12). -/
def ptrReg (p : Ptr) : Reg :=
  match p with
  | .x0 => .x0 | .x1 => .x1 | .x2 => .x2 | .x3 => .x3

/-- The carry register, general register C (R13), as a whole word. -/
def State.carry (s : State) : Word := s.reg .c

/-- Phase 6: the `C:` form writes the carry value to all of C (R96); the other forms write nothing. -/
def State.writeCarry (s : State) (carryForm : Bool) (cv : Word) : State :=
  match carryForm with
  | true => s.setReg .c cv
  | false => s

/-! ### Parts of XM and XH (R20) -/

/-- The least significant bit of part `n`: part 0 is the least significant four bits (R20, D13). -/
def partLow (n : PartNo) : Nat :=
  match n with
  | .p0 => 0 | .p1 => 4 | .p2 => 8 | .p3 => 12

/-- The part of XM and of XH that belongs to a pointer: part `n` to `Xn` (R18, R19). -/
def ptrPart (p : Ptr) : PartNo :=
  match p with
  | .x0 => .p0 | .x1 => .p1 | .x2 => .p2 | .x3 => .p3

/-- `part(R, n)`: bits `4n+3 .. 4n` (R20). -/
def part (r : Word) (n : PartNo) : Nibble := r.extractLsb' (partLow n) 4

/-- `setpart(R, n, v)`: those four bits replaced, the other twelve kept (R112, R114). -/
def setPart (r : Word) (n : PartNo) (v : Nibble) : Word :=
  (r &&& ~~~((0x000F : Word) <<< partLow n)) ||| ((v.zeroExtend 16) <<< partLow n)

/-! ### Program counter (R15, R16) -/

/-- A code address reduced modulo 2^PCW (R4, R16, D1). -/
def State.toPc (s : State) (v : Word) : Word := BitVec.ofNat 16 (v.toNat % 2 ^ s.params.pcw)

/-- `pc <- v mod 2^PCW`. -/
def State.setPc (s : State) (v : Word) : State := { s with pc := s.toPc v }

/-- `pc <- pc + n` (R16, R98). -/
def State.advance (s : State) (n : Nat) : State := s.setPc (s.pc + BitVec.ofNat 16 n)

/-! ### Data and stack words (R31, R32, R37) -/

/-- What a word that nothing has written holds: a free value (R26, U1; log 2). -/
def initialWord (sp : Space) (a : Word) : Word :=
  match sp with
  | .data => Config.initialData a
  | .stack => Config.initialStack a

/-- `MemRead(space, a, 1)`. -/
def State.readWord (s : State) (sp : Space) (a : Word) : Word :=
  match sp with
  | .data => (s.data.read a.toNat).getD (initialWord .data a)
  | .stack => (s.stack.read a.toNat).getD (initialWord .stack a)

/-- `MemWrite(space, a, 1, v)`. -/
def State.writeWord (s : State) (sp : Space) (a : Word) (v : Word) : State :=
  match sp with
  | .data => { s with data := s.data.write a.toNat v }
  | .stack => { s with stack := s.stack.write a.toNat v }

/-- What `DATA_MAP` places at an address: the first region that holds it; none where no region does (R41). -/
def regionAt (m : List Region) (a : Word) : Option RegionKind :=
  match m with
  | [] => none
  | r :: rest => if r.lo ≤ a.toNat ∧ a.toNat ≤ r.hi then some r.kind else regionAt rest a

/-- Whether `STACK_MAP` has an address (R32). -/
def inRanges (m : List AddrRange) (a : Word) : Bool := m.any fun r => decide (r.lo ≤ a.toNat ∧ a.toNat ≤ r.hi)

/-- What stands at an address of a space; none outside its map (R31, R32, R41). -/
def State.kindAt (s : State) (sp : Space) (a : Word) : Option RegionKind :=
  match sp with
  | .data => regionAt s.params.dataMap a
  | .stack => if inRanges s.params.stackMap a then some .ram else none

/-- Whether an address of a space exists. -/
def State.isMapped (s : State) (sp : Space) (a : Word) : Bool := (s.kindAt sp a).isSome

/-- Whether a device of the platform stands at an address of a space (R39). -/
def State.isDevice (s : State) (sp : Space) (a : Word) : Bool := s.kindAt sp a == some .device

/-- Goes on where an address exists. Outside the map the machine is stuck (R41, D17). -/
def guardAccess {α : Type} (s : State) (sp : Space) (a : Word) (k : Result α) : Result α :=
  match s.kindAt sp a with
  | some _ => k
  | none => .fault (.unmapped sp a)

/-- What a read of an address gives: the last value written, or what the device there answers (R39; log 34). -/
def State.load (s : State) (sp : Space) (a : Word) : Word :=
  if s.isDevice sp a then Config.deviceRead s.devices a else s.readWord sp a

/-- What one read of an address does: nothing to plain memory; a device sees it (R39, D16). -/
def State.afterLoad (s : State) (sp : Space) (a : Word) : State :=
  if s.isDevice sp a then { s with devices := .read a :: s.devices } else s

/-! ### Bit fields of a word (R92) -/

/-- The low `width` bits set. -/
def fieldMask (f : BitField) : Word := BitVec.ofNat 16 (2 ^ f.width - 1)

/-- What a narrowed access reads of a word: `(word >> shift) & (2^width - 1)` (R92). -/
def fieldGet (f : BitField) (w : Word) : Word := (w >>> f.shift) &&& fieldMask f

/-- What a narrowed access leaves in a word: only the field's bits replaced (R92). -/
def fieldPut (f : BitField) (w v : Word) : Word :=
  (w &&& ~~~(fieldMask f <<< f.shift)) ||| ((v &&& fieldMask f) <<< f.shift)

/-- What an access reads of a word, narrowed or not. -/
def narrowGet (f : Option BitField) (w : Word) : Word :=
  match f with
  | none => w
  | some f => fieldGet f w

/-- What an access leaves in a word, narrowed or not. -/
def narrowPut (f : Option BitField) (w v : Word) : Word :=
  match f with
  | none => v
  | some f => fieldPut f w v

/-- What one write to an address does: the word of plain memory takes the value; a device sees the write (R39). -/
def State.store (s : State) (sp : Space) (a : Word) (f : Option BitField) (v : Word) : State :=
  if s.isDevice sp a then { s with devices := .write a f v :: s.devices }
  else s.writeWord sp a (narrowPut f (s.readWord sp a) v)

/-! ### The stack (R21, R184) -/

/-- `TOS`, the stack address of the first free word: `BP + SP` when SP is relative, else SP (R184, D6). -/
def State.tos (s : State) : Word :=
  match s.params.spRelative with
  | true => s.bp + s.sp
  | false => s.sp

/-- `setTOS(a)`, with BP as it is now. -/
def State.setTos (s : State) (a : Word) : State :=
  match s.params.spRelative with
  | true => { s with sp := a - s.bp }
  | false => { s with sp := a }

/-- Pushes a word: stores it at `TOS` and raises SP by one (R186). -/
def pushWord {α : Type} (s : State) (v : Word) (k : State → Result α) : Result α :=
  guardAccess s .stack s.tos (k { s.writeWord .stack s.tos v with sp := s.sp + 1 })

/-- Function entry before the parameters (R186): the return address at `TOS`, the caller's BP above it, BP and `TOS`
moved above both. -/
def enterFrame {α : Type} (s : State) (ret : Word) (k : State → Result α) : Result α :=
  guardAccess s .stack s.tos
    (guardAccess s .stack (s.tos + 1)
      (k (({ (s.writeWord .stack s.tos ret).writeWord .stack (s.tos + 1) s.bp with bp := s.tos + 2 }).setTos
        (s.tos + 2))))

/-- Function return (R188, D22): the exact inverse of `enterFrame`, from the two words under BP. -/
def leaveFrame (s : State) : Result State :=
  guardAccess s .stack (s.bp - 2)
    (guardAccess s .stack (s.bp - 1)
      (.next ((({ s with bp := s.readWord .stack (s.bp - 1) }).setTos (s.bp - 2)).setPc
        (s.readWord .stack (s.bp - 2)))))

/-! ### Exceptions and the supervisor (R200, R201, R203, R206) -/

/-- Taking the one exception, or a kernel that does not resume: the terminal outcome (R203). Nothing is saved and no
handler address exists (R206). The outcome holds no state (D27; log 35). -/
def terminate {α : Type} (cause : TermCause) : Result α := .fault (.terminated cause)

/-- Entry of a supervisor call (R189): the parameters on the supervisor stack, user `pc` after the JSV word (D23),
supervisor mode (R23). PC and BP are preserved, nothing is pushed on the user stack. -/
def State.enterSupervisor (s : State) (args : List Word) : State :=
  { s.advance 1 with mode := .supervisor, supStack := args }

/-- The user-visible state a kernel resumes in, in user mode. Code and parameters are fixed (R34, log 14). -/
def State.resumeUser (s : State) (r : KernelResume) : State :=
  { s with
    regs := r.regs, pc := s.toPc r.pc, xm := r.xm, xh := r.xh, sp := r.sp, bp := r.bp, mode := .user,
    data := s.data.writeAll r.dataWrites, stack := s.stack.writeAll r.stackWrites, supStack := [],
    devices := r.deviceAccesses ++ s.devices }

/-- The resumption that changes nothing (R189: "a kernel that simply resumes"). -/
def State.unchanged (s : State) : KernelResume where
  regs := s.regs
  pc := s.pc
  xm := s.xm
  xh := s.xh
  sp := s.sp
  bp := s.bp
  dataWrites := []
  stackWrites := []
  deviceAccesses := []

/-- `KERNEL(state, args)`, the parameters standing on the supervisor stack (R189; log 11). -/
def State.kernelReply (s : State) : KernelReply :=
  match s.params.kernel with
  | .platform => Config.kernel s s.supStack
  | .resumesAtOnce => .resume s.unchanged

/-- The outcome of `KERNEL` for the state it receives: the next user-mode state, or the end of the application (R189,
R203). DESIGN CHOICE (log 35): at that end the last state is the one before the JSV word. -/
def kernelOutcome (s : State) : Result State :=
  match s.kernelReply with
  | .terminate => terminate .kernelExit
  | .resume r => .next (s.resumeUser r)

end Sys2Proof.Machine
end

