-- ==== Sys2Proof/Machine/Flags.lean ====
section
/-! DEFINITION. What each operation computes: its result and the carry value of its `C:` form (there are no flags,
R17). `dv` is the old destination value, `s` the source value, `cin` the old value of C. Values are taken as exact
integers and narrowed at the end (R141). -/

namespace Sys2Proof.Machine

/-- A result and the carry value that goes with it. -/
structure AluOut where
  result : Word
  carry : Word
deriving DecidableEq, Repr

/-- The low and the high 16 bits of an exact value below 2^32. -/
def splitLow (t : Nat) : AluOut := ⟨BitVec.ofNat 16 t, BitVec.ofNat 16 (t >>> 16)⟩

/-- A difference: its low 16 bits, and 0xFFFF if it borrows, else 0 (R141). -/
def splitBorrow (t : Int) : AluOut := ⟨BitVec.ofInt 16 t, if t < 0 then 0xFFFF else 0⟩

/-- ADD (R130). -/
def aluAdd (dv s _cin : Word) : AluOut := splitLow (dv.toNat + s.toNat)

/-- ADC: only bit 0 of C is an input (R132). -/
def aluAdc (dv s cin : Word) : AluOut := splitLow (dv.toNat + s.toNat + cin.toNat % 2)

/-- SUB (R133). -/
def aluSub (dv s _cin : Word) : AluOut := splitBorrow ((dv.toNat : Int) - s.toNat)

/-- SBC: only bit 0 of C is an input (R135). -/
def aluSbc (dv s cin : Word) : AluOut := splitBorrow ((dv.toNat : Int) - s.toNat - (cin.toNat % 2 : Nat))

/-- MUL: unsigned 16 by 16 bits (R137, R142). -/
def aluMul (dv s _cin : Word) : AluOut := splitLow (dv.toNat * s.toNat)

/-- MAC: all sixteen bits of C are added (R138). -/
def aluMac (dv s cin : Word) : AluOut := splitLow (dv.toNat * s.toNat + cin.toNat)

/-- DIV: unsigned quotient and remainder, both zero for a zero divisor (R139, R143). -/
def aluDiv (dv s _cin : Word) : AluOut :=
  if s = 0 then ⟨0, 0⟩
  else ⟨BitVec.ofNat 16 (dv.toNat / s.toNat), BitVec.ofNat 16 (dv.toNat % s.toNat)⟩

/-- The shift count, the low four bits of the source (R161). -/
def shiftCount (s : Word) : Nat := s.toNat % 16

/-- The bits a right shift by `n` moves out of `dv`, left-aligned (R155). -/
def shiftedOutRight (dv : Word) (n : Nat) : Word := BitVec.ofNat 16 ((dv.toNat <<< 16) >>> n)

/-- SHL: the bits shifted out arrive right-aligned in the carry value (R154). -/
def aluShl (dv s _cin : Word) : AluOut := splitLow (dv.toNat <<< shiftCount s)

/-- SHR (R155). -/
def aluShr (dv s _cin : Word) : AluOut :=
  ⟨BitVec.ofNat 16 (dv.toNat >>> shiftCount s), shiftedOutRight dv (shiftCount s)⟩

/-- ASR: the sign bit is replicated in the result, not in the carry value (R156). -/
def aluAsr (dv s _cin : Word) : AluOut :=
  ⟨BitVec.ofInt 16 (dv.toInt >>> shiftCount s), shiftedOutRight dv (shiftCount s)⟩

/-- SLC: SHL with all of the old C ORed into the result (R157). -/
def aluSlc (dv s cin : Word) : AluOut := ⟨(aluShl dv s cin).result ||| cin, (aluShl dv s cin).carry⟩

/-- SRC: SHR with all of the old C ORed into the result (R158, C3). -/
def aluSrc (dv s cin : Word) : AluOut := ⟨(aluShr dv s cin).result ||| cin, (aluShr dv s cin).carry⟩

/-- AND (R150). It has no carry form. -/
def aluAnd (dv s _cin : Word) : AluOut := ⟨dv &&& s, 0⟩

/-- OR (R151). It has no carry form. -/
def aluOr (dv s _cin : Word) : AluOut := ⟨dv ||| s, 0⟩

/-- XOR (R152). It has no carry form. -/
def aluXor (dv s _cin : Word) : AluOut := ⟨dv ^^^ s, 0⟩

/-- NOT of the source (R153). -/
def aluNot (s : Word) : Word := s ^^^ 0xFFFF

/-- NEG of the source (R140). -/
def aluNeg (s : Word) : Word := BitVec.ofInt 16 (0 - (s.toNat : Int))

/-- The word with the one bit `b` set, `1 << imm4` (R159, R160). -/
def bitMask (b : Nibble) : Word := BitVec.ofNat 16 (1 <<< b.toNat)

/-- Strictly greater as two's complement numbers (R175). -/
def signedGreater (a b : Word) : Bool := decide (a.toInt > b.toInt)

/-- Strictly greater as unsigned numbers (R176). -/
def unsignedGreater (a b : Word) : Bool := decide (a.toNat > b.toNat)

end Sys2Proof.Machine
end

