-- ==== Sys2Proof/Machine/Operands.lean ====
section
/-! DEFINITION. Operand descriptors: resolving the nine addressing modes (R82 to R92), reading and writing operands
(R93, R94), the post-increment (R92) and the order of an instruction's phases (R81). -/

namespace Sys2Proof.Machine

/-- Where an operand is: an immediate value, a general register, or a word of a space, perhaps narrowed to a bit
field of it (R82, R92). -/
inductive Loc where
  | imm (v : Word)
  | reg (r : Reg)
  | mem (sp : Space) (a : Word) (field : Option BitField)
deriving DecidableEq, Repr

/-- The values a pointer and its XH part take in phase 4 (R92). -/
structure PostInc where
  ptr : Ptr
  value : Word
  part : Nibble
deriving DecidableEq, Repr

/-- An operand descriptor with its pending post-increment, computed once in phase 1 (R82). -/
structure Operand where
  loc : Loc
  post : Option PostInc
deriving DecidableEq, Repr

/-- `PTRMODE(space, n, x[4+n], part(XM, n), part(XH, n))` (R92): the platform's, or one of the two instances `PLAIN`
and `POSTINC1`. -/
def ptrAccess (s : State) (sp : Space) (p : Ptr) : PtrAccess :=
  match s.params.ptrMode with
  | .plain => ⟨s.reg (ptrReg p), none, s.reg (ptrReg p), part s.xh (ptrPart p)⟩
  | .postInc1 => ⟨s.reg (ptrReg p), none, s.reg (ptrReg p) + 1, part s.xh (ptrPart p)⟩
  | .platform => Config.ptrMode sp p (s.reg (ptrReg p)) (part s.xm (ptrPart p)) (part s.xh (ptrPart p))

/-- Phase 1: the operand descriptor of an addressing mode, with `bp` the BP used (R82 to R91, R99). -/
def resolve (a : Adr) (bp : Word) (s : State) : Operand :=
  match a with
  | .imm4 v => ⟨.imm (v.zeroExtend 16), none⟩
  | .stack4 v => ⟨.mem .stack (bp + v.zeroExtend 16) none, none⟩
  | .imm16 v => ⟨.imm v, none⟩
  | .bpImm16 v => ⟨.imm (bp + v), none⟩
  | .data16 v => ⟨.mem .data v none, none⟩
  | .stack16 v => ⟨.mem .stack (bp + v) none, none⟩
  | .reg r => ⟨.reg r, none⟩
  | .ptr p =>
    ⟨.mem .data (ptrAccess s .data p).addr (ptrAccess s .data p).field,
      some ⟨p, (ptrAccess s .data p).ptr', (ptrAccess s .data p).part'⟩⟩
  | .stackPtr p =>
    ⟨.mem .stack (bp + (ptrAccess s .stack p).addr) (ptrAccess s .stack p).field,
      some ⟨p, (ptrAccess s .stack p).ptr', (ptrAccess s .stack p).part'⟩⟩

/-- How many words an instruction with this addressing mode takes: 2 for M3 to M6 (R63). -/
def instrWords (a : Adr) : Nat :=
  match a with
  | .imm16 _ | .bpImm16 _ | .data16 _ | .stack16 _ => 2
  | .imm4 _ | .stack4 _ | .reg _ | .ptr _ | .stackPtr _ => 1

/-- `OpRead` (R93): the value. -/
def Operand.read (o : Operand) (s : State) : Word :=
  match o.loc with
  | .imm v => v
  | .reg r => s.reg r
  | .mem sp a f => narrowGet f (s.load sp a)

/-- `OpRead` (R93): what the one read does, which is nothing but where the operand is a device word (R39, D16). -/
def Operand.afterRead (o : Operand) (s : State) : State :=
  match o.loc with
  | .imm _ => s
  | .reg _ => s
  | .mem sp a _ => s.afterLoad sp a

/-- `OpWrite` (R94): a write to an immediate does nothing. -/
def Operand.write (o : Operand) (v : Word) (s : State) : State :=
  match o.loc with
  | .imm _ => s
  | .reg r => s.setReg r v
  | .mem sp a f => s.store sp a f v

/-- Phase 4: the post-increment, if any (R81, R92). -/
def Operand.postInc (o : Operand) (s : State) : State :=
  match o.post with
  | none => s
  | some q => { s.setReg (ptrReg q.ptr) q.value with xh := setPart s.xh (ptrPart q.ptr) q.part }

/-- Whether an operand can be accessed: an immediate or a register always, a memory word where its address exists. -/
def Operand.usable (o : Operand) (s : State) : Bool :=
  match o.loc with
  | .imm _ => true
  | .reg _ => true
  | .mem sp a _ => s.isMapped sp a

/-- Phase 1 of every instruction with an `adr` operand: goes on with the descriptor where it can be accessed. Every
such instruction reads or writes its operand, so a bad address stops it here (R41). -/
def onOperand {α : Type} (a : Adr) (bp : Word) (s : State) (k : Operand → Result α) : Result α :=
  match (resolve a bp s).loc with
  | .imm _ => k (resolve a bp s)
  | .reg _ => k (resolve a bp s)
  | .mem sp addr _ => guardAccess s sp addr (k (resolve a bp s))

/-! ### Parameter lists (R185) -/

/-- Evaluates and pushes the parameters one after the other (R185, D25): each is resolved with the caller's BP (R99),
read, its post-increment applied, its value pushed. -/
def pushParams (ps : List Adr) (callerBp : Word) (s : State) : Result State :=
  match ps with
  | [] => .next s
  | a :: rest =>
    onOperand a callerBp s fun o =>
      pushWord (o.postInc (o.afterRead s)) (o.read s) fun s' => pushParams rest callerBp s'

/-- Evaluates the parameters of a supervisor call in order, the user stack untouched (R189). -/
def collectArgs (ps : List Adr) (callerBp : Word) (s : State) : Result (State × List Word) :=
  match ps with
  | [] => .next (s, [])
  | a :: rest =>
    onOperand a callerBp s fun o =>
      thenNext (collectArgs rest callerBp (o.postInc (o.afterRead s))) fun x => .next (x.1, o.read s :: x.2)

/-- A supervisor call up to its outcome: the state `KERNEL` receives, the parameters evaluated in the caller's frame
(R189). -/
def supervisorCall (ps : List Adr) (s : State) : Result State :=
  thenNext (collectArgs ps s.bp s) fun x => .next (x.1.enterSupervisor x.2)

end Sys2Proof.Machine
end

