-- ==== Sys2Proof/Machine/Forms.lean ====
section
/-! DEFINITION. The shapes instructions share, each written once in the phases of R81; a meaning is one of them with
its operation filled in. -/

namespace Sys2Proof.Machine

/-- `OP rx, adr` and `OP C:rx, adr` of an operation that reads its destination (R81, R95, R96). -/
def opRx (f : Word → Word → Word → AluOut) (carryForm : Bool) (r : Reg) (a : Adr) (s : State) : Result State :=
  onOperand a s.bp s fun o =>
    let out := f (s.reg r) (o.read s) s.carry
    .next ((((o.postInc (o.afterRead s)).setReg r out.result).writeCarry carryForm out.carry).advance (instrWords a))

/-- `OP adr, rx` and `OP C:adr, rx` of an operation that reads its destination (R81, R95, R96). -/
def opAdr (f : Word → Word → Word → AluOut) (carryForm : Bool) (a : Adr) (r : Reg) (s : State) : Result State :=
  onOperand a s.bp s fun o =>
    let out := f (o.read s) (s.reg r) s.carry
    .next (((o.write out.result (o.postInc (o.afterRead s))).writeCarry carryForm out.carry).advance (instrWords a))

/-- `OP rx, adr` of an operation on the source alone: MOV, NOT, NEG (R110, R140, R153). -/
def loadRx (f : Word → Word) (r : Reg) (a : Adr) (s : State) : Result State :=
  onOperand a s.bp s fun o =>
    .next (((o.postInc (o.afterRead s)).setReg r (f (o.read s))).advance (instrWords a))

/-- A value stored to the `adr` operand, whose old value is not read (R111, R113, R115, R117, R119, R121, R140,
R153). -/
def storeAdr (v : Word) (a : Adr) (s : State) : Result State :=
  onOperand a s.bp s fun o =>
    .next ((o.write v (o.postInc s)).advance (instrWords a))

/-- The `adr` operand read into a special register by `put`, which acts on the state after phase 4 (R112, R114, R116,
R118, R120, R131, R134). -/
def loadSpecial (put : State → Word → State) (a : Adr) (s : State) : Result State :=
  onOperand a s.bp s fun o =>
    .next ((put (o.postInc (o.afterRead s)) (o.read s)).advance (instrWords a))

/-- XCH: both values read, then both written swapped (R122, R123). -/
def exchange (r : Reg) (a : Adr) (s : State) : Result State :=
  onOperand a s.bp s fun o =>
    .next ((o.write (s.reg r) ((o.postInc (o.afterRead s)).setReg r (o.read s))).advance (instrWords a))

/-- The `adr` operand modified in place: BTC, BTS (R159, R160). -/
def modifyAdr (f : Word → Word) (a : Adr) (s : State) : Result State :=
  onOperand a s.bp s fun o =>
    .next ((o.write (f (o.read s)) (o.postInc (o.afterRead s))).advance (instrWords a))

/-- A skip: `pc` moves past the instruction, and past one word more if the condition on the operand holds
(R170, R179). -/
def skipIf (cond : Word → Bool) (a : Adr) (s : State) : Result State :=
  onOperand a s.bp s fun o =>
    .next ((o.postInc (o.afterRead s)).advance (if cond (o.read s) then instrWords a + 1 else instrWords a))

/-- A jump to an address computed from the operand (R182, R183). -/
def jumpTo (target : Word → Word) (a : Adr) (s : State) : Result State :=
  onOperand a s.bp s fun o => .next ((o.postInc (o.afterRead s)).setPc (target (o.read s)))

/-- JFR and JFA: the target operand in the caller's frame, the frame entry, the parameters, the jump (R186, R187). The
return address is that of the word after the call (R191). -/
def callTo (target : Word → Word) (a : Adr) (ps : List Adr) (s : State) : Result State :=
  onOperand a s.bp s fun o =>
    enterFrame (o.postInc (o.afterRead s)) (s.toPc (s.pc + BitVec.ofNat 16 (instrWords a))) fun s' =>
      thenNext (pushParams ps s.bp s') fun s'' => .next (s''.setPc (target (o.read s)))

end Sys2Proof.Machine
end

