-- ==== Sys2Proof/Machine/Arith.lean ====
section
/-! DEFINITION. Meanings: the arithmetic instructions (`42_arithmetic.md`). -/

namespace Sys2Proof.Machine

/-- `ADD adr, rx` (R130). -/
def execAddAdrRx (a : Adr) (r : Reg) (s : State) : Result State :=
  opAdr aluAdd false a r s

/-- `ADD rx, adr` (R130). -/
def execAddRxAdr (r : Reg) (a : Adr) (s : State) : Result State :=
  opRx aluAdd false r a s

/-- `ADD C:adr, rx` (R130). -/
def execAddCAdrRx (a : Adr) (r : Reg) (s : State) : Result State :=
  opAdr aluAdd true a r s

/-- `ADD C:rx, adr` (R130). -/
def execAddCRxAdr (r : Reg) (a : Adr) (s : State) : Result State :=
  opRx aluAdd true r a s

/-- `SUB adr, rx` (R133). -/
def execSubAdrRx (a : Adr) (r : Reg) (s : State) : Result State :=
  opAdr aluSub false a r s

/-- `SUB rx, adr` (R133). -/
def execSubRxAdr (r : Reg) (a : Adr) (s : State) : Result State :=
  opRx aluSub false r a s

/-- `SUB C:adr, rx` (R133). -/
def execSubCAdrRx (a : Adr) (r : Reg) (s : State) : Result State :=
  opAdr aluSub true a r s

/-- `SUB C:rx, adr` (R133). -/
def execSubCRxAdr (r : Reg) (a : Adr) (s : State) : Result State :=
  opRx aluSub true r a s

/-- `DIV adr, rx` (R139). -/
def execDivAdrRx (a : Adr) (r : Reg) (s : State) : Result State :=
  opAdr aluDiv false a r s

/-- `DIV rx, adr` (R139). -/
def execDivRxAdr (r : Reg) (a : Adr) (s : State) : Result State :=
  opRx aluDiv false r a s

/-- `DIV C:adr, rx` (R139). -/
def execDivCAdrRx (a : Adr) (r : Reg) (s : State) : Result State :=
  opAdr aluDiv true a r s

/-- `DIV C:rx, adr` (R139). -/
def execDivCRxAdr (r : Reg) (a : Adr) (s : State) : Result State :=
  opRx aluDiv true r a s

/-- `ADC adr, rx` (R132). -/
def execAdcAdrRx (a : Adr) (r : Reg) (s : State) : Result State :=
  opAdr aluAdc false a r s

/-- `ADC rx, adr` (R132). -/
def execAdcRxAdr (r : Reg) (a : Adr) (s : State) : Result State :=
  opRx aluAdc false r a s

/-- `ADC C:adr, rx` (R132). -/
def execAdcCAdrRx (a : Adr) (r : Reg) (s : State) : Result State :=
  opAdr aluAdc true a r s

/-- `ADC C:rx, adr` (R132). -/
def execAdcCRxAdr (r : Reg) (a : Adr) (s : State) : Result State :=
  opRx aluAdc true r a s

/-- `SBC adr, rx` (R135). -/
def execSbcAdrRx (a : Adr) (r : Reg) (s : State) : Result State :=
  opAdr aluSbc false a r s

/-- `SBC rx, adr` (R135). -/
def execSbcRxAdr (r : Reg) (a : Adr) (s : State) : Result State :=
  opRx aluSbc false r a s

/-- `SBC C:adr, rx` (R135). -/
def execSbcCAdrRx (a : Adr) (r : Reg) (s : State) : Result State :=
  opAdr aluSbc true a r s

/-- `SBC C:rx, adr` (R135). -/
def execSbcCRxAdr (r : Reg) (a : Adr) (s : State) : Result State :=
  opRx aluSbc true r a s

/-- `MUL adr, rx` (R137). -/
def execMulAdrRx (a : Adr) (r : Reg) (s : State) : Result State :=
  opAdr aluMul false a r s

/-- `MUL rx, adr` (R137). -/
def execMulRxAdr (r : Reg) (a : Adr) (s : State) : Result State :=
  opRx aluMul false r a s

/-- `MUL C:adr, rx` (R137). -/
def execMulCAdrRx (a : Adr) (r : Reg) (s : State) : Result State :=
  opAdr aluMul true a r s

/-- `MUL C:rx, adr` (R137). -/
def execMulCRxAdr (r : Reg) (a : Adr) (s : State) : Result State :=
  opRx aluMul true r a s

/-- `MAC adr, rx` (R138). -/
def execMacAdrRx (a : Adr) (r : Reg) (s : State) : Result State :=
  opAdr aluMac false a r s

/-- `MAC rx, adr` (R138). -/
def execMacRxAdr (r : Reg) (a : Adr) (s : State) : Result State :=
  opRx aluMac false r a s

/-- `MAC C:adr, rx` (R138). -/
def execMacCAdrRx (a : Adr) (r : Reg) (s : State) : Result State :=
  opAdr aluMac true a r s

/-- `MAC C:rx, adr` (R138). -/
def execMacCRxAdr (r : Reg) (a : Adr) (s : State) : Result State :=
  opRx aluMac true r a s

/-- `NEG adr, rx` (R140). -/
def execNegAdrRx (a : Adr) (r : Reg) (s : State) : Result State :=
  storeAdr (aluNeg (s.reg r)) a s

/-- `NEG rx, adr` (R140). -/
def execNegRxAdr (r : Reg) (a : Adr) (s : State) : Result State :=
  loadRx aluNeg r a s

/-- `ADD SP, adr` (R131). -/
def execAddSpAdr (a : Adr) (s : State) : Result State :=
  loadSpecial (fun t v => { t with sp := t.sp + v }) a s

/-- `SUB SP, adr` (R134). -/
def execSubSpAdr (a : Adr) (s : State) : Result State :=
  loadSpecial (fun t v => { t with sp := t.sp - v }) a s

end Sys2Proof.Machine
end

