-- ==== Sys2Proof/Machine/Control.lean ====
section
/-! DEFINITION. Meanings: NOP, jumps, calls, return, supervisor call and the Supervisor area (`45_control.md`). -/

namespace Sys2Proof.Machine

/-- `JMS simm10`: short relative jump; the base is the address of the word (R181). -/
def execJms (off : BitVec 10) (s : State) : Result State :=
  .next (s.setPc (s.pc + off.signExtend 16))

/-- `JFR adr {...}`: relative function call (R186). -/
def execJfr (a : Adr) (ps : List Adr) (s : State) : Result State :=
  callTo (fun v => s.pc + v) a ps s

/-- `JSV {...}`: supervisor call, with what `KERNEL` makes of it, as one step (R80, R189; log 11). -/
def execJsv (ps : List Adr) (s : State) : Result State :=
  thenNext (supervisorCall ps s) kernelOutcome

/-- `JFA adr {...}`: absolute function call (R187). -/
def execJfa (a : Adr) (ps : List Adr) (s : State) : Result State :=
  callTo (fun v => v) a ps s

/-- `RFN`: return from function (R188). -/
def execRfn (s : State) : Result State :=
  leaveFrame s

/-- `JMR adr`: relative jump from the address of the JMR word (R182). -/
def execJmr (a : Adr) (s : State) : Result State :=
  jumpTo (fun v => s.pc + v) a s

/-- `JMA adr`: absolute jump (R183). -/
def execJma (a : Adr) (s : State) : Result State :=
  jumpTo (fun v => v) a s

/-- `(supervisor area)`: supervisor trap in user mode, precise, the bits uninterpreted (R190, R201, R203); in supervisor
mode no instruction is described (I4). -/
def execSupervisorArea (_bits : BitVec 12) (s : State) : Result State :=
  match s.mode with
  | .user => terminate .supervisorTrap
  | .supervisor => .refused .supervisorInstruction

/-- `NOP`: no operation (R180). -/
def execNop (s : State) : Result State :=
  .next (s.advance 1)

end Sys2Proof.Machine
end

