-- ==== Sys2Proof/Machine/Logic.lean ====
section
/-! DEFINITION. Meanings: the logic, shift and bit instructions (`43_logic_shift_bit.md`). -/

namespace Sys2Proof.Machine

/-- `NOT adr, rx` (R153). -/
def execNotAdrRx (a : Adr) (r : Reg) (s : State) : Result State :=
  storeAdr (aluNot (s.reg r)) a s

/-- `NOT rx, adr` (R153). -/
def execNotRxAdr (r : Reg) (a : Adr) (s : State) : Result State :=
  loadRx aluNot r a s

/-- `SHL adr, rx` (R154). -/
def execShlAdrRx (a : Adr) (r : Reg) (s : State) : Result State :=
  opAdr aluShl false a r s

/-- `SHL rx, adr` (R154). -/
def execShlRxAdr (r : Reg) (a : Adr) (s : State) : Result State :=
  opRx aluShl false r a s

/-- `SHL C:adr, rx` (R154). -/
def execShlCAdrRx (a : Adr) (r : Reg) (s : State) : Result State :=
  opAdr aluShl true a r s

/-- `SHL C:rx, adr` (R154). -/
def execShlCRxAdr (r : Reg) (a : Adr) (s : State) : Result State :=
  opRx aluShl true r a s

/-- `SHR adr, rx` (R155). -/
def execShrAdrRx (a : Adr) (r : Reg) (s : State) : Result State :=
  opAdr aluShr false a r s

/-- `SHR rx, adr` (R155). -/
def execShrRxAdr (r : Reg) (a : Adr) (s : State) : Result State :=
  opRx aluShr false r a s

/-- `SHR C:adr, rx` (R155). -/
def execShrCAdrRx (a : Adr) (r : Reg) (s : State) : Result State :=
  opAdr aluShr true a r s

/-- `SHR C:rx, adr` (R155). -/
def execShrCRxAdr (r : Reg) (a : Adr) (s : State) : Result State :=
  opRx aluShr true r a s

/-- `ASR adr, rx` (R156). -/
def execAsrAdrRx (a : Adr) (r : Reg) (s : State) : Result State :=
  opAdr aluAsr false a r s

/-- `ASR rx, adr` (R156). -/
def execAsrRxAdr (r : Reg) (a : Adr) (s : State) : Result State :=
  opRx aluAsr false r a s

/-- `ASR C:adr, rx` (R156). -/
def execAsrCAdrRx (a : Adr) (r : Reg) (s : State) : Result State :=
  opAdr aluAsr true a r s

/-- `ASR C:rx, adr` (R156). -/
def execAsrCRxAdr (r : Reg) (a : Adr) (s : State) : Result State :=
  opRx aluAsr true r a s

/-- `SLC adr, rx` (R157). -/
def execSlcAdrRx (a : Adr) (r : Reg) (s : State) : Result State :=
  opAdr aluSlc false a r s

/-- `SLC rx, adr` (R157). -/
def execSlcRxAdr (r : Reg) (a : Adr) (s : State) : Result State :=
  opRx aluSlc false r a s

/-- `SLC C:adr, rx` (R157). -/
def execSlcCAdrRx (a : Adr) (r : Reg) (s : State) : Result State :=
  opAdr aluSlc true a r s

/-- `SLC C:rx, adr` (R157). -/
def execSlcCRxAdr (r : Reg) (a : Adr) (s : State) : Result State :=
  opRx aluSlc true r a s

/-- `SRC adr, rx` (R158). -/
def execSrcAdrRx (a : Adr) (r : Reg) (s : State) : Result State :=
  opAdr aluSrc false a r s

/-- `SRC rx, adr` (R158). -/
def execSrcRxAdr (r : Reg) (a : Adr) (s : State) : Result State :=
  opRx aluSrc false r a s

/-- `SRC C:adr, rx` (R158). -/
def execSrcCAdrRx (a : Adr) (r : Reg) (s : State) : Result State :=
  opAdr aluSrc true a r s

/-- `SRC C:rx, adr` (R158). -/
def execSrcCRxAdr (r : Reg) (a : Adr) (s : State) : Result State :=
  opRx aluSrc true r a s

/-- `OR adr, rx` (R151). -/
def execOrAdrRx (a : Adr) (r : Reg) (s : State) : Result State :=
  opAdr aluOr false a r s

/-- `OR rx, adr` (R151). -/
def execOrRxAdr (r : Reg) (a : Adr) (s : State) : Result State :=
  opRx aluOr false r a s

/-- `AND adr, rx` (R150). -/
def execAndAdrRx (a : Adr) (r : Reg) (s : State) : Result State :=
  opAdr aluAnd false a r s

/-- `AND rx, adr` (R150). -/
def execAndRxAdr (r : Reg) (a : Adr) (s : State) : Result State :=
  opRx aluAnd false r a s

/-- `XOR adr, rx` (R152). -/
def execXorAdrRx (a : Adr) (r : Reg) (s : State) : Result State :=
  opAdr aluXor false a r s

/-- `XOR rx, adr` (R152). -/
def execXorRxAdr (r : Reg) (a : Adr) (s : State) : Result State :=
  opRx aluXor false r a s

/-- `BTC adr, imm4` (R159). -/
def execBtc (a : Adr) (b : Nibble) (s : State) : Result State :=
  modifyAdr (fun v => v &&& ~~~(bitMask b)) a s

/-- `BTS adr, imm4` (R160). -/
def execBts (a : Adr) (b : Nibble) (s : State) : Result State :=
  modifyAdr (fun v => v ||| bitMask b) a s

end Sys2Proof.Machine
end

