-- ==== Sys2Proof/Machine/Move.lean ====
section
/-! DEFINITION. Meanings: the data movement instructions (`41_move.md`). -/

namespace Sys2Proof.Machine

/-- `MOV adr, rx` (R111). -/
def execMovAdrRx (a : Adr) (r : Reg) (s : State) : Result State :=
  storeAdr (s.reg r) a s

/-- `MOV rx, adr` (R110). -/
def execMovRxAdr (r : Reg) (a : Adr) (s : State) : Result State :=
  loadRx (fun v => v) r a s

/-- `MOV adr, xmn` (R113). -/
def execMovAdrXmn (n : PartNo) (a : Adr) (s : State) : Result State :=
  storeAdr ((part s.xm n).zeroExtend 16) a s

/-- `MOV adr, xhn` (R115). -/
def execMovAdrXhn (n : PartNo) (a : Adr) (s : State) : Result State :=
  storeAdr ((part s.xh n).zeroExtend 16) a s

/-- `MOV xmn, adr` (R112). -/
def execMovXmnAdr (n : PartNo) (a : Adr) (s : State) : Result State :=
  loadSpecial (fun t v => { t with xm := setPart t.xm n (v.extractLsb' 0 4) }) a s

/-- `MOV xhn, adr` (R114). -/
def execMovXhnAdr (n : PartNo) (a : Adr) (s : State) : Result State :=
  loadSpecial (fun t v => { t with xh := setPart t.xh n (v.extractLsb' 0 4) }) a s

/-- `XCH adr, rx` (R122). -/
def execXchAdrRx (a : Adr) (r : Reg) (s : State) : Result State :=
  exchange r a s

/-- `XCH rx, adr` (R122). -/
def execXchRxAdr (r : Reg) (a : Adr) (s : State) : Result State :=
  exchange r a s

/-- `MOV adr, XM` (R117). -/
def execMovAdrXM (a : Adr) (s : State) : Result State :=
  storeAdr s.xm a s

/-- `MOV adr, XH` (R119). -/
def execMovAdrXH (a : Adr) (s : State) : Result State :=
  storeAdr s.xh a s

/-- `MOV adr, SP` (R121). -/
def execMovAdrSp (a : Adr) (s : State) : Result State :=
  storeAdr s.sp a s

/-- `MOV XM, adr` (R116). -/
def execMovXMAdr (a : Adr) (s : State) : Result State :=
  loadSpecial (fun t v => { t with xm := v }) a s

/-- `MOV XH, adr` (R118). -/
def execMovXHAdr (a : Adr) (s : State) : Result State :=
  loadSpecial (fun t v => { t with xh := v }) a s

/-- `MOV SP, adr` (R120). -/
def execMovSpAdr (a : Adr) (s : State) : Result State :=
  loadSpecial (fun t v => { t with sp := v }) a s

end Sys2Proof.Machine
end

