-- ==== Sys2Proof/Machine/Skip.lean ====
section
/-! DEFINITION. Meanings: the conditional skips (`44_skip.md`). -/

namespace Sys2Proof.Machine

/-- `XBC adr, imm4` (R171). -/
def execXbc (a : Adr) (b : Nibble) (s : State) : Result State :=
  skipIf (fun v => !v.getLsbD b.toNat) a s

/-- `XBS adr, imm4` (R172). -/
def execXbs (a : Adr) (b : Nibble) (s : State) : Result State :=
  skipIf (fun v => v.getLsbD b.toNat) a s

/-- `XEQ adr, rx` (R173). -/
def execXeqAdrRx (a : Adr) (r : Reg) (s : State) : Result State :=
  skipIf (fun v => v == s.reg r) a s

/-- `XEQ rx, adr` (R173). -/
def execXeqRxAdr (r : Reg) (a : Adr) (s : State) : Result State :=
  skipIf (fun v => s.reg r == v) a s

/-- `XSG adr, rx` (R175). -/
def execXsgAdrRx (a : Adr) (r : Reg) (s : State) : Result State :=
  skipIf (fun v => signedGreater v (s.reg r)) a s

/-- `XSG rx, adr` (R175). -/
def execXsgRxAdr (r : Reg) (a : Adr) (s : State) : Result State :=
  skipIf (fun v => signedGreater (s.reg r) v) a s

/-- `XNE adr, rx` (R174). -/
def execXneAdrRx (a : Adr) (r : Reg) (s : State) : Result State :=
  skipIf (fun v => v != s.reg r) a s

/-- `XNE rx, adr` (R174). -/
def execXneRxAdr (r : Reg) (a : Adr) (s : State) : Result State :=
  skipIf (fun v => s.reg r != v) a s

/-- `XUG adr, rx` (R176). -/
def execXugAdrRx (a : Adr) (r : Reg) (s : State) : Result State :=
  skipIf (fun v => unsignedGreater v (s.reg r)) a s

/-- `XUG rx, adr` (R176). -/
def execXugRxAdr (r : Reg) (a : Adr) (s : State) : Result State :=
  skipIf (fun v => unsignedGreater (s.reg r) v) a s

end Sys2Proof.Machine
end

