-- ==== Sys2Proof/Machine/Dispatch.lean ====
section
/-! DEFINITION. One arm per instruction, each one direct call of its meaning. -/

namespace Sys2Proof.Machine

def exec (i : Instr) (s : State) : Host.Outcome State Fault Refusal :=
  match i with
  | .movAdrRx a r => Sys2Proof.Machine.execMovAdrRx a r s
  | .movRxAdr r a => Sys2Proof.Machine.execMovRxAdr r a s
  | .movAdrXmn n a => Sys2Proof.Machine.execMovAdrXmn n a s
  | .movAdrXhn n a => Sys2Proof.Machine.execMovAdrXhn n a s
  | .movXmnAdr n a => Sys2Proof.Machine.execMovXmnAdr n a s
  | .movXhnAdr n a => Sys2Proof.Machine.execMovXhnAdr n a s
  | .addAdrRx a r => Sys2Proof.Machine.execAddAdrRx a r s
  | .addRxAdr r a => Sys2Proof.Machine.execAddRxAdr r a s
  | .addCAdrRx a r => Sys2Proof.Machine.execAddCAdrRx a r s
  | .addCRxAdr r a => Sys2Proof.Machine.execAddCRxAdr r a s
  | .subAdrRx a r => Sys2Proof.Machine.execSubAdrRx a r s
  | .subRxAdr r a => Sys2Proof.Machine.execSubRxAdr r a s
  | .subCAdrRx a r => Sys2Proof.Machine.execSubCAdrRx a r s
  | .subCRxAdr r a => Sys2Proof.Machine.execSubCRxAdr r a s
  | .xchAdrRx a r => Sys2Proof.Machine.execXchAdrRx a r s
  | .xchRxAdr r a => Sys2Proof.Machine.execXchRxAdr r a s
  | .divAdrRx a r => Sys2Proof.Machine.execDivAdrRx a r s
  | .divRxAdr r a => Sys2Proof.Machine.execDivRxAdr r a s
  | .divCAdrRx a r => Sys2Proof.Machine.execDivCAdrRx a r s
  | .divCRxAdr r a => Sys2Proof.Machine.execDivCRxAdr r a s
  | .adcAdrRx a r => Sys2Proof.Machine.execAdcAdrRx a r s
  | .adcRxAdr r a => Sys2Proof.Machine.execAdcRxAdr r a s
  | .adcCAdrRx a r => Sys2Proof.Machine.execAdcCAdrRx a r s
  | .adcCRxAdr r a => Sys2Proof.Machine.execAdcCRxAdr r a s
  | .sbcAdrRx a r => Sys2Proof.Machine.execSbcAdrRx a r s
  | .sbcRxAdr r a => Sys2Proof.Machine.execSbcRxAdr r a s
  | .sbcCAdrRx a r => Sys2Proof.Machine.execSbcCAdrRx a r s
  | .sbcCRxAdr r a => Sys2Proof.Machine.execSbcCRxAdr r a s
  | .mulAdrRx a r => Sys2Proof.Machine.execMulAdrRx a r s
  | .mulRxAdr r a => Sys2Proof.Machine.execMulRxAdr r a s
  | .mulCAdrRx a r => Sys2Proof.Machine.execMulCAdrRx a r s
  | .mulCRxAdr r a => Sys2Proof.Machine.execMulCRxAdr r a s
  | .notAdrRx a r => Sys2Proof.Machine.execNotAdrRx a r s
  | .notRxAdr r a => Sys2Proof.Machine.execNotRxAdr r a s
  | .shlAdrRx a r => Sys2Proof.Machine.execShlAdrRx a r s
  | .shlRxAdr r a => Sys2Proof.Machine.execShlRxAdr r a s
  | .shlCAdrRx a r => Sys2Proof.Machine.execShlCAdrRx a r s
  | .shlCRxAdr r a => Sys2Proof.Machine.execShlCRxAdr r a s
  | .shrAdrRx a r => Sys2Proof.Machine.execShrAdrRx a r s
  | .shrRxAdr r a => Sys2Proof.Machine.execShrRxAdr r a s
  | .shrCAdrRx a r => Sys2Proof.Machine.execShrCAdrRx a r s
  | .shrCRxAdr r a => Sys2Proof.Machine.execShrCRxAdr r a s
  | .macAdrRx a r => Sys2Proof.Machine.execMacAdrRx a r s
  | .macRxAdr r a => Sys2Proof.Machine.execMacRxAdr r a s
  | .macCAdrRx a r => Sys2Proof.Machine.execMacCAdrRx a r s
  | .macCRxAdr r a => Sys2Proof.Machine.execMacCRxAdr r a s
  | .asrAdrRx a r => Sys2Proof.Machine.execAsrAdrRx a r s
  | .asrRxAdr r a => Sys2Proof.Machine.execAsrRxAdr r a s
  | .asrCAdrRx a r => Sys2Proof.Machine.execAsrCAdrRx a r s
  | .asrCRxAdr r a => Sys2Proof.Machine.execAsrCRxAdr r a s
  | .slcAdrRx a r => Sys2Proof.Machine.execSlcAdrRx a r s
  | .slcRxAdr r a => Sys2Proof.Machine.execSlcRxAdr r a s
  | .slcCAdrRx a r => Sys2Proof.Machine.execSlcCAdrRx a r s
  | .slcCRxAdr r a => Sys2Proof.Machine.execSlcCRxAdr r a s
  | .srcAdrRx a r => Sys2Proof.Machine.execSrcAdrRx a r s
  | .srcRxAdr r a => Sys2Proof.Machine.execSrcRxAdr r a s
  | .srcCAdrRx a r => Sys2Proof.Machine.execSrcCAdrRx a r s
  | .srcCRxAdr r a => Sys2Proof.Machine.execSrcCRxAdr r a s
  | .orAdrRx a r => Sys2Proof.Machine.execOrAdrRx a r s
  | .orRxAdr r a => Sys2Proof.Machine.execOrRxAdr r a s
  | .andAdrRx a r => Sys2Proof.Machine.execAndAdrRx a r s
  | .andRxAdr r a => Sys2Proof.Machine.execAndRxAdr r a s
  | .xorAdrRx a r => Sys2Proof.Machine.execXorAdrRx a r s
  | .xorRxAdr r a => Sys2Proof.Machine.execXorRxAdr r a s
  | .negAdrRx a r => Sys2Proof.Machine.execNegAdrRx a r s
  | .negRxAdr r a => Sys2Proof.Machine.execNegRxAdr r a s
  | .movAdrXM a => Sys2Proof.Machine.execMovAdrXM a s
  | .movAdrXH a => Sys2Proof.Machine.execMovAdrXH a s
  | .movAdrSp a => Sys2Proof.Machine.execMovAdrSp a s
  | .movXMAdr a => Sys2Proof.Machine.execMovXMAdr a s
  | .movXHAdr a => Sys2Proof.Machine.execMovXHAdr a s
  | .movSpAdr a => Sys2Proof.Machine.execMovSpAdr a s
  | .jms off => Sys2Proof.Machine.execJms off s
  | .jfr a ps => Sys2Proof.Machine.execJfr a ps s
  | .jsv ps => Sys2Proof.Machine.execJsv ps s
  | .jfa a ps => Sys2Proof.Machine.execJfa a ps s
  | .rfn => Sys2Proof.Machine.execRfn s
  | .addSpAdr a => Sys2Proof.Machine.execAddSpAdr a s
  | .jmr a => Sys2Proof.Machine.execJmr a s
  | .jma a => Sys2Proof.Machine.execJma a s
  | .subSpAdr a => Sys2Proof.Machine.execSubSpAdr a s
  | .supervisorArea bits => Sys2Proof.Machine.execSupervisorArea bits s
  | .btc a b => Sys2Proof.Machine.execBtc a b s
  | .xbc a b => Sys2Proof.Machine.execXbc a b s
  | .bts a b => Sys2Proof.Machine.execBts a b s
  | .xbs a b => Sys2Proof.Machine.execXbs a b s
  | .xeqAdrRx a r => Sys2Proof.Machine.execXeqAdrRx a r s
  | .xeqRxAdr r a => Sys2Proof.Machine.execXeqRxAdr r a s
  | .xsgAdrRx a r => Sys2Proof.Machine.execXsgAdrRx a r s
  | .xsgRxAdr r a => Sys2Proof.Machine.execXsgRxAdr r a s
  | .xneAdrRx a r => Sys2Proof.Machine.execXneAdrRx a r s
  | .xneRxAdr r a => Sys2Proof.Machine.execXneRxAdr r a s
  | .xugAdrRx a r => Sys2Proof.Machine.execXugAdrRx a r s
  | .xugRxAdr r a => Sys2Proof.Machine.execXugRxAdr r a s
  | .nop => Sys2Proof.Machine.execNop s

end Sys2Proof.Machine
end

