-- ==== Sys2Proof/Machine/Fetch.lean ====
section
/-! DEFINITION. Instruction fetch from code space (R30, R80), and the load of a program word for `withFetchWord`. -/

namespace Sys2Proof.Machine

/-- `Code[a]`: the word at `a mod 2^PCW`; outside the loaded program a free value (R30, R192, U6; log 2). -/
def State.codeWord (s : State) (a : Word) : Word :=
  (s.code.read (s.toPc a).toNat).getD (Config.initialCode (s.toPc a))

/-- `n` words at consecutive code addresses from `a` on (R50). -/
def State.codeWords (s : State) (n : Nat) (a : Word) : List Word :=
  match n with
  | 0 => []
  | n + 1 => s.codeWord a :: State.codeWords s n (a + 1)

/-- The words from `pc` on, enough for any instruction with its parameter list (R80, R185; log 10). -/
def State.fetch (s : State) : List Word := s.codeWords maxInstrWords s.pc

/-- The state with words loaded at consecutive code addresses from `a` on; where code space is so small that they
wrap, the first words stand. -/
def State.loadWords (s : State) (ws : List Word) (a : Word) : State :=
  match ws with
  | [] => s
  | w :: rest =>
    { s with code := (State.loadWords s rest (a + 1)).code.write (s.toPc a).toNat w }

end Sys2Proof.Machine
end

