-- ==== Sys2Proof/Machine/Step.lean ====
section
/-! DEFINITION. One step of the machine (R80). -/

namespace Sys2Proof.Machine

/-- In user mode one instruction is fetched, decoded and executed, a supervisor call with the kernel's answer among them
(R80). No step ends in supervisor mode; from a state in it, the kernel answers the call on the supervisor stack (R189,
R200; log 11). -/
def step (s : State) : Host.Outcome State Fault Refusal :=
  match s.mode with
  | .supervisor => kernelOutcome s
  | .user =>
    match decode s.fetch with
    | .ok (i, _) => exec i s
    | .error _ => .refused .undecodable

/-- The state with an instruction whose first `nbits` bits are `w`, its other bits 0, stored where the next step fetches
(log 9). User mode is what the fetch needs. -/
def State.withFetchWord (s : State) (nbits w : Nat) : State :=
  { s.loadWords (wordsOf maxInstrWords (w % 2 ^ nbits)) s.pc with mode := .user }

end Sys2Proof.Machine
end

