-- ==== Sys2Proof/Safety.lean ====
section
/-! DEFINITION. The terms the statements use: what counts as a safe run, the invariant, and what an instruction
leaves in the next state, each frame written out over every part of State. -/

namespace Sys2Proof.Machine

/-! ### Safe runs and the invariant -/

/-- A step that goes on: it neither terminates the application nor is stuck (R203, R41). -/
def SafeStep (s : State) : Prop := ∃ t, step s = .next t

/-- Every address of both spaces is plain memory: the default `DATA_MAP` and `STACK_MAP` (D3, D4). -/
def AllRam (s : State) : Prop := ∀ sp x, s.kindAt sp x = some .ram

/-- Every address of both spaces exists, as plain memory or as a device (R31, R32). -/
def AllMapped (s : State) : Prop := ∀ sp x, s.isMapped sp x = true

/-- What every step keeps: memories in canonical form, `pc` a code address (R15), at most sixteen words on the
supervisor stack (R33), and none there in user mode. -/
structure Inv (s : State) : Prop where
  data : s.data.wf
  stack : s.stack.wf
  code : s.code.wf
  params : s.params.wf
  pc : s.pc.toNat < 2 ^ s.params.pcw
  supStack : s.supStack.length ≤ 16
  user : s.mode = .user → s.supStack = []

/-! ### Operands of a statement -/

/-- The operand of an instruction in the frame it runs in (R82, R99). -/
def operand (a : Adr) (s : State) : Operand := resolve a s.bp s

/-- The operand can be accessed. -/
abbrev Usable (a : Adr) (s : State) : Prop := (operand a s).usable s = true

/-- The value the operand has before the instruction (R93). -/
def operandValue (a : Adr) (s : State) : Word := (operand a s).read s

/-- The state after phase 4 of an instruction that does not read its operand: its post-increment applied, nothing else
(R81). -/
def afterPost (a : Adr) (s : State) : State := (operand a s).postInc s

/-- The state after phase 4 of an instruction that reads its operand (R81, R39). -/
def afterReads (a : Adr) (s : State) : State := (operand a s).postInc ((operand a s).afterRead s)

/-- The register an operand is, if it is one. -/
def locReg (l : Loc) : Option Reg :=
  match l with
  | .reg r => some r
  | .imm _ => none
  | .mem _ _ _ => none

/-- What word `x` of a space holds once `v` is written to an operand that is a word `a`: a device keeps what it is
given to itself (R39, R92, R94). -/
def wordAfter (s : State) (l : Loc) (v : Word) (sp : Space) (x : Word) : Word :=
  match l with
  | .imm _ => s.readWord sp x
  | .reg _ => s.readWord sp x
  | .mem k a field =>
    if sp = k ∧ x = a ∧ s.isDevice k a = false then
      match field with
      | none => v
      | some f => fieldPut f (s.readWord sp x) v
    else s.readWord sp x

/-- The accesses the devices have seen once an operand is read: one more where the operand is a device word (R39). -/
def readLog (s : State) (l : Loc) : List DeviceAccess :=
  match l with
  | .imm _ => s.devices
  | .reg _ => s.devices
  | .mem k a _ => if s.isDevice k a then .read a :: s.devices else s.devices

/-- The accesses the devices have seen once `v` is written to an operand, after those of `log` (R39). -/
def writeLog (s : State) (l : Loc) (v : Word) (log : List DeviceAccess) : List DeviceAccess :=
  match l with
  | .imm _ => log
  | .reg _ => log
  | .mem k a field => if s.isDevice k a then .write a field v :: log else log

/-- What register `q` holds after the phases 4, 5 and 6: the carry value in C if the form writes it, else the result in
the destination register, else what phase 4 left (R81, R97). -/
def regAfter (base : State) (dst : Option Reg) (v : Word) (cv : Option Word) (q : Reg) : Word :=
  match cv with
  | some c => if q = .c then c else if dst = some q then v else base.reg q
  | none => if dst = some q then v else base.reg q

/-! ### What a next state holds -/

/-- Every part of the next state `t`: the registers, the special registers, each word of data and stack space, the
accesses the devices have seen, `pc`; mode, supervisor stack, code and parameters as they were. -/
structure Leaves (s t : State) (regs : Reg → Word) (xm xh sp bp : Word) (mem : Space → Word → Word)
    (devices : List DeviceAccess) (pc : Word) : Prop where
  regs : ∀ q, t.reg q = regs q
  xm : t.xm = xm
  xh : t.xh = xh
  sp : t.sp = sp
  bp : t.bp = bp
  mem : ∀ k x, t.readWord k x = mem k x
  devices : t.devices = devices
  pc : t.pc = pc
  mode : t.mode = s.mode
  supStack : t.supStack = s.supStack
  code : t.code = s.code
  params : t.params = s.params

/-- `pc` past an instruction of this addressing mode and `extra` words more (R16, R98, R170). -/
def nextPc (s : State) (a : Adr) (extra : Nat) : Word := s.toPc (s.pc + BitVec.ofNat 16 (instrWords a + extra))

/-- The instruction completes, its operand read once, its result `v` in register `r`, the carry value in C if there is
one, the post-increment of its addressing mode made, all else as before. -/
def WritesRegister (i : Instr) (s : State) (a : Adr) (r : Reg) (v : Word) (cv : Option Word) : Prop :=
  ∃ t, exec i s = .next t ∧
    Leaves s t (regAfter (afterPost a s) (some r) v cv) s.xm (afterPost a s).xh s.sp s.bp s.readWord
      (readLog s (operand a s).loc) (nextPc s a 0)

/-- The instruction completes, its operand read once if `reads`, its result `v` written to the operand (nowhere, if that
is an immediate, R94), the carry value in C if there is one, the post-increment made, all else as before. -/
def WritesOperand (reads : Bool) (i : Instr) (s : State) (a : Adr) (v : Word) (cv : Option Word) : Prop :=
  ∃ t, exec i s = .next t ∧
    Leaves s t (regAfter (afterPost a s) (locReg (operand a s).loc) v cv) s.xm (afterPost a s).xh s.sp s.bp
      (wordAfter s (operand a s).loc v)
      (writeLog s (operand a s).loc v (if reads then readLog s (operand a s).loc else s.devices)) (nextPc s a 0)

/-- The instruction completes, its operand read once, with these values in XM, XH and SP, the post-increment made, all
else as before. -/
def WritesSpecial (i : Instr) (s : State) (a : Adr) (xm xh sp : Word) : Prop :=
  ∃ t, exec i s = .next t ∧
    Leaves s t (afterPost a s).reg xm xh sp s.bp s.readWord (readLog s (operand a s).loc) (nextPc s a 0)

/-- The skip completes, its operand read once, and passes over one word more iff `taken` (R170, R179), all else as
before. -/
def Skips (i : Instr) (s : State) (a : Adr) (taken : Bool) : Prop :=
  ∃ t, exec i s = .next t ∧
    Leaves s t (afterPost a s).reg s.xm (afterPost a s).xh s.sp s.bp s.readWord (readLog s (operand a s).loc)
      (nextPc s a (if taken then 1 else 0))

/-- The jump completes at this address, its operand read once, all else as before but for the post-increment. -/
def JumpsTo (i : Instr) (s : State) (a : Adr) (dest : Word) : Prop :=
  ∃ t, exec i s = .next t ∧
    Leaves s t (afterPost a s).reg s.xm (afterPost a s).xh s.sp s.bp s.readWord (readLog s (operand a s).loc) dest

/-! ### Encodings in a statement -/

/-- The first word with these ten high bits and this operand reads as this instruction, with the operand's second word
where it has one, whatever follows (R62, R63). -/
def FormReads (hi : BitVec 10) (a : Adr) (i : Instr) : Prop :=
  ∀ rest, decode (encodeWith hi a ++ rest) = .ok (i, rest)

/-- The address operand of an instruction, for a call that of its target (R52 to R57). -/
def operandOf (i : Instr) : Option Adr :=
  match i with
  | .movAdrRx a _ => some a
  | .movRxAdr _ a => some a
  | .movAdrXmn _ a => some a
  | .movAdrXhn _ a => some a
  | .movXmnAdr _ a => some a
  | .movXhnAdr _ a => some a
  | .addAdrRx a _ => some a
  | .addRxAdr _ a => some a
  | .addCAdrRx a _ => some a
  | .addCRxAdr _ a => some a
  | .subAdrRx a _ => some a
  | .subRxAdr _ a => some a
  | .subCAdrRx a _ => some a
  | .subCRxAdr _ a => some a
  | .xchAdrRx a _ => some a
  | .xchRxAdr _ a => some a
  | .divAdrRx a _ => some a
  | .divRxAdr _ a => some a
  | .divCAdrRx a _ => some a
  | .divCRxAdr _ a => some a
  | .adcAdrRx a _ => some a
  | .adcRxAdr _ a => some a
  | .adcCAdrRx a _ => some a
  | .adcCRxAdr _ a => some a
  | .sbcAdrRx a _ => some a
  | .sbcRxAdr _ a => some a
  | .sbcCAdrRx a _ => some a
  | .sbcCRxAdr _ a => some a
  | .mulAdrRx a _ => some a
  | .mulRxAdr _ a => some a
  | .mulCAdrRx a _ => some a
  | .mulCRxAdr _ a => some a
  | .notAdrRx a _ => some a
  | .notRxAdr _ a => some a
  | .shlAdrRx a _ => some a
  | .shlRxAdr _ a => some a
  | .shlCAdrRx a _ => some a
  | .shlCRxAdr _ a => some a
  | .shrAdrRx a _ => some a
  | .shrRxAdr _ a => some a
  | .shrCAdrRx a _ => some a
  | .shrCRxAdr _ a => some a
  | .macAdrRx a _ => some a
  | .macRxAdr _ a => some a
  | .macCAdrRx a _ => some a
  | .macCRxAdr _ a => some a
  | .asrAdrRx a _ => some a
  | .asrRxAdr _ a => some a
  | .asrCAdrRx a _ => some a
  | .asrCRxAdr _ a => some a
  | .slcAdrRx a _ => some a
  | .slcRxAdr _ a => some a
  | .slcCAdrRx a _ => some a
  | .slcCRxAdr _ a => some a
  | .srcAdrRx a _ => some a
  | .srcRxAdr _ a => some a
  | .srcCAdrRx a _ => some a
  | .srcCRxAdr _ a => some a
  | .orAdrRx a _ => some a
  | .orRxAdr _ a => some a
  | .andAdrRx a _ => some a
  | .andRxAdr _ a => some a
  | .xorAdrRx a _ => some a
  | .xorRxAdr _ a => some a
  | .negAdrRx a _ => some a
  | .negRxAdr _ a => some a
  | .movAdrXM a => some a
  | .movAdrXH a => some a
  | .movAdrSp a => some a
  | .movXMAdr a => some a
  | .movXHAdr a => some a
  | .movSpAdr a => some a
  | .jms _ => none
  | .jfr a _ => some a
  | .jsv _ => none
  | .jfa a _ => some a
  | .rfn => none
  | .addSpAdr a => some a
  | .jmr a => some a
  | .jma a => some a
  | .subSpAdr a => some a
  | .supervisorArea _ => none
  | .btc a _ => some a
  | .xbc a _ => some a
  | .bts a _ => some a
  | .xbs a _ => some a
  | .xeqAdrRx a _ => some a
  | .xeqRxAdr _ a => some a
  | .xsgAdrRx a _ => some a
  | .xsgRxAdr _ a => some a
  | .xneAdrRx a _ => some a
  | .xneRxAdr _ a => some a
  | .xugAdrRx a _ => some a
  | .xugRxAdr _ a => some a
  | .nop => none

/-- The operand an instruction may write its result to in memory: the `adr` operand of the forms that store to it. -/
def storesTo (i : Instr) : Option Adr :=
  match i with
  | .movAdrRx a _ => some a
  | .movRxAdr _ _ => none
  | .movAdrXmn _ a => some a
  | .movAdrXhn _ a => some a
  | .movXmnAdr _ _ => none
  | .movXhnAdr _ _ => none
  | .addAdrRx a _ => some a
  | .addRxAdr _ _ => none
  | .addCAdrRx a _ => some a
  | .addCRxAdr _ _ => none
  | .subAdrRx a _ => some a
  | .subRxAdr _ _ => none
  | .subCAdrRx a _ => some a
  | .subCRxAdr _ _ => none
  | .xchAdrRx a _ => some a
  | .xchRxAdr _ a => some a
  | .divAdrRx a _ => some a
  | .divRxAdr _ _ => none
  | .divCAdrRx a _ => some a
  | .divCRxAdr _ _ => none
  | .adcAdrRx a _ => some a
  | .adcRxAdr _ _ => none
  | .adcCAdrRx a _ => some a
  | .adcCRxAdr _ _ => none
  | .sbcAdrRx a _ => some a
  | .sbcRxAdr _ _ => none
  | .sbcCAdrRx a _ => some a
  | .sbcCRxAdr _ _ => none
  | .mulAdrRx a _ => some a
  | .mulRxAdr _ _ => none
  | .mulCAdrRx a _ => some a
  | .mulCRxAdr _ _ => none
  | .notAdrRx a _ => some a
  | .notRxAdr _ _ => none
  | .shlAdrRx a _ => some a
  | .shlRxAdr _ _ => none
  | .shlCAdrRx a _ => some a
  | .shlCRxAdr _ _ => none
  | .shrAdrRx a _ => some a
  | .shrRxAdr _ _ => none
  | .shrCAdrRx a _ => some a
  | .shrCRxAdr _ _ => none
  | .macAdrRx a _ => some a
  | .macRxAdr _ _ => none
  | .macCAdrRx a _ => some a
  | .macCRxAdr _ _ => none
  | .asrAdrRx a _ => some a
  | .asrRxAdr _ _ => none
  | .asrCAdrRx a _ => some a
  | .asrCRxAdr _ _ => none
  | .slcAdrRx a _ => some a
  | .slcRxAdr _ _ => none
  | .slcCAdrRx a _ => some a
  | .slcCRxAdr _ _ => none
  | .srcAdrRx a _ => some a
  | .srcRxAdr _ _ => none
  | .srcCAdrRx a _ => some a
  | .srcCRxAdr _ _ => none
  | .orAdrRx a _ => some a
  | .orRxAdr _ _ => none
  | .andAdrRx a _ => some a
  | .andRxAdr _ _ => none
  | .xorAdrRx a _ => some a
  | .xorRxAdr _ _ => none
  | .negAdrRx a _ => some a
  | .negRxAdr _ _ => none
  | .movAdrXM a => some a
  | .movAdrXH a => some a
  | .movAdrSp a => some a
  | .movXMAdr _ => none
  | .movXHAdr _ => none
  | .movSpAdr _ => none
  | .jms _ => none
  | .jfr _ _ => none
  | .jsv _ => none
  | .jfa _ _ => none
  | .rfn => none
  | .addSpAdr _ => none
  | .jmr _ => none
  | .jma _ => none
  | .subSpAdr _ => none
  | .supervisorArea _ => none
  | .btc a _ => some a
  | .xbc _ _ => none
  | .bts a _ => some a
  | .xbs _ _ => none
  | .xeqAdrRx _ _ => none
  | .xeqRxAdr _ _ => none
  | .xsgAdrRx _ _ => none
  | .xsgRxAdr _ _ => none
  | .xneAdrRx _ _ => none
  | .xneRxAdr _ _ => none
  | .xugAdrRx _ _ => none
  | .xugRxAdr _ _ => none
  | .nop => none

/-- The forms that store to their operand without reading it: MOV, NOT and NEG (R39, D16; log 30). -/
def storesWithoutReading (i : Instr) : Bool :=
  match i with
  | .movAdrRx _ _ | .movAdrXmn _ _ | .movAdrXhn _ _ | .notAdrRx _ _ | .negAdrRx _ _ | .movAdrXM _ | .movAdrXH _
  | .movAdrSp _ => true
  | .movRxAdr _ _ | .movXmnAdr _ _ | .movXhnAdr _ _ | .addAdrRx _ _ | .addRxAdr _ _ | .addCAdrRx _ _
  | .addCRxAdr _ _ | .subAdrRx _ _ | .subRxAdr _ _ | .subCAdrRx _ _ | .subCRxAdr _ _ | .xchAdrRx _ _ | .xchRxAdr _ _
  | .divAdrRx _ _ | .divRxAdr _ _ | .divCAdrRx _ _ | .divCRxAdr _ _ | .adcAdrRx _ _ | .adcRxAdr _ _ | .adcCAdrRx _ _
  | .adcCRxAdr _ _ | .sbcAdrRx _ _ | .sbcRxAdr _ _ | .sbcCAdrRx _ _ | .sbcCRxAdr _ _ | .mulAdrRx _ _ | .mulRxAdr _ _
  | .mulCAdrRx _ _ | .mulCRxAdr _ _ | .notRxAdr _ _ | .shlAdrRx _ _ | .shlRxAdr _ _ | .shlCAdrRx _ _
  | .shlCRxAdr _ _ | .shrAdrRx _ _ | .shrRxAdr _ _ | .shrCAdrRx _ _ | .shrCRxAdr _ _ | .macAdrRx _ _ | .macRxAdr _ _
  | .macCAdrRx _ _ | .macCRxAdr _ _ | .asrAdrRx _ _ | .asrRxAdr _ _ | .asrCAdrRx _ _ | .asrCRxAdr _ _
  | .slcAdrRx _ _ | .slcRxAdr _ _ | .slcCAdrRx _ _ | .slcCRxAdr _ _ | .srcAdrRx _ _ | .srcRxAdr _ _ | .srcCAdrRx _ _
  | .srcCRxAdr _ _ | .orAdrRx _ _ | .orRxAdr _ _ | .andAdrRx _ _ | .andRxAdr _ _ | .xorAdrRx _ _ | .xorRxAdr _ _
  | .negRxAdr _ _ | .movXMAdr _ | .movXHAdr _ | .movSpAdr _ | .jms _ | .jfr _ _ | .jsv _ | .jfa _ _ | .rfn
  | .addSpAdr _ | .jmr _ | .jma _ | .subSpAdr _ | .supervisorArea _ | .btc _ _ | .xbc _ _ | .bts _ _ | .xbs _ _
  | .xeqAdrRx _ _ | .xeqRxAdr _ _ | .xsgAdrRx _ _ | .xsgRxAdr _ _ | .xneAdrRx _ _ | .xneRxAdr _ _ | .xugAdrRx _ _
  | .xugRxAdr _ _ | .nop => false

/-- The carry-write forms, the 24 rows that have a `C:` (R96). -/
def carryForm (i : Instr) : Bool :=
  match i with
  | .addCAdrRx _ _ | .addCRxAdr _ _ | .subCAdrRx _ _ | .subCRxAdr _ _ | .divCAdrRx _ _ | .divCRxAdr _ _
  | .adcCAdrRx _ _ | .adcCRxAdr _ _ | .sbcCAdrRx _ _ | .sbcCRxAdr _ _ | .mulCAdrRx _ _ | .mulCRxAdr _ _
  | .shlCAdrRx _ _ | .shlCRxAdr _ _ | .shrCAdrRx _ _ | .shrCRxAdr _ _ | .macCAdrRx _ _ | .macCRxAdr _ _
  | .asrCAdrRx _ _ | .asrCRxAdr _ _ | .slcCAdrRx _ _ | .slcCRxAdr _ _ | .srcCAdrRx _ _ | .srcCRxAdr _ _ => true
  | .movAdrRx _ _ | .movRxAdr _ _ | .movAdrXmn _ _ | .movAdrXhn _ _ | .movXmnAdr _ _ | .movXhnAdr _ _
  | .addAdrRx _ _ | .addRxAdr _ _ | .subAdrRx _ _ | .subRxAdr _ _ | .xchAdrRx _ _ | .xchRxAdr _ _
  | .divAdrRx _ _ | .divRxAdr _ _ | .adcAdrRx _ _ | .adcRxAdr _ _ | .sbcAdrRx _ _ | .sbcRxAdr _ _
  | .mulAdrRx _ _ | .mulRxAdr _ _ | .notAdrRx _ _ | .notRxAdr _ _ | .shlAdrRx _ _ | .shlRxAdr _ _
  | .shrAdrRx _ _ | .shrRxAdr _ _ | .macAdrRx _ _ | .macRxAdr _ _ | .asrAdrRx _ _ | .asrRxAdr _ _
  | .slcAdrRx _ _ | .slcRxAdr _ _ | .srcAdrRx _ _ | .srcRxAdr _ _ | .orAdrRx _ _ | .orRxAdr _ _
  | .andAdrRx _ _ | .andRxAdr _ _ | .xorAdrRx _ _ | .xorRxAdr _ _ | .negAdrRx _ _ | .negRxAdr _ _
  | .movAdrXM _ | .movAdrXH _ | .movAdrSp _ | .movXMAdr _ | .movXHAdr _ | .movSpAdr _ | .jms _ | .jfr _ _
  | .jsv _ | .jfa _ _ | .rfn | .addSpAdr _ | .jmr _ | .jma _ | .subSpAdr _ | .supervisorArea _ | .btc _ _
  | .xbc _ _ | .bts _ _ | .xbs _ _ | .xeqAdrRx _ _ | .xeqRxAdr _ _ | .xsgAdrRx _ _ | .xsgRxAdr _ _
  | .xneAdrRx _ _ | .xneRxAdr _ _ | .xugAdrRx _ _ | .xugRxAdr _ _ | .nop => false

/-- The register an instruction names as its destination in the `rx` field (R95); XCH writes it in both forms (R122). -/
def rxDestination (i : Instr) : Option Reg :=
  match i with
  | .movRxAdr r _ => some r
  | .addRxAdr r _ => some r
  | .addCRxAdr r _ => some r
  | .subRxAdr r _ => some r
  | .subCRxAdr r _ => some r
  | .xchAdrRx _ r => some r
  | .xchRxAdr r _ => some r
  | .divRxAdr r _ => some r
  | .divCRxAdr r _ => some r
  | .adcRxAdr r _ => some r
  | .adcCRxAdr r _ => some r
  | .sbcRxAdr r _ => some r
  | .sbcCRxAdr r _ => some r
  | .mulRxAdr r _ => some r
  | .mulCRxAdr r _ => some r
  | .notRxAdr r _ => some r
  | .shlRxAdr r _ => some r
  | .shlCRxAdr r _ => some r
  | .shrRxAdr r _ => some r
  | .shrCRxAdr r _ => some r
  | .macRxAdr r _ => some r
  | .macCRxAdr r _ => some r
  | .asrRxAdr r _ => some r
  | .asrCRxAdr r _ => some r
  | .slcRxAdr r _ => some r
  | .slcCRxAdr r _ => some r
  | .srcRxAdr r _ => some r
  | .srcCRxAdr r _ => some r
  | .orRxAdr r _ => some r
  | .andRxAdr r _ => some r
  | .xorRxAdr r _ => some r
  | .negRxAdr r _ => some r
  | .movAdrRx _ _ | .movAdrXmn _ _ | .movAdrXhn _ _ | .movXmnAdr _ _ | .movXhnAdr _ _ | .addAdrRx _ _
  | .addCAdrRx _ _ | .subAdrRx _ _ | .subCAdrRx _ _ | .divAdrRx _ _ | .divCAdrRx _ _ | .adcAdrRx _ _
  | .adcCAdrRx _ _ | .sbcAdrRx _ _ | .sbcCAdrRx _ _ | .mulAdrRx _ _ | .mulCAdrRx _ _ | .notAdrRx _ _
  | .shlAdrRx _ _ | .shlCAdrRx _ _ | .shrAdrRx _ _ | .shrCAdrRx _ _ | .macAdrRx _ _ | .macCAdrRx _ _
  | .asrAdrRx _ _ | .asrCAdrRx _ _ | .slcAdrRx _ _ | .slcCAdrRx _ _ | .srcAdrRx _ _ | .srcCAdrRx _ _
  | .orAdrRx _ _ | .andAdrRx _ _ | .xorAdrRx _ _ | .negAdrRx _ _ | .movAdrXM _ | .movAdrXH _
  | .movAdrSp _ | .movXMAdr _ | .movXHAdr _ | .movSpAdr _ | .jms _ | .jfr _ _ | .jsv _ | .jfa _ _ | .rfn
  | .addSpAdr _ | .jmr _ | .jma _ | .subSpAdr _ | .supervisorArea _ | .btc _ _ | .xbc _ _ | .bts _ _
  | .xbs _ _ | .xeqAdrRx _ _ | .xeqRxAdr _ _ | .xsgAdrRx _ _ | .xsgRxAdr _ _ | .xneAdrRx _ _ | .xneRxAdr _ _
  | .xugAdrRx _ _ | .xugRxAdr _ _ | .nop => none

/-- The value of a word as a two's complement number (R175). -/
def signedValue (v : Word) : Int := if v.toNat < 0x8000 then v.toNat else v.toNat - 0x10000

/-! ### The forms of a two-operand operation -/

/-- What an operation computes: `P dv s cin r cv` relates the old destination, the source and the old C to the result
and the carry value. -/
abbrev Computes := Word → Word → Word → Word → Word → Prop

/-- An operation with four forms in matrix row `row` (R95, R96): their encodings, and each form's effect wherever its
operand is usable, with a result and a carry value that `P` holds of. -/
def FourForms (row : BitVec 4) (rx : Reg → Adr → Instr) (ad : Adr → Reg → Instr) (rxC : Reg → Adr → Instr)
    (adC : Adr → Reg → Instr) (P : Computes) : Prop :=
  (∀ r a, FormReads (0b00#2 ++ row ++ 1#1 ++ r.bits) a (rx r a) ∧ FormReads (0b00#2 ++ row ++ 0#1 ++ r.bits) a (ad a r) ∧
    FormReads (0b01#2 ++ row ++ 1#1 ++ r.bits) a (rxC r a) ∧ FormReads (0b01#2 ++ row ++ 0#1 ++ r.bits) a (adC a r)) ∧
  ∀ s r a, Usable a s →
    (∃ v cv, P (s.reg r) (operandValue a s) s.carry v cv ∧
      WritesRegister (rx r a) s a r v none ∧ WritesRegister (rxC r a) s a r v (some cv)) ∧
    ∃ v cv, P (operandValue a s) (s.reg r) s.carry v cv ∧
      WritesOperand true (ad a r) s a v none ∧ WritesOperand true (adC a r) s a v (some cv)

/-- An operation with two forms and no carry write in class `cls`, matrix row `row` (R95): encodings and effects, `P`
relating the old destination, the source and the result; `reads` says whether the old destination is read (R39). -/
def TwoForms (reads : Bool) (cls : BitVec 2) (row : BitVec 4) (rx : Reg → Adr → Instr) (ad : Adr → Reg → Instr)
    (P : Word → Word → Word → Prop) : Prop :=
  (∀ r a, FormReads (cls ++ row ++ 1#1 ++ r.bits) a (rx r a) ∧ FormReads (cls ++ row ++ 0#1 ++ r.bits) a (ad a r)) ∧
  ∀ s r a, Usable a s →
    (∃ v, P (s.reg r) (operandValue a s) v ∧ WritesRegister (rx r a) s a r v none) ∧
    ∃ v, P (operandValue a s) (s.reg r) v ∧ WritesOperand reads (ad a r) s a v none

/-- A compare skip in matrix row `row` of class 10 (R95): encodings and effects, `P` the condition on the first and the
second operand. -/
def CompareForms (row : BitVec 4) (rx : Reg → Adr → Instr) (ad : Adr → Reg → Instr) (P : Word → Word → Bool) : Prop :=
  (∀ r a, FormReads (0b10#2 ++ row ++ 1#1 ++ r.bits) a (rx r a) ∧ FormReads (0b10#2 ++ row ++ 0#1 ++ r.bits) a (ad a r)) ∧
  ∀ s r a, Usable a s →
    Skips (rx r a) s a (P (s.reg r) (operandValue a s)) ∧ Skips (ad a r) s a (P (operandValue a s) (s.reg r))

/-- A call of either kind: `true` JFA, `false` JFR (R186, R187). -/
def callInstr (absolute : Bool) (a : Adr) (ps : List Adr) : Instr :=
  match absolute with
  | true => .jfa a ps
  | false => .jfr a ps

/-- A pointer mode of pointer `p` stands in the operand or in the parameter list of an instruction (R12, R90, R91). -/
def UsesPointer (i : Instr) (p : Ptr) : Prop :=
  ∃ a, (a = .ptr p ∨ a = .stackPtr p) ∧
    (operandOf i = some a ∨ ∃ ps, a ∈ ps ∧ (i = .jsv ps ∨ ∃ b c, i = callInstr b c ps))

/-- Where a call jumps (R186, R187). -/
def callTarget (absolute : Bool) (a : Adr) (s : State) : Word :=
  match absolute with
  | true => s.toPc (operandValue a s)
  | false => s.toPc (s.pc + operandValue a s)

/-- The state a parameter leaves, resolved with the caller's BP, read, post-incremented and pushed (R185, R186). -/
def pushedParam (callerBp : Word) (p : Adr) (u : State) : State :=
  let o := resolve p callerBp u
  { (o.postInc (o.afterRead u)).writeWord .stack u.tos (o.read u) with sp := u.sp + 1 }

/-- The state with SP as an absolute stack address in place of a count from BP, the same first free word (R21, D6). -/
def absoluteSp (s : State) : State := { s with sp := s.tos, params := { s.params with spRelative := false } }

end Sys2Proof.Machine
end

