-- ==== Sys2Proof/Certificates/Slice0/Obligations.lean ====
section
/-! DEFINITION. The statements for the provers. What they all share rests on choices the spec marks as its own: the
numbering of registers and parts (D11, D13, log 18), C as the carry (D12, log 19), the wrap of address sums (D10,
log 17), a destination that is an immediate (D19, log 22), how often an operand is read (D16, log 30), which only the
devices see, and devices as the list of their accesses (log 34). -/

open Sys2Proof Sys2Proof.Machine

/-- Decode and encode agree, whatever words follow (R60 to R62, R65, R71, R185). -/
def Obligations.DecodeInvertsEncode : Prop :=
  ∀ (i : Instr) (rest : List Word), i.wf = true → decode (encode i ++ rest) = .ok (i, rest)

/-- The mask and match pairs of R65 are disjoint and total. Derived: the table itself is the content of `opcodeTable`. -/
def Obligations.EveryFirstWordSelectsOneRow : Prop :=
  opcodeTable.length = 95 ∧
    ∀ w : Word, ∃ row, opcodeTable.filter (fun x => x.selects w) = [row] ∧ findRow w = some row

/-- No illegal encoding exists (R67), and a step fetches enough words for any instruction with its parameters (R63, R185). -/
def Obligations.EnoughWordsDecode : Prop :=
  ∀ ws : List Word, maxInstrWords ≤ ws.length → ∃ i rest, decode ws = .ok (i, rest) ∧ i.wf = true

/-- The ignored bits of R64, row by row with mask, match and dashed bits (R54 to R56, R59), of a second word (R62) and of a parameter word (R60). Derived: what an assembler writes there is D18 (log 29). -/
def Obligations.SpareBitsAreIgnored : Prop :=
  (∀ row ∈ [((0xFEC0 : Word), (0x8000 : Word), (0x0100 : Word)), (0xFEC0, 0x8040, 0x0100), (0xFE80, 0x8080, 0x0140),
        (0xFEC0, 0x8200, 0x0100), (0xFEC0, 0x8240, 0x0100), (0xFE80, 0x8280, 0x0140), (0xFF80, 0x8880, 0x003F),
        (0xFF80, 0x8980, 0x007F), (0xFE00, 0x8A00, 0x01C0), (0xFF00, 0x8C00, 0x00C0), (0xFF00, 0x8D00, 0x00C0),
        (0xFE00, 0x8E00, 0x01C0), (0xC000, 0xC000, 0x3FFF)],
      ∀ (w x : Word) (rest : List Word), w &&& row.1 = row.2.1 →
        decode ((w ^^^ (x &&& row.2.2)) :: rest) = decode (w :: rest)) ∧
    (∀ (f : BitVec 6) (w x : Word) (rest : List Word), f.extractLsb' 4 2 = 0b10#2 →
      decodeAdr f ((w ^^^ (x &&& 0xC000)) :: rest) = decodeAdr f (w :: rest)) ∧
    (∀ (n : Nat) (w x : Word) (rest : List Word),
      decodeParams n ((w ^^^ (x &&& 0xFF80)) :: rest) = match n with
        | 0 => .ok ([], (w ^^^ (x &&& 0xFF80)) :: rest)
        | m + 1 => decodeParams (m + 1) (w :: rest)) ∧
    ∀ (x y : BitVec 12) (s : State), exec (.supervisorArea x) s = exec (.supervisorArea y) s

/-- The length L of R63, decided by the first word alone (R50, R61). -/
def Obligations.SecondWordOnlyWhereTheModeNeedsIt : Prop :=
  ∀ (w : Word) (ws rest : List Word) (i : Instr), decode (w :: ws) = .ok (i, rest) → (∀ ps, i ≠ .jsv ps) →
      (∀ b a ps, i ≠ callInstr b a ps) →
      ws.length = rest.length + if (operandOf i).isSome ∧ w.extractLsb' 4 2 = 0b10#2 then 1 else 0

/-- The limit of sixteen parameters (R185), for JFR, JFA and JSV. -/
def Obligations.SixteenthParameterEndsTheList : Prop :=
  ∀ (a p : Adr) (ps : List Adr) (last : Bool) (rest : List Word), ps.length = 15 →
      decode (encodeWith 0b1000100000#10 a ++ (ps.flatMap (encodeParam false) ++ (encodeParam last p ++ rest))) =
        .ok (.jfr a (ps ++ [p]), rest) ∧
      decode (encodeWith 0b1000100100#10 a ++ (ps.flatMap (encodeParam false) ++ (encodeParam last p ++ rest))) =
        .ok (.jfa a (ps ++ [p]), rest) ∧
      decode (0x8880 :: (ps.flatMap (encodeParam false) ++ (encodeParam last p ++ rest))) =
        .ok (.jsv (ps ++ [p]), rest)

/-- Words printed in the spec, bit by bit, read as the instructions they stand for. -/
def Obligations.KnownWordsDecode : Prop :=
  decode [0x8820, 0xC040, 0xC00A, 0xC028, 0xC014, 0xC078] =
        .ok (.jfr (.imm16 0x0040) [.imm4 10, .data16 0x0014, .ptr .x0], []) ∧
    decode [0x8221, 0xC321] = .ok (.movXMAdr (.imm16 0x4321), []) ∧
    decode [0x0A31] = .ok (.addRxAdr .a (.reg .b), []) ∧
    decode [0x10D2] = .ok (.xchAdrRx (.stack4 2) .d, []) ∧
    decode [0x5230] = .ok (.xorRxAdr .a (.reg .a), []) ∧
    decode [0x7E0C] = .ok (.srcCRxAdr .a (.imm4 12), []) ∧
    decode [0xA3F0] = .ok (.btc (.reg .a) 15, []) ∧
    decode [0xB631] = .ok (.xsgRxAdr .a (.reg .b), []) ∧
    decode [0x87FD] = .ok (.jms (-3), []) ∧
    decode [0x8980] = .ok (.rfn, []) ∧
    decode [0xD234] = .ok (.nop, [])

/-- One step executes one instruction (R80); moving past its words is part of exec. -/
def Obligations.StepRunsDecodedInstruction : Prop :=
  ∀ (s : State) (i : Instr) (rest : List Word), s.mode = .user → decode s.fetch = .ok (i, rest) →
      step s = exec i s

/-- From the words in code space to the meaning (R80), whatever follows them: only the words of the instruction matter (R50, R185). -/
def Obligations.StepRunsEncodedWords : Prop :=
  ∀ (s : State) (i : Instr), s.mode = .user → i.wf = true →
      s.codeWords (encode i).length s.pc = encode i → step s = exec i s

/-- Every word is one of the rows (R65, R67) and every row has a meaning. -/
def Obligations.StepNeverFindsUndecodableWords : Prop :=
  ∀ s : State, step s ≠ .refused .undecodable ∧ ∀ m, step s ≠ .refused (.notModelled m)

/-- The outcome of `KERNEL` (R189, R203): the form of the reply is log 11, the emptied supervisor stack log 12, code and parameters out of its reach log 14, its device accesses log 34, the end without a state log 35. -/
def Obligations.SupervisorStepAsksTheKernel : Prop :=
  (∀ s : State, s.mode = .supervisor → step s = match s.kernelReply with
        | .terminate => .fault (.terminated .kernelExit)
        | .resume r => .next (s.resumeUser r)) ∧
    (∀ s : State, s.params.kernel = .platform → s.kernelReply = Config.kernel s s.supStack) ∧
    (∀ s : State, s.params.kernel = .resumesAtOnce → ∃ r, s.kernelReply = .resume r ∧
      s.resumeUser r = { s with pc := s.toPc s.pc, mode := .user, supStack := [] }) ∧
    (∀ (s : State) (r : KernelResume), (s.resumeUser r).mode = .user ∧ (s.resumeUser r).regs = r.regs ∧
      (s.resumeUser r).pc = s.toPc r.pc ∧ (s.resumeUser r).xm = r.xm ∧ (s.resumeUser r).xh = r.xh ∧
      (s.resumeUser r).sp = r.sp ∧ (s.resumeUser r).bp = r.bp ∧
      (s.resumeUser r).data = s.data.writeAll r.dataWrites ∧ (s.resumeUser r).stack = s.stack.writeAll r.stackWrites ∧
      (s.resumeUser r).devices = r.deviceAccesses ++ s.devices ∧ (s.resumeUser r).supStack = [] ∧
      (s.resumeUser r).code = s.code ∧ (s.resumeUser r).params = s.params) ∧
    ∀ s t : State, step s = .next t → t.mode = .user

/-- `pc` a code address (R15, R16), at most sixteen words on the supervisor stack (R33, R185). The model's own choices: memories as canonical lists (log 1), the supervisor stack empty in user mode (log 12). -/
def Obligations.StepKeepsInvariant : Prop :=
  ∀ s t : State, Inv s → step s = .next t → Inv t

/-- The start of the invariant. The values at reset are the model's choice (log 3, 4, 5, 12), the canonical lists its form (log 1); the spec gives none (R26, R220). -/
def Obligations.ResetMeetsInvariant : Prop :=
  Inv State.reset

/-- Code is the fixed parameter `CODE` (R34, R44; the spec's decision D2, log 7), the parameters are fixed (R27). -/
def Obligations.StepKeepsCodeAndParameters : Prop :=
  ∀ s t : State, step s = .next t → t.code = s.code ∧ t.params = s.params

/-- The frame of the general registers, C among them (R14, R17, R92, R96). -/
def Obligations.RegistersChangeOnlyWhereNamed : Prop :=
  (∀ (i : Instr) (s t : State), exec i s = .next t → ∀ q, t.reg q ≠ s.reg q →
      rxDestination i = some q ∨ storesTo i = some (.reg q) ∨ (carryForm i = true ∧ q = .c) ∨
        (∃ p, q = ptrReg p ∧ UsesPointer i p) ∨ ∃ ps, i = .jsv ps) ∧
    ∀ (ps : List Adr) (s u : State), supervisorCall ps s = .next u → ∀ q, u.reg q ≠ s.reg q →
      ∃ p, q = ptrReg p ∧ UsesPointer (.jsv ps) p

/-- The frame of the special registers (R18, R19, R21), the mode (R23, R200) and the supervisor stack, emptied at the resumption by the model's choice (log 12). -/
def Obligations.SpecialRegistersChangeOnlyByTheirInstructions : Prop :=
  (∀ (i : Instr) (s t : State), exec i s = .next t → (∀ ps, i ≠ .jsv ps) →
      (t.xm ≠ s.xm → (∃ a, i = .movXMAdr a) ∨ ∃ n a, i = .movXmnAdr n a) ∧
      (t.xh ≠ s.xh → (∃ a, i = .movXHAdr a) ∨ (∃ n a, i = .movXhnAdr n a) ∨ ∃ p, UsesPointer i p) ∧
      (t.sp ≠ s.sp → (∃ a, i = .movSpAdr a) ∨ (∃ a, i = .addSpAdr a) ∨ (∃ a, i = .subSpAdr a) ∨
        (∃ b a ps, i = callInstr b a ps) ∨ i = .rfn) ∧
      t.mode = s.mode ∧ t.supStack = s.supStack) ∧
    (∀ (ps : List Adr) (s t : State), exec (.jsv ps) s = .next t → t.mode = .user ∧ t.supStack = []) ∧
    ∀ (ps : List Adr) (s u : State), supervisorCall ps s = .next u →
      u.xm = s.xm ∧ u.sp = s.sp ∧ (u.xh ≠ s.xh → ∃ p, UsesPointer (.jsv ps) p)

/-- A whole-machine promise of R22, JSV's kernel apart (R189, log 11). -/
def Obligations.BasePointerChangesOnlyByCallsAndReturn : Prop :=
  (∀ (i : Instr) (s t : State), exec i s = .next t → t.bp ≠ s.bp →
      (∃ b a ps, i = callInstr b a ps) ∨ i = .rfn ∨ ∃ ps, i = .jsv ps) ∧
    ∀ (ps : List Adr) (s u : State), supervisorCall ps s = .next u → u.bp = s.bp

/-- The frame of memory: the stored word is the operand as phase 1 resolves it (R37, R81, R94), a call writes nothing but the frame (R184, R194). -/
def Obligations.MemoryChangesOnlyWhereStored : Prop :=
  (∀ (i : Instr) (s t : State), exec i s = .next t → ∀ k x, t.readWord k x ≠ s.readWord k x →
      (∃ a f, storesTo i = some a ∧ (operand a s).loc = .mem k x f) ∨
      (k = .stack ∧ ∃ b a ps, i = callInstr b a ps ∧ ∃ j, j < ps.length + 2 ∧ x = s.tos + BitVec.ofNat 16 j) ∨
      ∃ ps, i = .jsv ps) ∧
    ∀ (ps : List Adr) (s u : State), supervisorCall ps s = .next u → ∀ k x, u.readWord k x = s.readWord k x

/-- The program counter after an instruction that is no jump, call, return or skip (R16, R98), against the length of its encoding (R63). Derived: the wrap is D10 (log 17). -/
def Obligations.WritingInstructionsAdvancePastTheirWords : Prop :=
  ∀ (i : Instr) (s t : State), exec i s = .next t → (rxDestination i).isSome = true ∨ (storesTo i).isSome = true →
      t.pc = s.toPc (s.pc + BitVec.ofNat 16 (encode i).length)

/-- The one exception and its cause (R201, R202). Derived: that the trap is precise and terminal is D27 (R203, log 15), that an access outside the map is a fault is D17 (R41, log 16), that the kernel's `Terminate` leaves no state is log 35. -/
def Obligations.SupervisorTrapExactlyInSupervisorArea : Prop :=
  (∀ s : State, step s = .fault (.terminated .supervisorTrap) ↔ s.mode = .user ∧ s.codeWord s.pc &&& 0xF000 = 0x9000) ∧
    ∀ (s : State) (f : Fault), s.mode = .user → step s = .fault f →
      f = .terminated .supervisorTrap ∨ (f = .terminated .kernelExit ∧ s.codeWord s.pc &&& 0xFF80 = 0x8880) ∨
        ∃ sp a, f = .unmapped sp a ∧ s.kindAt sp a = none

/-- The stop of the Supervisor area (R190, R201, R203); the refusal in supervisor mode is the model's choice (I4, log 15). -/
def Obligations.SupervisorAreaStops : Prop :=
  ∀ (bits : BitVec 12) (s : State),
      (s.mode = .user → exec (.supervisorArea bits) s = .fault (.terminated .supervisorTrap)) ∧
      (s.mode = .supervisor → exec (.supervisorArea bits) s = .refused .supervisorInstruction)

/-- No other instruction raises an exception (R202); with every address there every access is defined (R39, R41). What a device answers is log 34, the kernel's `Terminate` as an end without a state log 35. -/
def Obligations.InstructionsCompleteOnPlainMemory : Prop :=
  (∀ (i : Instr) (s : State), AllMapped s → (∀ bits, i ≠ .supervisorArea bits) →
      ((∃ ps, i = .jsv ps) → s.params.kernel = .resumesAtOnce) → ∃ t, exec i s = .next t) ∧
    ∀ (ps : List Adr) (s : State), AllMapped s → ∃ u, supervisorCall ps s = .next u ∧
      ((u.kernelReply = .terminate ∧ exec (.jsv ps) s = .fault (.terminated .kernelExit)) ∨
        ∃ r, u.kernelReply = .resume r ∧ exec (.jsv ps) s = .next (u.resumeUser r))

/-- Progress: nothing but the Supervisor area, a bad address and the kernel stops user mode (R202, R203, R67, R41). The kernel's `Terminate` as an end without a state is log 35. -/
def Obligations.StepsGoOnOnPlainMemory : Prop :=
  ∀ s : State, AllMapped s → s.mode = .user → s.codeWord s.pc &&& 0xF000 ≠ 0x9000 →
      SafeStep s ∨ (s.codeWord s.pc &&& 0xFF80 = 0x8880 ∧ s.params.kernel = .platform ∧
        step s = .fault (.terminated .kernelExit))

/-- No step is defined outside the maps (R41), for every word an instruction reaches: its operand, a call's frame and parameters (R184, R185), a supervisor call's parameters (R189), the two words of RFN (R188). Derived: being stuck is D17 and the fault as its form the model's choice (log 16), the two words of RFN are D22 (log 21), the order of the parameters is D25 (log 25), TOS with SP from BP D6 (log 26). -/
def Obligations.OperandOutsideTheMapStops : Prop :=
  (∀ (i : Instr) (s : State) (a : Adr) (sp : Space) (x : Word) (f : Option BitField),
      operandOf i = some a → (operand a s).loc = .mem sp x f → s.isMapped sp x = false →
      exec i s = .fault (.unmapped sp x)) ∧
    (∀ (s : State) (b : Bool) (a : Adr) (ps : List Adr), Usable a s →
      (s.isMapped .stack s.tos = false → exec (callInstr b a ps) s = .fault (.unmapped .stack s.tos)) ∧
      (s.isMapped .stack s.tos = true → s.isMapped .stack (s.tos + 1) = false →
        exec (callInstr b a ps) s = .fault (.unmapped .stack (s.tos + 1)))) ∧
    (∀ (s u : State) (b : Bool) (a p : Adr) (pre post : List Adr), exec (callInstr b a pre) s = .next u →
      (∀ sp x f, (resolve p s.bp u).loc = .mem sp x f → u.isMapped sp x = false →
        exec (callInstr b a (pre ++ p :: post)) s = .fault (.unmapped sp x)) ∧
      ((resolve p s.bp u).usable u = true → u.isMapped .stack u.tos = false →
        exec (callInstr b a (pre ++ p :: post)) s = .fault (.unmapped .stack u.tos))) ∧
    (∀ (s u : State) (p : Adr) (pre post : List Adr) (sp : Space) (x : Word) (f : Option BitField),
      supervisorCall pre s = .next u → (resolve p s.bp u).loc = .mem sp x f → u.isMapped sp x = false →
      exec (.jsv (pre ++ p :: post)) s = .fault (.unmapped sp x)) ∧
    ∀ s : State, (s.isMapped .stack (s.bp - 2) = false → exec .rfn s = .fault (.unmapped .stack (s.bp - 2))) ∧
      (s.isMapped .stack (s.bp - 2) = true → s.isMapped .stack (s.bp - 1) = false →
        exec .rfn s = .fault (.unmapped .stack (s.bp - 1)))

/-- R110 and R111, with the frame. -/
def Obligations.MovMovesRegisterAndOperand : Prop :=
  (∀ r a, FormReads (0b0000001#7 ++ r.bits) a (.movRxAdr r a) ∧ FormReads (0b0000000#7 ++ r.bits) a (.movAdrRx a r)) ∧
    ∀ s r a, Usable a s →
      WritesRegister (.movRxAdr r a) s a r (operandValue a s) none ∧
      WritesOperand false (.movAdrRx a r) s a (s.reg r) none

/-- R112 to R115, with the frame. `part` is the one place where the part numbering of R20 (D13, log 18) stands. -/
def Obligations.MovMovesPointerParts : Prop :=
  (∀ (n : PartNo) (a : Adr), FormReads (0b00000110#8 ++ n.bits) a (.movXmnAdr n a) ∧
        FormReads (0b00000100#8 ++ n.bits) a (.movAdrXmn n a) ∧ FormReads (0b00000111#8 ++ n.bits) a (.movXhnAdr n a) ∧
        FormReads (0b00000101#8 ++ n.bits) a (.movAdrXhn n a)) ∧
    ∀ (s : State) (n : PartNo) (a : Adr), Usable a s →
      (∃ xm, (∀ m, part xm m = if m = n then (operandValue a s).extractLsb' 0 4 else part s.xm m) ∧
        WritesSpecial (.movXmnAdr n a) s a xm (afterPost a s).xh s.sp) ∧
      (∃ xh, (∀ m, part xh m = if m = n then (operandValue a s).extractLsb' 0 4 else part (afterPost a s).xh m) ∧
        WritesSpecial (.movXhnAdr n a) s a s.xm xh s.sp) ∧
      (∃ v : Word, v.toNat = (part s.xm n).toNat ∧ WritesOperand false (.movAdrXmn n a) s a v none) ∧
      ∃ v : Word, v.toNat = (part s.xh n).toNat ∧ WritesOperand false (.movAdrXhn n a) s a v none

/-- R116 to R119, with the frame. -/
def Obligations.MovMovesWholeXmAndXh : Prop :=
  (∀ (x : BitVec 1) (a : Adr), FormReads (0b1000001#7 ++ x ++ 0b00#2) a (.movXMAdr a) ∧
        FormReads (0b1000000#7 ++ x ++ 0b00#2) a (.movAdrXM a) ∧ FormReads (0b1000001#7 ++ x ++ 0b01#2) a (.movXHAdr a) ∧
        FormReads (0b1000000#7 ++ x ++ 0b01#2) a (.movAdrXH a)) ∧
    ∀ (s : State) (a : Adr), Usable a s →
      WritesSpecial (.movXMAdr a) s a (operandValue a s) (afterPost a s).xh s.sp ∧
      WritesSpecial (.movXHAdr a) s a s.xm (operandValue a s) s.sp ∧
      WritesOperand false (.movAdrXM a) s a s.xm none ∧ WritesOperand false (.movAdrXH a) s a s.xh none

/-- R120 and R121, with the frame; what TOS becomes rests on D6 (log 26). -/
def Obligations.MovMovesStackPointer : Prop :=
  (∀ (x y : BitVec 1) (a : Adr), FormReads (0b1000001#7 ++ x ++ 1#1 ++ y) a (.movSpAdr a) ∧
        FormReads (0b1000000#7 ++ x ++ 1#1 ++ y) a (.movAdrSp a)) ∧
    ∀ (s : State) (a : Adr), Usable a s →
      WritesSpecial (.movSpAdr a) s a s.xm (afterPost a s).xh (operandValue a s) ∧
      WritesOperand false (.movAdrSp a) s a s.sp none ∧
      ∀ t, exec (.movSpAdr a) s = .next t →
        t.tos = if s.params.spRelative then s.bp + operandValue a s else operandValue a s

/-- R131 and R134, with the frame. -/
def Obligations.StackPointerAddsAndSubtracts : Prop :=
  (∀ (x : BitVec 3) (a : Adr), FormReads (0b1000101#7 ++ x) a (.addSpAdr a) ∧
        FormReads (0b1000111#7 ++ x) a (.subSpAdr a)) ∧
    ∀ (s : State) (a : Adr), Usable a s →
      (∃ sp : Word, sp.toNat = (s.sp.toNat + (operandValue a s).toNat) % 65536 ∧
        WritesSpecial (.addSpAdr a) s a s.xm (afterPost a s).xh sp) ∧
      ∃ sp : Word, (sp.toNat + (operandValue a s).toNat) % 65536 = s.sp.toNat ∧
        WritesSpecial (.subSpAdr a) s a s.xm (afterPost a s).xh sp

/-- R122, with the frame; the encodings are the matrix's (C1). -/
def Obligations.XchExchangesOperands : Prop :=
  (∀ r a, FormReads (0b0001001#7 ++ r.bits) a (.xchRxAdr r a) ∧ FormReads (0b0001000#7 ++ r.bits) a (.xchAdrRx a r)) ∧
    ∀ s r a, Usable a s → ∃ t, exec (.xchRxAdr r a) s = .next t ∧ exec (.xchAdrRx a r) s = .next t ∧
      Leaves s t
        (fun q => if locReg (operand a s).loc = some q then s.reg r
          else if q = r then operandValue a s else (afterPost a s).reg q)
        s.xm (afterPost a s).xh s.sp s.bp (wordAfter s (operand a s).loc (s.reg r))
        (writeLog s (operand a s).loc (s.reg r) (readLog s (operand a s).loc)) (nextPc s a 0)

/-- R123. -/
def Obligations.XchWithImmediateIsMov : Prop :=
  ∀ (s : State) (r : Reg) (a : Adr) (v : Word), (operand a s).loc = .imm v →
      WritesRegister (.xchRxAdr r a) s a r v none ∧ WritesRegister (.xchAdrRx a r) s a r v none ∧
      exec (.xchRxAdr r a) s = exec (.movRxAdr r a) s ∧ exec (.xchAdrRx a r) s = exec (.movRxAdr r a) s

/-- R130 and R132, with the frame. -/
def Obligations.AddAndAdcSum : Prop :=
  FourForms 0b0010#4 .addRxAdr .addAdrRx .addCRxAdr .addCAdrRx
      (fun dv x _ v cv => v.toNat + 65536 * cv.toNat = dv.toNat + x.toNat) ∧
    FourForms 0b0110#4 .adcRxAdr .adcAdrRx .adcCRxAdr .adcCAdrRx
      (fun dv x cin v cv => v.toNat + 65536 * cv.toNat = dv.toNat + x.toNat + cin.toNat % 2)

/-- R133 and R135, with the frame. -/
def Obligations.SubAndSbcDifference : Prop :=
  FourForms 0b0011#4 .subRxAdr .subAdrRx .subCRxAdr .subCAdrRx
      (fun dv x _ v cv => (cv = 0 ∧ v.toNat + x.toNat = dv.toNat) ∨
        (cv = 0xFFFF ∧ v.toNat + x.toNat = dv.toNat + 65536)) ∧
    FourForms 0b0111#4 .sbcRxAdr .sbcAdrRx .sbcCRxAdr .sbcCAdrRx
      (fun dv x cin v cv => (cv = 0 ∧ v.toNat + x.toNat + cin.toNat % 2 = dv.toNat) ∨
        (cv = 0xFFFF ∧ v.toNat + x.toNat + cin.toNat % 2 = dv.toNat + 65536))

/-- R137 and R138, with the frame. Derived: the high half as an unsigned one is D21 (R142, log 20). -/
def Obligations.MulAndMacProduct : Prop :=
  FourForms 0b1000#4 .mulRxAdr .mulAdrRx .mulCRxAdr .mulCAdrRx
      (fun dv x _ v cv => v.toNat + 65536 * cv.toNat = dv.toNat * x.toNat) ∧
    FourForms 0b1100#4 .macRxAdr .macAdrRx .macCRxAdr .macCAdrRx
      (fun dv x cin v cv => v.toNat + 65536 * cv.toNat = dv.toNat * x.toNat + cin.toNat)

/-- R139 and R143, with the frame. -/
def Obligations.DivQuotientAndRemainder : Prop :=
  FourForms 0b0101#4 .divRxAdr .divAdrRx .divCRxAdr .divCAdrRx
      (fun dv x _ v cv => (x = 0 ∧ v = 0 ∧ cv = 0) ∨
        (x ≠ 0 ∧ dv.toNat = v.toNat * x.toNat + cv.toNat ∧ cv.toNat < x.toNat))

/-- R153 and R140, with the frame. -/
def Obligations.NotAndNegOfTheSource : Prop :=
  TwoForms false 0b00#2 0b1001#4 .notRxAdr .notAdrRx (fun _ x v => v.toNat + x.toNat = 0xFFFF) ∧
    TwoForms false 0b01#2 0b1001#4 .negRxAdr .negAdrRx (fun _ x v => (v.toNat + x.toNat) % 65536 = 0)

/-- R150 to R152, with the frame; XOR's encodings are the matrix's (C2). -/
def Obligations.AndOrXorBitByBit : Prop :=
  TwoForms true 0b01#2 0b0001#4 .andRxAdr .andAdrRx
      (fun dv x v => ∀ k, v.getLsbD k = (dv.getLsbD k && x.getLsbD k)) ∧
    TwoForms true 0b01#2 0b0000#4 .orRxAdr .orAdrRx
      (fun dv x v => ∀ k, v.getLsbD k = (dv.getLsbD k || x.getLsbD k)) ∧
    TwoForms true 0b01#2 0b0100#4 .xorRxAdr .xorAdrRx
      (fun dv x v => ∀ k, v.getLsbD k = (dv.getLsbD k != x.getLsbD k))

/-- R154 and R157, with the frame. -/
def Obligations.LeftShiftsAndCarry : Prop :=
  FourForms 0b1010#4 .shlRxAdr .shlAdrRx .shlCRxAdr .shlCAdrRx
      (fun dv x _ v cv => v.toNat + 65536 * cv.toNat = dv.toNat * 2 ^ (x.toNat % 16)) ∧
    FourForms 0b1110#4 .slcRxAdr .slcAdrRx .slcCRxAdr .slcCAdrRx
      (fun dv x cin v cv => ∃ w : Word, w.toNat + 65536 * cv.toNat = dv.toNat * 2 ^ (x.toNat % 16) ∧ v = w ||| cin)

/-- R155, R156 and R158 (the right shift of C3), with the frame. -/
def Obligations.RightShiftsAndCarry : Prop :=
  FourForms 0b1011#4 .shrRxAdr .shrAdrRx .shrCRxAdr .shrCAdrRx
      (fun dv x _ v cv => 65536 * v.toNat + cv.toNat = dv.toNat * 2 ^ (16 - x.toNat % 16)) ∧
    FourForms 0b1101#4 .asrRxAdr .asrAdrRx .asrCRxAdr .asrCAdrRx
      (fun dv x _ v cv => (∃ q : Word, 65536 * q.toNat + cv.toNat = dv.toNat * 2 ^ (16 - x.toNat % 16)) ∧
        signedValue v * 2 ^ (x.toNat % 16) ≤ signedValue dv ∧
        signedValue dv < (signedValue v + 1) * 2 ^ (x.toNat % 16)) ∧
    FourForms 0b1111#4 .srcRxAdr .srcAdrRx .srcCRxAdr .srcCAdrRx
      (fun dv x cin v cv => ∃ w : Word, 65536 * w.toNat + cv.toNat = dv.toNat * 2 ^ (16 - x.toNat % 16) ∧ v = w ||| cin)

/-- R159 and R160, with the frame. -/
def Obligations.BitsClearedAndSet : Prop :=
  (∀ (b : Nibble) (a : Adr), FormReads (0b101000#6 ++ b) a (.btc a b) ∧ FormReads (0b101010#6 ++ b) a (.bts a b)) ∧
    ∀ (s : State) (a : Adr) (b : Nibble), Usable a s →
      (∃ v : Word, (∀ k, v.getLsbD k = if k = b.toNat then false else (operandValue a s).getLsbD k) ∧
        WritesOperand true (.btc a b) s a v none) ∧
      ∃ v : Word, (∀ k, v.getLsbD k = if k = b.toNat then true else (operandValue a s).getLsbD k) ∧
        WritesOperand true (.bts a b) s a v none

/-- R171 and R172, with the frame. -/
def Obligations.BitTestSkips : Prop :=
  (∀ (b : Nibble) (a : Adr), FormReads (0b101001#6 ++ b) a (.xbc a b) ∧ FormReads (0b101011#6 ++ b) a (.xbs a b)) ∧
    ∀ (s : State) (a : Adr) (b : Nibble), Usable a s →
      Skips (.xbc a b) s a (decide ((operandValue a s).toNat / 2 ^ b.toNat % 2 = 0)) ∧
      Skips (.xbs a b) s a (decide ((operandValue a s).toNat / 2 ^ b.toNat % 2 = 1))

/-- R173 to R176, with the frame. -/
def Obligations.CompareSkips : Prop :=
  CompareForms 0b1100#4 .xeqRxAdr .xeqAdrRx (fun x y => decide (x = y)) ∧
    CompareForms 0b1110#4 .xneRxAdr .xneAdrRx (fun x y => decide (x ≠ y)) ∧
    CompareForms 0b1101#4 .xsgRxAdr .xsgAdrRx (fun x y => decide (signedValue y < signedValue x)) ∧
    CompareForms 0b1111#4 .xugRxAdr .xugAdrRx (fun x y => decide (y.toNat < x.toNat))

/-- R177 and the aliases of R70. Derived: the assembler's mnemonics are no part of the model. -/
def Obligations.LessThanBySwappedOperands : Prop :=
  (∀ s r a, Usable a s →
      (∀ i, FormReads (0b1011010#7 ++ r.bits) a i → Skips i s a (decide (signedValue (s.reg r) < signedValue (operandValue a s)))) ∧
      (∀ i, FormReads (0b1011011#7 ++ r.bits) a i → Skips i s a (decide (signedValue (operandValue a s) < signedValue (s.reg r)))) ∧
      (∀ i, FormReads (0b1011110#7 ++ r.bits) a i → Skips i s a (decide ((s.reg r).toNat < (operandValue a s).toNat))) ∧
      ∀ i, FormReads (0b1011111#7 ++ r.bits) a i → Skips i s a (decide ((operandValue a s).toNat < (s.reg r).toNat))) ∧
    ∀ (s : State) (p q : Reg), exec (.xsgRxAdr p (.reg q)) s = exec (.xsgAdrRx (.reg p) q) s ∧
      exec (.xugRxAdr p (.reg q)) s = exec (.xugAdrRx (.reg p) q) s

/-- R178: the second word of a skipped two-word instruction is a NOP when formed as the encoder forms it (R170, R225). -/
def Obligations.SkippedTwoWordInstructionEndsInNop : Prop :=
  ∀ (s t : State) (i j : Instr) (a : Adr) (w1 w2 : Word), s.mode = .user → Skips i s a true → exec i s = .next t →
      encode j = [w1, w2] → s.codeWords 2 (s.pc + BitVec.ofNat 16 (instrWords a)) = encode j →
      step t = .next { t with pc := s.toPc (s.pc + BitVec.ofNat 16 (instrWords a) + 2) }

/-- R180. -/
def Obligations.NopOnlyAdvances : Prop :=
  ∀ s : State, exec .nop s = .next { s with pc := s.toPc (s.pc + 1) } ∧
      (s.mode = .user → (s.codeWord s.pc).extractLsb' 14 2 = 0b11#2 →
        step s = .next { s with pc := s.toPc (s.pc + 1) })

/-- R181, with the frame. -/
def Obligations.ShortJumpFromItsOwnAddress : Prop :=
  (∀ (off : BitVec 10) (rest : List Word), decode ((0b100001#6 ++ off) :: rest) = .ok (.jms off, rest)) ∧
    ∀ (s : State) (off : BitVec 10), s.params.wf → ∃ p : Word,
      (p.toNat : Int) = ((s.pc.toNat : Int) + off.toInt) % 2 ^ s.params.pcw ∧ exec (.jms off) s = .next { s with pc := p }

/-- R182 and R183, with the frame. -/
def Obligations.JumpsGoToTheirTargets : Prop :=
  (∀ (x : BitVec 2) (a : Adr), FormReads (0b10001100#8 ++ x) a (.jmr a) ∧ FormReads (0b10001101#8 ++ x) a (.jma a)) ∧
    ∀ (s : State) (a : Adr), s.params.wf → Usable a s →
      (∃ p : Word, p.toNat = (s.pc.toNat + (operandValue a s).toNat) % 2 ^ s.params.pcw ∧ JumpsTo (.jmr a) s a p) ∧
      ∃ p : Word, p.toNat = (operandValue a s).toNat % 2 ^ s.params.pcw ∧ JumpsTo (.jma a) s a p

/-- R186 and R187 for an empty parameter list, with the frame. Derived: that e = 1 means no parameters is D24 (log 23), the rule orders its effects by inference and leans on D6 (log 26). -/
def Obligations.CallEntersFrame : Prop :=
  (∀ a, FormReads 0b1000100001#10 a (.jfr a []) ∧ FormReads 0b1000100101#10 a (.jfa a [])) ∧
    ∀ (s : State) (absolute : Bool) (a : Adr), Usable a s → s.isMapped .stack s.tos = true →
      s.isMapped .stack (s.tos + 1) = true → ∃ t, exec (callInstr absolute a []) s = .next t ∧
        Leaves s t (afterPost a s).reg s.xm (afterPost a s).xh (if s.params.spRelative then 0 else s.tos + 2) (s.tos + 2)
          (fun k x => if k = .stack ∧ x = s.tos then nextPc s a 0
            else if k = .stack ∧ x = s.tos + 1 then s.bp else s.readWord k x)
          (readLog s (operand a s).loc) (callTarget absolute a s)

/-- The parameter list of R185, one parameter at a time. Derived: D25 and D20 (log 25, log 24). -/
def Obligations.CallPushesEachParameter : Prop :=
  ∀ (s u : State) (absolute : Bool) (a p : Adr) (ps : List Adr), ps.length < 16 →
      exec (callInstr absolute a ps) s = .next u → (resolve p s.bp u).usable u = true → u.isMapped .stack u.tos = true →
      exec (callInstr absolute a (ps ++ [p])) s = .next (pushedParam s.bp p u)

/-- The diagram of R184, after R185, R186 and R187. Derived: the order of the parameters is D25 (log 25), the caller's BP in a parameter of the value mode is D20 (log 24), SP from BP is D6 (log 26). -/
def Obligations.CallLeavesTheFrameLayout : Prop :=
  ∀ (s : State) (absolute : Bool) (a : Adr) (ps : List Adr), AllMapped s → ps.length ≤ 16 →
      ∃ t, exec (callInstr absolute a ps) s = .next t ∧ t.pc = callTarget absolute a s ∧ t.bp = s.tos + 2 ∧
        t.readWord .stack (t.bp - 2) = nextPc s a 0 ∧ t.readWord .stack (t.bp - 1) = s.bp ∧
        (∀ pre p post, ps = pre ++ p :: post → ∃ u, exec (callInstr absolute a pre) s = .next u ∧
          t.readWord .stack (t.bp + BitVec.ofNat 16 pre.length) = (resolve p s.bp u).read u) ∧
        t.tos = t.bp + BitVec.ofNat 16 ps.length ∧ (s.params.spRelative = true → t.sp = BitVec.ofNat 16 ps.length) ∧
        (∀ x, t.readWord .data x = s.readWord .data x) ∧
        (∀ x, (∀ j, j < ps.length + 2 → x ≠ s.tos + BitVec.ofNat 16 j) → t.readWord .stack x = s.readWord .stack x) ∧
        t.reg .a = s.reg .a ∧ t.reg .b = s.reg .b ∧ t.reg .c = s.reg .c ∧ t.reg .d = s.reg .d ∧ t.xm = s.xm ∧
        (AllRam s → t.devices = s.devices) ∧
        t.mode = s.mode ∧ t.supStack = s.supStack ∧ t.code = s.code ∧ t.params = s.params

/-- R188, with the frame. Derived: the whole of RFN is D22 (log 21). -/
def Obligations.ReturnRestoresTheFrame : Prop :=
  (∀ (x : BitVec 7) (rest : List Word), decode ((0b100010011#9 ++ x) :: rest) = .ok (.rfn, rest)) ∧
    ∀ s : State, s.isMapped .stack (s.bp - 2) = true → s.isMapped .stack (s.bp - 1) = true → ∃ t, exec .rfn s = .next t ∧
      t.tos = s.bp - 2 ∧
      Leaves s t s.reg s.xm s.xh
        (if s.params.spRelative then s.bp - 2 - s.readWord .stack (s.bp - 1) else s.bp - 2)
        (s.readWord .stack (s.bp - 1)) s.readWord s.devices (s.toPc (s.readWord .stack (s.bp - 2)))

/-- R188: after a return the caller's BP and TOS are what they were before the call (R184, R186, R187), and pc is at the first parameter word (R191). Derived: D22 (log 21). -/
def Obligations.CallThenReturnRestoresCaller : Prop :=
  ∀ (s t u : State) (absolute : Bool) (a : Adr) (ps : List Adr), AllMapped s → ps.length ≤ 16 →
      exec (callInstr absolute a ps) s = .next t → u.bp = t.bp → u.params = t.params →
      u.readWord .stack (t.bp - 2) = t.readWord .stack (t.bp - 2) →
      u.readWord .stack (t.bp - 1) = t.readWord .stack (t.bp - 1) →
      ∃ v, exec .rfn u = .next v ∧ v.bp = s.bp ∧ v.sp = s.sp ∧ v.tos = s.tos ∧ v.pc = nextPc s a 0 ∧
        v.devices = u.devices ∧
        (∀ q, v.reg q = u.reg q) ∧ ∀ k x, v.readWord k x = u.readWord k x

/-- R189. Derived: e = 1 as no parameters is D24 (log 23), pc + 1 is D23 (log 13), the order D25 (log 25), the list in place of what stood on the supervisor stack log 12, the kernel's reply log 11, the end without a state at `Terminate` log 35. -/
def Obligations.SupervisorCallCollectsParameters : Prop :=
  (∀ (x : BitVec 6) (rest : List Word), decode ((0b1000100011#10 ++ x) :: rest) = .ok (.jsv [], rest)) ∧
    (∀ s : State, supervisorCall [] s =
      .next { s with pc := s.toPc (s.pc + 1), mode := .supervisor, supStack := [] }) ∧
    (∀ (s u : State) (p : Adr) (ps : List Adr), ps.length < 16 → supervisorCall ps s = .next u →
      (resolve p s.bp u).usable u = true →
      supervisorCall (ps ++ [p]) s = .next { (resolve p s.bp u).postInc ((resolve p s.bp u).afterRead u) with
        supStack := u.supStack ++ [(resolve p s.bp u).read u] }) ∧
    (∀ (s : State) (ps : List Adr), AllMapped s → ∃ u, supervisorCall ps s = .next u ∧
      u.mode = .supervisor ∧ u.pc = s.toPc (s.pc + 1) ∧ u.supStack.length = ps.length ∧ u.xm = s.xm ∧ u.sp = s.sp ∧
      u.bp = s.bp ∧ u.data = s.data ∧ u.stack = s.stack ∧ u.code = s.code ∧ u.params = s.params) ∧
    ∀ (s u : State) (ps : List Adr), supervisorCall ps s = .next u →
      (exec (.jsv ps) s = match u.kernelReply with
        | .terminate => .fault (.terminated .kernelExit)
        | .resume r => .next (u.resumeUser r)) ∧
      (s.params.kernel = .resumesAtOnce → exec (.jsv ps) s = .next { u with mode := .user, supStack := [] })

/-- The multi-word shifts of R162, through R154, R155, R157, R158. -/
def Obligations.TwoWordShiftsThroughCarry : Prop :=
  ∀ (s : State) (lo hi : Reg) (n : Nibble), lo ≠ hi → lo ≠ .c → hi ≠ .c →
      (∃ t u, exec (.shlCRxAdr lo (.imm4 n)) s = .next t ∧ exec (.slcCRxAdr hi (.imm4 n)) t = .next u ∧
        (u.reg lo).toNat + 65536 * (u.reg hi).toNat + 65536 * 65536 * u.carry.toNat =
          ((s.reg lo).toNat + 65536 * (s.reg hi).toNat) * 2 ^ n.toNat) ∧
      ∃ t u, exec (.shrCRxAdr hi (.imm4 n)) s = .next t ∧ exec (.srcCRxAdr lo (.imm4 n)) t = .next u ∧
        65536 * ((u.reg lo).toNat + 65536 * (u.reg hi).toNat) + u.carry.toNat =
          ((s.reg lo).toNat + 65536 * (s.reg hi).toNat) * 2 ^ (16 - n.toNat)

/-- The carry and the borrow of R141 carry a two-word sum and difference (R130, R132, R133, R135). -/
def Obligations.TwoWordSumsThroughCarry : Prop :=
  ∀ (s : State) (lo hi x y : Reg), lo ≠ hi → lo ≠ .c → hi ≠ .c → y ≠ .c → y ≠ lo →
      (∃ t u, exec (.addCRxAdr lo (.reg x)) s = .next t ∧ exec (.adcCRxAdr hi (.reg y)) t = .next u ∧
        (u.reg lo).toNat + 65536 * (u.reg hi).toNat + 65536 * 65536 * u.carry.toNat =
          (s.reg lo).toNat + 65536 * (s.reg hi).toNat + ((s.reg x).toNat + 65536 * (s.reg y).toNat)) ∧
      ∃ t u, exec (.subCRxAdr lo (.reg x)) s = .next t ∧ exec (.sbcCRxAdr hi (.reg y)) t = .next u ∧
        ((u.carry = 0 ∧ (u.reg lo).toNat + 65536 * (u.reg hi).toNat + ((s.reg x).toNat + 65536 * (s.reg y).toNat) =
            (s.reg lo).toNat + 65536 * (s.reg hi).toNat) ∨
          (u.carry = 0xFFFF ∧
            (u.reg lo).toNat + 65536 * (u.reg hi).toNat + ((s.reg x).toNat + 65536 * (s.reg y).toNat) =
              (s.reg lo).toNat + 65536 * (s.reg hi).toNat + 65536 * 65536))

/-- The chain R138 names, with the unsigned reading of D21 (R142, log 20). -/
def Obligations.TwoWordProductThroughCarry : Prop :=
  ∀ (s : State) (lo hi m : Reg), lo ≠ hi → lo ≠ .c → hi ≠ .c → m ≠ .c → m ≠ lo →
      ∃ t u, exec (.mulCRxAdr lo (.reg m)) s = .next t ∧ exec (.macCRxAdr hi (.reg m)) t = .next u ∧
        (u.reg lo).toNat + 65536 * (u.reg hi).toNat + 65536 * 65536 * u.carry.toNat =
          ((s.reg lo).toNat + 65536 * (s.reg hi).toNat) * (s.reg m).toNat

/-- The two instances of R92, in the modes of R90 and R91. Derived: they are D5's (log 6). -/
def Obligations.PointerModeInstances : Prop :=
  ∀ (s : State) (p : Ptr) (a : Adr), a = .ptr p ∨ a = .stackPtr p →
      (s.params.ptrMode ≠ .platform →
        (operand a s).loc = (if a = .ptr p then .mem .data (s.reg (ptrReg p)) none
          else .mem .stack (s.bp + s.reg (ptrReg p)) none)) ∧
      (s.params.ptrMode = .plain → afterPost a s = s) ∧
      (s.params.ptrMode = .postInc1 → afterPost a s = s.setReg (ptrReg p) (s.reg (ptrReg p) + 1))

/-- The order of R81 where targets clash (R97, R226), for every `PTRMODE`. -/
def Obligations.ClashesFavourTheLaterPhase : Prop :=
  ∀ (s : State) (p : Ptr), Usable (.ptr p) s →
      (∃ t, exec (.movRxAdr (ptrReg p) (.ptr p)) s = .next t ∧ t.reg (ptrReg p) = operandValue (.ptr p) s) ∧
      (∃ t, exec (.movAdrRx (.ptr p) (ptrReg p)) s = .next t ∧
        t.reg (ptrReg p) = (ptrAccess s .data p).ptr' ∧
        ((ptrAccess s .data p).field = none → s.isDevice .data (ptrAccess s .data p).addr = false →
          t.readWord .data (ptrAccess s .data p).addr = s.reg (ptrReg p))) ∧
      (∃ t, exec (.addCRxAdr .c (.ptr p)) s = .next t ∧
        t.carry = if s.carry.toNat + (operandValue (.ptr p) s).toNat < 65536 then 0 else 1) ∧
      ∃ t, exec (.movXhnAdr (ptrPart p) (.ptr p)) s = .next t ∧
        part t.xh (ptrPart p) = (operandValue (.ptr p) s).extractLsb' 0 4

/-- R121: only MOV SP and MOV adr, SP tell the two readings of SP apart, and a kernel may (R21, R184, R186, R188; D6, log 26). -/
def Obligations.AbsoluteStackPointerSimulates : Prop :=
  (∀ (i : Instr) (s t : State), s.params.spRelative = true → (∀ a, i ≠ .movSpAdr a) → (∀ a, i ≠ .movAdrSp a) →
      (∀ ps, i ≠ .jsv ps) → exec i s = .next t → exec i (absoluteSp s) = .next (absoluteSp t)) ∧
    ∀ (ps : List Adr) (s u : State), s.params.spRelative = true → supervisorCall ps s = .next u →
      supervisorCall ps (absoluteSp s) = .next (absoluteSp u)

/-- The number of reads of R39 for addresses that are devices (R31, R211), and that a store is one write; which value is written, the statements on each instruction's result say. Derived: the counts are D16 (log 30), the device as a function of its accesses is the model's (log 34). -/
def Obligations.DeviceAccessesAreCounted : Prop :=
  (∀ (s : State) (a : Adr) (x : Word) (f : Option BitField), (operand a s).loc = .mem .data x f →
      s.isDevice .data x = true → operandValue a s = match f with
        | none => Config.deviceRead s.devices x
        | some f => fieldGet f (Config.deviceRead s.devices x)) ∧
    (∀ (i : Instr) (s t : State) (a : Adr), operandOf i = some a → (∀ b c ps, i ≠ callInstr b c ps) →
      exec i s = .next t → ∃ v, t.devices = match storesTo i with
        | none => readLog s (operand a s).loc
        | some _ => writeLog s (operand a s).loc v
            (if storesWithoutReading i then s.devices else readLog s (operand a s).loc)) ∧
    (∀ (i : Instr) (s t : State), operandOf i = none → (∀ ps, i ≠ .jsv ps) → exec i s = .next t →
      t.devices = s.devices) ∧
    (∀ (b : Bool) (a : Adr) (ps : List Adr) (s t : State), exec (callInstr b a ps) s = .next t →
      ∃ seen, t.devices = seen ++ readLog s (operand a s).loc ∧ seen.length ≤ ps.length ∧
        ∀ x ∈ seen, ∃ y, x = .read y) ∧
    ∀ (ps : List Adr) (s u : State), supervisorCall ps s = .next u →
      ∃ seen, u.devices = seen ++ s.devices ∧ seen.length ≤ ps.length ∧ ∀ x ∈ seen, ∃ y, x = .read y
end

