-- ==== Sys2Proof/Laws/Decode.lean ====
section
/-! SUPPORT. Fields put together and taken apart again, and which row of the opcode table a first word selects. -/

namespace Sys2Proof

@[simp] theorem reg_ofBits_bits (r : Reg) : Reg.ofBits r.bits = r := by cases r <;> rfl
@[simp] theorem ptr_ofBits_bits (p : Ptr) : Ptr.ofBits p.bits = p := by cases p <;> rfl
@[simp] theorem partNo_ofBits_bits (n : PartNo) : PartNo.ofBits n.bits = n := by cases n <;> rfl

/-! ### The fields of a first word whose ten high bits are given -/

theorem adrField_append (hi : BitVec 10) (f : BitVec 6) : adrField (hi ++ f) = f :=
  BitVec.extractLsb'_append_eq_right

theorem rxField_append (x : BitVec 7) (r : Reg) (f : BitVec 6) : rxField ((x ++ r.bits : BitVec 10) ++ f) = r :=
  (congrArg Reg.ofBits ((BitVec.extractLsb'_append_eq_of_le (le_refl 6)).trans
    BitVec.extractLsb'_append_eq_right)).trans (reg_ofBits_bits r)

theorem partField_append (x : BitVec 8) (n : PartNo) (f : BitVec 6) :
    partField ((x ++ n.bits : BitVec 10) ++ f) = n :=
  (congrArg PartNo.ofBits ((BitVec.extractLsb'_append_eq_of_le (le_refl 6)).trans
    BitVec.extractLsb'_append_eq_right)).trans (partNo_ofBits_bits n)

theorem bitField_append (x : BitVec 6) (b : Nibble) (f : BitVec 6) : bitField ((x ++ b : BitVec 10) ++ f) = b :=
  (BitVec.extractLsb'_append_eq_of_le (le_refl 6)).trans BitVec.extractLsb'_append_eq_right

theorem eField_append (x : BitVec 9) (e : Bool) (f : BitVec 6) :
    eField ((x ++ BitVec.ofBool e : BitVec 10) ++ f) = e := by
  refine (BitVec.getLsbD_append (n := 10) (m := 6)).trans ?_
  rw [if_neg (by decide)]
  refine (BitVec.getLsbD_append (n := 9) (m := 1)).trans ?_
  cases e <;> rfl

/-- The two pieces of a 16-bit immediate, joined, are the immediate (R62). -/
theorem joinImm16_split (v : Word) : joinImm16 (v.extractLsb' 14 2) (0b11#2 ++ v.extractLsb' 0 14) = v := by
  have h : (0b11#2 ++ v.extractLsb' 0 14 : BitVec 16).extractLsb' 0 14 = v.extractLsb' 0 14 :=
    BitVec.extractLsb'_append_eq_right
  unfold joinImm16
  rw [h]
  exact (BitVec.extractLsb'_append_extractLsb'_eq_extractLsb' (len₁ := 14) rfl).trans BitVec.extractLsb'_eq_self

/-! ### The addressing mode (R61) -/

theorem adr_low4 (x : BitVec 2) (v : Nibble) : (x ++ v : BitVec 6).extractLsb' 0 4 = v :=
  BitVec.extractLsb'_append_eq_right

theorem adr_low2 (x : BitVec 4) (v : BitVec 2) : (x ++ v : BitVec 6).extractLsb' 0 2 = v :=
  BitVec.extractLsb'_append_eq_right

theorem adr_low3 (x : BitVec 3) (v : BitVec 3) : (x ++ v : BitVec 6).extractLsb' 0 3 = v :=
  BitVec.extractLsb'_append_eq_right

theorem adr_high2 : ∀ (x : BitVec 2) (v : Nibble),
    (x ++ v : BitVec 6).getLsbD 5 = x.getLsbD 1 ∧ (x ++ v : BitVec 6).getLsbD 4 = x.getLsbD 0 := by decide

theorem adr_high4 : ∀ (x : BitVec 4) (v : BitVec 2),
    (x ++ v : BitVec 6).getLsbD 5 = x.getLsbD 3 ∧ (x ++ v : BitVec 6).getLsbD 4 = x.getLsbD 2 ∧
      (x ++ v : BitVec 6).getLsbD 3 = x.getLsbD 1 ∧ (x ++ v : BitVec 6).getLsbD 2 = x.getLsbD 0 := by decide

theorem adr_high3 : ∀ (x : BitVec 3) (v : BitVec 3),
    (x ++ v : BitVec 6).getLsbD 5 = x.getLsbD 2 ∧ (x ++ v : BitVec 6).getLsbD 4 = x.getLsbD 1 ∧
      (x ++ v : BitVec 6).getLsbD 3 = x.getLsbD 0 := by decide

/-- An encoded addressing mode reads back, whatever words follow (R61, R62). -/
theorem decodeAdr_encodeAdr (a : Adr) (rest : List Word) :
    decodeAdr (encodeAdr a).1 ((encodeAdr a).2 ++ rest) = .ok (a, rest) := by
  cases a with
  | imm4 v =>
    obtain ⟨h5, h4⟩ := adr_high2 0b00#2 v
    simp only [encodeAdr, decodeAdr]
    rw [h5, h4]
    exact congrArg (fun x => Except.ok (Adr.imm4 x, rest)) (adr_low4 _ v)
  | stack4 v =>
    obtain ⟨h5, h4⟩ := adr_high2 0b01#2 v
    simp only [encodeAdr, decodeAdr]
    rw [h5, h4]
    exact congrArg (fun x => Except.ok (Adr.stack4 x, rest)) (adr_low4 _ v)
  | imm16 v =>
    obtain ⟨h5, h4, h3, h2⟩ := adr_high4 0b1000#4 (v.extractLsb' 14 2)
    simp only [encodeAdr, decodeAdr]
    rw [h5, h4, h3, h2, adr_low2, List.cons_append]
    exact congrArg (fun x => Except.ok (Adr.imm16 x, rest)) (joinImm16_split v)
  | bpImm16 v =>
    obtain ⟨h5, h4, h3, h2⟩ := adr_high4 0b1001#4 (v.extractLsb' 14 2)
    simp only [encodeAdr, decodeAdr]
    rw [h5, h4, h3, h2, adr_low2, List.cons_append]
    exact congrArg (fun x => Except.ok (Adr.bpImm16 x, rest)) (joinImm16_split v)
  | data16 v =>
    obtain ⟨h5, h4, h3, h2⟩ := adr_high4 0b1010#4 (v.extractLsb' 14 2)
    simp only [encodeAdr, decodeAdr]
    rw [h5, h4, h3, h2, adr_low2, List.cons_append]
    exact congrArg (fun x => Except.ok (Adr.data16 x, rest)) (joinImm16_split v)
  | stack16 v =>
    obtain ⟨h5, h4, h3, h2⟩ := adr_high4 0b1011#4 (v.extractLsb' 14 2)
    simp only [encodeAdr, decodeAdr]
    rw [h5, h4, h3, h2, adr_low2, List.cons_append]
    exact congrArg (fun x => Except.ok (Adr.stack16 x, rest)) (joinImm16_split v)
  | reg r => cases r <;> rfl
  | ptr p => cases p <;> rfl
  | stackPtr p => cases p <;> rfl

/-! ### The row a first word selects (R65) -/

/-- No row looks at the low six bits. -/
theorem opcodeTable_mask_low : ∀ row ∈ opcodeTable, ∀ hi : BitVec 10, ∀ f : BitVec 6,
    (hi ++ f : BitVec 16) &&& row.mask = (hi ++ 0#6 : BitVec 16) &&& row.mask := by
  have h : opcodeTable.all (fun row => row.mask.extractLsb' 0 6 == 0#6) = true := by decide
  intro row hr hi f
  have h : row.mask.extractLsb' 0 6 = 0#6 := by simpa using List.all_eq_true.mp h row hr
  have e : row.mask = (row.mask.extractLsb' 6 10 ++ row.mask.extractLsb' 0 6 : BitVec 16) :=
    ((BitVec.extractLsb'_append_extractLsb'_eq_extractLsb' (len₁ := 6) rfl).trans BitVec.extractLsb'_eq_self).symm
  rw [e, h]
  refine (BitVec.and_append).trans ((BitVec.and_append).trans ?_).symm
  rw [BitVec.and_zero, BitVec.and_zero]

/-- The row a first word selects depends on its ten high bits alone. -/
theorem findRow_append (hi : BitVec 10) (f : BitVec 6) : findRow (hi ++ f) = findRow (hi ++ 0#6) := by
  have key : ∀ l : List OpcodeRow, (∀ row ∈ l, row ∈ opcodeTable) →
      l.find? (fun row => row.selects (hi ++ f)) = l.find? (fun row => row.selects (hi ++ 0#6)) := by
    intro l
    induction l with
    | nil => exact fun _ => rfl
    | cons row rest ih =>
      intro hl
      have hs : row.selects (hi ++ f) = row.selects (hi ++ 0#6) := by
        unfold OpcodeRow.selects
        rw [opcodeTable_mask_low row (hl row List.mem_cons_self) hi f]
      rw [List.find?_cons, List.find?_cons, hs, ih fun r hr => hl r (List.mem_cons_of_mem _ hr)]
  exact key opcodeTable fun _ h => h

/-! ### Words of the encoder read back -/

/-- A first word made of ten high bits that select a row with an operand, and that operand: what it reads as. -/
theorem decode_encodeWith (hi : BitVec 10) (a : Adr) (rest : List Word) (m p : Word) (build : Word → Adr → Instr)
    (h : findRow (hi ++ 0#6) = some ⟨m, p, .adr build⟩) :
    decode (encodeWith hi a ++ rest) = .ok (build (hi ++ (encodeAdr a).1) a, rest) := by
  simp only [encodeWith, List.cons_append, decode, findRow_append, h, RowBuild.finish, adrField_append,
    decodeAdr_encodeAdr]

/-- A first word of a call, with its operand and what follows it. -/
theorem decode_encodeWith_call (hi : BitVec 10) (a : Adr) (rest : List Word) (m p : Word)
    (build : Adr → List Adr → Instr) (h : findRow (hi ++ 0#6) = some ⟨m, p, .call build⟩) :
    decode (encodeWith hi a ++ rest) =
      match decodeParamList (eField (hi ++ (encodeAdr a).1)) rest with
      | .error e => .error e
      | .ok (ps, rest') => .ok (build a ps, rest') := by
  simp only [encodeWith, List.cons_append, decode, findRow_append, h, RowBuild.finish, adrField_append,
    decodeAdr_encodeAdr]
  all_goals rfl

/-- A parameter word reads back: it is the last one iff its `e` bit is set (R60, R185). -/
theorem decodeParams_encodeParam (n : Nat) (last : Bool) (a : Adr) (rest : List Word) :
    decodeParams (n + 1) (encodeParam last a ++ rest) =
      match last with
      | true => .ok ([a], rest)
      | false =>
        match decodeParams n rest with
        | .error e => .error e
        | .ok (as, rest') => .ok (a :: as, rest') := by
  simp only [encodeParam, encodeWith, List.cons_append, decodeParams, adrField_append, decodeAdr_encodeAdr,
    eField_append]
  all_goals rfl

/-! ### How many words -/

theorem encodeWith_length (hi : BitVec 10) (a : Adr) :
    1 ≤ (encodeWith hi a).length ∧ (encodeWith hi a).length ≤ 2 := by
  cases a <;> simp [encodeWith, encodeAdr]

theorem encodeParams_length (ps : List Adr) : (encodeParams ps).length ≤ 2 * ps.length := by
  induction ps with
  | nil => simp [encodeParams]
  | cons a rest ih =>
    cases rest with
    | nil => exact (encodeWith_length _ a).2
    | cons b rest =>
      have := (encodeWith_length (0b110000000#9 ++ BitVec.ofBool false) a).2
      simp only [encodeParams, encodeParam, List.length_append, List.length_cons] at ih ⊢
      omega

end Sys2Proof
end

