-- ==== Sys2Proof/Laws/State.lean ====
section
/-! SUPPORT. One lemma per field per update of State, and the register file's read-after-write laws. -/

namespace Sys2Proof.Machine

@[simp] theorem setReg_regs (s : State) (r : Reg) (v : Word) : (s.setReg r v).regs = s.regs.set r v := rfl
@[simp] theorem setReg_pc (s : State) (r : Reg) (v : Word) : (s.setReg r v).pc = s.pc := rfl
@[simp] theorem setReg_xm (s : State) (r : Reg) (v : Word) : (s.setReg r v).xm = s.xm := rfl
@[simp] theorem setReg_xh (s : State) (r : Reg) (v : Word) : (s.setReg r v).xh = s.xh := rfl
@[simp] theorem setReg_sp (s : State) (r : Reg) (v : Word) : (s.setReg r v).sp = s.sp := rfl
@[simp] theorem setReg_bp (s : State) (r : Reg) (v : Word) : (s.setReg r v).bp = s.bp := rfl
@[simp] theorem setReg_mode (s : State) (r : Reg) (v : Word) : (s.setReg r v).mode = s.mode := rfl
@[simp] theorem setReg_data (s : State) (r : Reg) (v : Word) : (s.setReg r v).data = s.data := rfl
@[simp] theorem setReg_stack (s : State) (r : Reg) (v : Word) : (s.setReg r v).stack = s.stack := rfl
@[simp] theorem setReg_supStack (s : State) (r : Reg) (v : Word) : (s.setReg r v).supStack = s.supStack := rfl
@[simp] theorem setReg_devices (s : State) (r : Reg) (v : Word) : (s.setReg r v).devices = s.devices := rfl
@[simp] theorem setReg_code (s : State) (r : Reg) (v : Word) : (s.setReg r v).code = s.code := rfl
@[simp] theorem setReg_params (s : State) (r : Reg) (v : Word) : (s.setReg r v).params = s.params := rfl

@[simp] theorem setPc_regs (s : State) (v : Word) : (s.setPc v).regs = s.regs := rfl
@[simp] theorem setPc_pc (s : State) (v : Word) : (s.setPc v).pc = s.toPc v := rfl
@[simp] theorem setPc_xm (s : State) (v : Word) : (s.setPc v).xm = s.xm := rfl
@[simp] theorem setPc_xh (s : State) (v : Word) : (s.setPc v).xh = s.xh := rfl
@[simp] theorem setPc_sp (s : State) (v : Word) : (s.setPc v).sp = s.sp := rfl
@[simp] theorem setPc_bp (s : State) (v : Word) : (s.setPc v).bp = s.bp := rfl
@[simp] theorem setPc_mode (s : State) (v : Word) : (s.setPc v).mode = s.mode := rfl
@[simp] theorem setPc_data (s : State) (v : Word) : (s.setPc v).data = s.data := rfl
@[simp] theorem setPc_stack (s : State) (v : Word) : (s.setPc v).stack = s.stack := rfl
@[simp] theorem setPc_supStack (s : State) (v : Word) : (s.setPc v).supStack = s.supStack := rfl
@[simp] theorem setPc_devices (s : State) (v : Word) : (s.setPc v).devices = s.devices := rfl
@[simp] theorem setPc_code (s : State) (v : Word) : (s.setPc v).code = s.code := rfl
@[simp] theorem setPc_params (s : State) (v : Word) : (s.setPc v).params = s.params := rfl

@[simp] theorem advance_regs (s : State) (n : Nat) : (s.advance n).regs = s.regs := rfl
@[simp] theorem advance_pc (s : State) (n : Nat) : (s.advance n).pc = s.toPc (s.pc + BitVec.ofNat 16 n) := rfl
@[simp] theorem advance_xm (s : State) (n : Nat) : (s.advance n).xm = s.xm := rfl
@[simp] theorem advance_xh (s : State) (n : Nat) : (s.advance n).xh = s.xh := rfl
@[simp] theorem advance_sp (s : State) (n : Nat) : (s.advance n).sp = s.sp := rfl
@[simp] theorem advance_bp (s : State) (n : Nat) : (s.advance n).bp = s.bp := rfl
@[simp] theorem advance_mode (s : State) (n : Nat) : (s.advance n).mode = s.mode := rfl
@[simp] theorem advance_data (s : State) (n : Nat) : (s.advance n).data = s.data := rfl
@[simp] theorem advance_stack (s : State) (n : Nat) : (s.advance n).stack = s.stack := rfl
@[simp] theorem advance_supStack (s : State) (n : Nat) : (s.advance n).supStack = s.supStack := rfl
@[simp] theorem advance_devices (s : State) (n : Nat) : (s.advance n).devices = s.devices := rfl
@[simp] theorem advance_code (s : State) (n : Nat) : (s.advance n).code = s.code := rfl
@[simp] theorem advance_params (s : State) (n : Nat) : (s.advance n).params = s.params := rfl

@[simp] theorem writeWord_regs (s : State) (k : Space) (a v : Word) : (s.writeWord k a v).regs = s.regs := by cases k <;> rfl
@[simp] theorem writeWord_pc (s : State) (k : Space) (a v : Word) : (s.writeWord k a v).pc = s.pc := by cases k <;> rfl
@[simp] theorem writeWord_xm (s : State) (k : Space) (a v : Word) : (s.writeWord k a v).xm = s.xm := by cases k <;> rfl
@[simp] theorem writeWord_xh (s : State) (k : Space) (a v : Word) : (s.writeWord k a v).xh = s.xh := by cases k <;> rfl
@[simp] theorem writeWord_sp (s : State) (k : Space) (a v : Word) : (s.writeWord k a v).sp = s.sp := by cases k <;> rfl
@[simp] theorem writeWord_bp (s : State) (k : Space) (a v : Word) : (s.writeWord k a v).bp = s.bp := by cases k <;> rfl
@[simp] theorem writeWord_mode (s : State) (k : Space) (a v : Word) : (s.writeWord k a v).mode = s.mode := by cases k <;> rfl
@[simp] theorem writeWord_supStack (s : State) (k : Space) (a v : Word) : (s.writeWord k a v).supStack = s.supStack := by cases k <;> rfl
@[simp] theorem writeWord_devices (s : State) (k : Space) (a v : Word) : (s.writeWord k a v).devices = s.devices := by cases k <;> rfl
@[simp] theorem writeWord_code (s : State) (k : Space) (a v : Word) : (s.writeWord k a v).code = s.code := by cases k <;> rfl
@[simp] theorem writeWord_params (s : State) (k : Space) (a v : Word) : (s.writeWord k a v).params = s.params := by cases k <;> rfl
@[simp] theorem writeWord_data_data (s : State) (a v : Word) : (s.writeWord .data a v).data = s.data.write a.toNat v := rfl
@[simp] theorem writeWord_data_stack (s : State) (a v : Word) : (s.writeWord .data a v).stack = s.stack := rfl
@[simp] theorem writeWord_stack_data (s : State) (a v : Word) : (s.writeWord .stack a v).data = s.data := rfl
@[simp] theorem writeWord_stack_stack (s : State) (a v : Word) : (s.writeWord .stack a v).stack = s.stack.write a.toNat v := rfl

@[simp] theorem writeCarry_regs (s : State) (b : Bool) (v : Word) : (s.writeCarry b v).regs = if b then s.regs.set .c v else s.regs := by cases b <;> rfl
@[simp] theorem writeCarry_pc (s : State) (b : Bool) (v : Word) : (s.writeCarry b v).pc = s.pc := by cases b <;> rfl
@[simp] theorem writeCarry_xm (s : State) (b : Bool) (v : Word) : (s.writeCarry b v).xm = s.xm := by cases b <;> rfl
@[simp] theorem writeCarry_xh (s : State) (b : Bool) (v : Word) : (s.writeCarry b v).xh = s.xh := by cases b <;> rfl
@[simp] theorem writeCarry_sp (s : State) (b : Bool) (v : Word) : (s.writeCarry b v).sp = s.sp := by cases b <;> rfl
@[simp] theorem writeCarry_bp (s : State) (b : Bool) (v : Word) : (s.writeCarry b v).bp = s.bp := by cases b <;> rfl
@[simp] theorem writeCarry_mode (s : State) (b : Bool) (v : Word) : (s.writeCarry b v).mode = s.mode := by cases b <;> rfl
@[simp] theorem writeCarry_data (s : State) (b : Bool) (v : Word) : (s.writeCarry b v).data = s.data := by cases b <;> rfl
@[simp] theorem writeCarry_stack (s : State) (b : Bool) (v : Word) : (s.writeCarry b v).stack = s.stack := by cases b <;> rfl
@[simp] theorem writeCarry_supStack (s : State) (b : Bool) (v : Word) : (s.writeCarry b v).supStack = s.supStack := by cases b <;> rfl
@[simp] theorem writeCarry_devices (s : State) (b : Bool) (v : Word) : (s.writeCarry b v).devices = s.devices := by cases b <;> rfl
@[simp] theorem writeCarry_code (s : State) (b : Bool) (v : Word) : (s.writeCarry b v).code = s.code := by cases b <;> rfl
@[simp] theorem writeCarry_params (s : State) (b : Bool) (v : Word) : (s.writeCarry b v).params = s.params := by cases b <;> rfl

@[simp] theorem setTos_regs (s : State) (a : Word) : (s.setTos a).regs = s.regs := by unfold State.setTos; cases s.params.spRelative <;> rfl
@[simp] theorem setTos_pc (s : State) (a : Word) : (s.setTos a).pc = s.pc := by unfold State.setTos; cases s.params.spRelative <;> rfl
@[simp] theorem setTos_xm (s : State) (a : Word) : (s.setTos a).xm = s.xm := by unfold State.setTos; cases s.params.spRelative <;> rfl
@[simp] theorem setTos_xh (s : State) (a : Word) : (s.setTos a).xh = s.xh := by unfold State.setTos; cases s.params.spRelative <;> rfl
@[simp] theorem setTos_sp (s : State) (a : Word) : (s.setTos a).sp = if s.params.spRelative then a - s.bp else a := by unfold State.setTos; cases s.params.spRelative <;> rfl
@[simp] theorem setTos_bp (s : State) (a : Word) : (s.setTos a).bp = s.bp := by unfold State.setTos; cases s.params.spRelative <;> rfl
@[simp] theorem setTos_mode (s : State) (a : Word) : (s.setTos a).mode = s.mode := by unfold State.setTos; cases s.params.spRelative <;> rfl
@[simp] theorem setTos_data (s : State) (a : Word) : (s.setTos a).data = s.data := by unfold State.setTos; cases s.params.spRelative <;> rfl
@[simp] theorem setTos_stack (s : State) (a : Word) : (s.setTos a).stack = s.stack := by unfold State.setTos; cases s.params.spRelative <;> rfl
@[simp] theorem setTos_supStack (s : State) (a : Word) : (s.setTos a).supStack = s.supStack := by unfold State.setTos; cases s.params.spRelative <;> rfl
@[simp] theorem setTos_devices (s : State) (a : Word) : (s.setTos a).devices = s.devices := by unfold State.setTos; cases s.params.spRelative <;> rfl
@[simp] theorem setTos_code (s : State) (a : Word) : (s.setTos a).code = s.code := by unfold State.setTos; cases s.params.spRelative <;> rfl
@[simp] theorem setTos_params (s : State) (a : Word) : (s.setTos a).params = s.params := by unfold State.setTos; cases s.params.spRelative <;> rfl

@[simp] theorem enterSupervisor_regs (s : State) (vs : List Word) : (s.enterSupervisor vs).regs = s.regs := rfl
@[simp] theorem enterSupervisor_pc (s : State) (vs : List Word) : (s.enterSupervisor vs).pc = s.toPc (s.pc + 1) := rfl
@[simp] theorem enterSupervisor_xm (s : State) (vs : List Word) : (s.enterSupervisor vs).xm = s.xm := rfl
@[simp] theorem enterSupervisor_xh (s : State) (vs : List Word) : (s.enterSupervisor vs).xh = s.xh := rfl
@[simp] theorem enterSupervisor_sp (s : State) (vs : List Word) : (s.enterSupervisor vs).sp = s.sp := rfl
@[simp] theorem enterSupervisor_bp (s : State) (vs : List Word) : (s.enterSupervisor vs).bp = s.bp := rfl
@[simp] theorem enterSupervisor_mode (s : State) (vs : List Word) : (s.enterSupervisor vs).mode = .supervisor := rfl
@[simp] theorem enterSupervisor_data (s : State) (vs : List Word) : (s.enterSupervisor vs).data = s.data := rfl
@[simp] theorem enterSupervisor_stack (s : State) (vs : List Word) : (s.enterSupervisor vs).stack = s.stack := rfl
@[simp] theorem enterSupervisor_supStack (s : State) (vs : List Word) : (s.enterSupervisor vs).supStack = vs := rfl
@[simp] theorem enterSupervisor_devices (s : State) (vs : List Word) : (s.enterSupervisor vs).devices = s.devices := rfl
@[simp] theorem enterSupervisor_code (s : State) (vs : List Word) : (s.enterSupervisor vs).code = s.code := rfl
@[simp] theorem enterSupervisor_params (s : State) (vs : List Word) : (s.enterSupervisor vs).params = s.params := rfl

@[simp] theorem resumeUser_regs (s : State) (r : KernelResume) : (s.resumeUser r).regs = r.regs := rfl
@[simp] theorem resumeUser_pc (s : State) (r : KernelResume) : (s.resumeUser r).pc = s.toPc r.pc := rfl
@[simp] theorem resumeUser_xm (s : State) (r : KernelResume) : (s.resumeUser r).xm = r.xm := rfl
@[simp] theorem resumeUser_xh (s : State) (r : KernelResume) : (s.resumeUser r).xh = r.xh := rfl
@[simp] theorem resumeUser_sp (s : State) (r : KernelResume) : (s.resumeUser r).sp = r.sp := rfl
@[simp] theorem resumeUser_bp (s : State) (r : KernelResume) : (s.resumeUser r).bp = r.bp := rfl
@[simp] theorem resumeUser_mode (s : State) (r : KernelResume) : (s.resumeUser r).mode = .user := rfl
@[simp] theorem resumeUser_data (s : State) (r : KernelResume) : (s.resumeUser r).data = s.data.writeAll r.dataWrites := rfl
@[simp] theorem resumeUser_stack (s : State) (r : KernelResume) : (s.resumeUser r).stack = s.stack.writeAll r.stackWrites := rfl
@[simp] theorem resumeUser_supStack (s : State) (r : KernelResume) : (s.resumeUser r).supStack = [] := rfl
@[simp] theorem resumeUser_devices (s : State) (r : KernelResume) : (s.resumeUser r).devices = r.deviceAccesses ++ s.devices := rfl
@[simp] theorem resumeUser_code (s : State) (r : KernelResume) : (s.resumeUser r).code = s.code := rfl
@[simp] theorem resumeUser_params (s : State) (r : KernelResume) : (s.resumeUser r).params = s.params := rfl

@[simp] theorem afterLoad_regs (s : State) (k : Space) (a : Word) : (s.afterLoad k a).regs = s.regs := by unfold State.afterLoad; split <;> rfl
@[simp] theorem afterLoad_pc (s : State) (k : Space) (a : Word) : (s.afterLoad k a).pc = s.pc := by unfold State.afterLoad; split <;> rfl
@[simp] theorem afterLoad_xm (s : State) (k : Space) (a : Word) : (s.afterLoad k a).xm = s.xm := by unfold State.afterLoad; split <;> rfl
@[simp] theorem afterLoad_xh (s : State) (k : Space) (a : Word) : (s.afterLoad k a).xh = s.xh := by unfold State.afterLoad; split <;> rfl
@[simp] theorem afterLoad_sp (s : State) (k : Space) (a : Word) : (s.afterLoad k a).sp = s.sp := by unfold State.afterLoad; split <;> rfl
@[simp] theorem afterLoad_bp (s : State) (k : Space) (a : Word) : (s.afterLoad k a).bp = s.bp := by unfold State.afterLoad; split <;> rfl
@[simp] theorem afterLoad_mode (s : State) (k : Space) (a : Word) : (s.afterLoad k a).mode = s.mode := by unfold State.afterLoad; split <;> rfl
@[simp] theorem afterLoad_data (s : State) (k : Space) (a : Word) : (s.afterLoad k a).data = s.data := by unfold State.afterLoad; split <;> rfl
@[simp] theorem afterLoad_stack (s : State) (k : Space) (a : Word) : (s.afterLoad k a).stack = s.stack := by unfold State.afterLoad; split <;> rfl
@[simp] theorem afterLoad_supStack (s : State) (k : Space) (a : Word) : (s.afterLoad k a).supStack = s.supStack := by unfold State.afterLoad; split <;> rfl
@[simp] theorem afterLoad_devices (s : State) (k : Space) (a : Word) : (s.afterLoad k a).devices = if s.isDevice k a then .read a :: s.devices else s.devices := by unfold State.afterLoad; split <;> rfl
@[simp] theorem afterLoad_code (s : State) (k : Space) (a : Word) : (s.afterLoad k a).code = s.code := by unfold State.afterLoad; split <;> rfl
@[simp] theorem afterLoad_params (s : State) (k : Space) (a : Word) : (s.afterLoad k a).params = s.params := by unfold State.afterLoad; split <;> rfl

@[simp] theorem store_regs (s : State) (k : Space) (a : Word) (f : Option BitField) (v : Word) : (s.store k a f v).regs = s.regs := by unfold State.store; split <;> simp
@[simp] theorem store_pc (s : State) (k : Space) (a : Word) (f : Option BitField) (v : Word) : (s.store k a f v).pc = s.pc := by unfold State.store; split <;> simp
@[simp] theorem store_xm (s : State) (k : Space) (a : Word) (f : Option BitField) (v : Word) : (s.store k a f v).xm = s.xm := by unfold State.store; split <;> simp
@[simp] theorem store_xh (s : State) (k : Space) (a : Word) (f : Option BitField) (v : Word) : (s.store k a f v).xh = s.xh := by unfold State.store; split <;> simp
@[simp] theorem store_sp (s : State) (k : Space) (a : Word) (f : Option BitField) (v : Word) : (s.store k a f v).sp = s.sp := by unfold State.store; split <;> simp
@[simp] theorem store_bp (s : State) (k : Space) (a : Word) (f : Option BitField) (v : Word) : (s.store k a f v).bp = s.bp := by unfold State.store; split <;> simp
@[simp] theorem store_mode (s : State) (k : Space) (a : Word) (f : Option BitField) (v : Word) : (s.store k a f v).mode = s.mode := by unfold State.store; split <;> simp
@[simp] theorem store_supStack (s : State) (k : Space) (a : Word) (f : Option BitField) (v : Word) : (s.store k a f v).supStack = s.supStack := by unfold State.store; split <;> simp
@[simp] theorem store_devices (s : State) (k : Space) (a : Word) (f : Option BitField) (v : Word) : (s.store k a f v).devices = if s.isDevice k a then .write a f v :: s.devices else s.devices := by unfold State.store; split <;> simp
@[simp] theorem store_code (s : State) (k : Space) (a : Word) (f : Option BitField) (v : Word) : (s.store k a f v).code = s.code := by unfold State.store; split <;> simp
@[simp] theorem store_params (s : State) (k : Space) (a : Word) (f : Option BitField) (v : Word) : (s.store k a f v).params = s.params := by unfold State.store; split <;> simp

/-! ### Registers -/

@[simp] theorem regs_get_set (x : Regs) (r q : Reg) (v : Word) :
    (x.set r v).get q = if r = q then v else x.get q := by
  cases r <;> cases q <;> rfl

@[simp] theorem reg_setReg (s : State) (r q : Reg) (v : Word) :
    (s.setReg r v).reg q = if r = q then v else s.reg q := regs_get_set s.regs r q v

theorem reg_congr (s t : State) (h : t.regs = s.regs) (q : Reg) : t.reg q = s.reg q := by
  simp [State.reg, h]

@[simp] theorem reg_setPc (s : State) (v : Word) (q : Reg) : (s.setPc v).reg q = s.reg q := rfl

@[simp] theorem reg_advance (s : State) (n : Nat) (q : Reg) : (s.advance n).reg q = s.reg q := rfl

@[simp] theorem reg_writeWord (s : State) (sp : Space) (a v : Word) (q : Reg) :
    (s.writeWord sp a v).reg q = s.reg q := by cases sp <;> rfl

@[simp] theorem reg_setTos (s : State) (a : Word) (q : Reg) : (s.setTos a).reg q = s.reg q :=
  reg_congr _ _ (setTos_regs s a) q

@[simp] theorem reg_writeCarry (s : State) (b : Bool) (v : Word) (q : Reg) :
    (s.writeCarry b v).reg q = if b = true ∧ q = .c then v else s.reg q := by
  cases b <;> simp [State.writeCarry, eq_comm]

/-- The registers are the eight values read. -/
theorem regs_ext (x y : Regs) (h : ∀ q, x.get q = y.get q) : x = y := by
  have ha := h .a
  have hb := h .b
  have hc := h .c
  have hd := h .d
  have h0 := h .x0
  have h1 := h .x1
  have h2 := h .x2
  have h3 := h .x3
  cases x
  cases y
  simp_all [Regs.get]

@[simp] theorem reg_afterLoad (s : State) (k : Space) (a : Word) (q : Reg) : (s.afterLoad k a).reg q = s.reg q :=
  reg_congr _ _ (afterLoad_regs s k a) q

@[simp] theorem reg_store (s : State) (k : Space) (a : Word) (f : Option BitField) (v : Word) (q : Reg) :
    (s.store k a f v).reg q = s.reg q := reg_congr _ _ (store_regs s k a f v) q

/-! ### Program counter -/

theorem toPc_congr (s t : State) (h : t.params = s.params) (v : Word) : t.toPc v = s.toPc v := by
  simp [State.toPc, h]

/-- A reduced code address is below 2^PCW. -/
theorem toPc_lt (s : State) (v : Word) : (s.toPc v).toNat < 2 ^ s.params.pcw := by
  simp only [State.toPc, BitVec.toNat_ofNat]
  exact lt_of_le_of_lt (Nat.mod_le _ _) (Nat.mod_lt _ (Nat.two_pow_pos _))

/-- A code address is its own reduction. -/
theorem toPc_of_lt (s : State) (v : Word) (h : v.toNat < 2 ^ s.params.pcw) : s.toPc v = v := by
  simp [State.toPc, Nat.mod_eq_of_lt h]

end Sys2Proof.Machine
end

