-- ==== Sys2Proof/Laws/Memory.lean ====
section
/-! SUPPORT. Memory: read after write, and that every memory operation keeps the canonical form. -/

namespace Sys2Proof.Machine

@[simp] theorem memory_read_nil (a : Nat) : Memory.read [] a = none := rfl

/-- A read after a write: the value written at its address, the old word elsewhere. -/
@[simp] theorem memory_read_write (m : Memory) (a b : Nat) (v : Word) :
    (m.write a v).read b = if b = a then some v else m.read b := by
  induction m with
  | nil => simp [Memory.write, Memory.read]
  | cons c rest ih =>
    obtain ⟨x, w⟩ := c
    simp only [Memory.write]
    split
    · simp [Memory.read]
    · split
      · subst x
        simp only [Memory.read]
        split <;> rfl
      · simp only [Memory.read, ih]
        split
        · subst b
          rw [if_neg (by omega)]
        · rfl

/-- The addresses of a memory after a write are its own and the one written. -/
theorem memory_mem_write (m : Memory) (a : Nat) (v : Word) (c : Nat × Word) (h : c ∈ m.write a v) :
    c.1 = a ∨ c ∈ m := by
  induction m with
  | nil => simp_all [Memory.write]
  | cons d rest ih =>
    obtain ⟨x, w⟩ := d
    simp only [Memory.write] at h
    split at h
    · rcases List.mem_cons.mp h with rfl | h
      · exact .inl rfl
      · exact .inr h
    · split at h
      · rcases List.mem_cons.mp h with rfl | h
        · exact .inl rfl
        · exact .inr (List.mem_cons_of_mem _ h)
      · rcases List.mem_cons.mp h with rfl | h
        · exact .inr List.mem_cons_self
        · exact (ih h).imp id (List.mem_cons_of_mem _)

/-- A write keeps the canonical form. -/
theorem memory_wf_write (m : Memory) (a : Nat) (v : Word) (ha : a < 65536) (h : m.wf) : (m.write a v).wf := by
  refine ⟨?_, fun c hc => (memory_mem_write m a v c hc).elim (fun e => e ▸ ha) (h.2 c)⟩
  obtain ⟨h, -⟩ := h
  induction m with
  | nil => simp [Memory.write]
  | cons d rest ih =>
    obtain ⟨x, w⟩ := d
    obtain ⟨hx, hr⟩ := List.pairwise_cons.mp h
    simp only [Memory.write]
    split
    · rename_i hlt
      refine List.pairwise_cons.mpr ⟨fun c hc => ?_, h⟩
      rcases List.mem_cons.mp hc with rfl | hc
      · exact hlt
      · exact lt_trans hlt (hx c hc)
    · split
      · subst x
        exact List.pairwise_cons.mpr ⟨hx, hr⟩
      · refine List.pairwise_cons.mpr ⟨fun c hc => ?_, ih hr⟩
        rcases memory_mem_write rest a v c hc with e | e
        · simp only [e]
          omega
        · exact hx c e

/-- A list of stores keeps the canonical form. -/
theorem memory_wf_writeAll (ws : List (Word × Word)) (m : Memory) (h : m.wf) : (m.writeAll ws).wf := by
  induction ws generalizing m with
  | nil => exact h
  | cons w rest ih => exact ih _ (memory_wf_write m _ _ w.1.isLt h)

/-! ### Words of the two spaces -/

/-- A read after a write of a space: the value written at its address of its space, the old word elsewhere. -/
@[simp] theorem readWord_writeWord (s : State) (sp k : Space) (a x v : Word) :
    (s.writeWord sp a v).readWord k x = if k = sp ∧ x = a then v else s.readWord k x := by
  cases sp <;> cases k <;>
    simp only [State.writeWord, State.readWord, memory_read_write, BitVec.toNat_inj, true_and, reduceCtorEq,
      false_and, if_false] <;> split <;> rfl

theorem readWord_congr (s t : State) (hd : t.data = s.data) (hs : t.stack = s.stack) (k : Space) (x : Word) :
    t.readWord k x = s.readWord k x := by cases k <;> simp [State.readWord, hd, hs]

@[simp] theorem readWord_setReg (s : State) (r : Reg) (v : Word) (k : Space) (x : Word) :
    (s.setReg r v).readWord k x = s.readWord k x := readWord_congr _ _ rfl rfl k x

@[simp] theorem readWord_setPc (s : State) (v : Word) (k : Space) (x : Word) :
    (s.setPc v).readWord k x = s.readWord k x := readWord_congr _ _ rfl rfl k x

@[simp] theorem readWord_advance (s : State) (n : Nat) (k : Space) (x : Word) :
    (s.advance n).readWord k x = s.readWord k x := readWord_congr _ _ rfl rfl k x

@[simp] theorem readWord_setTos (s : State) (a : Word) (k : Space) (x : Word) :
    (s.setTos a).readWord k x = s.readWord k x :=
  readWord_congr _ _ (setTos_data s a) (setTos_stack s a) k x

@[simp] theorem readWord_writeCarry (s : State) (b : Bool) (v : Word) (k : Space) (x : Word) :
    (s.writeCarry b v).readWord k x = s.readWord k x :=
  readWord_congr _ _ (writeCarry_data s b v) (writeCarry_stack s b v) k x

@[simp] theorem readWord_afterLoad (s : State) (sp : Space) (a : Word) (k : Space) (x : Word) :
    (s.afterLoad sp a).readWord k x = s.readWord k x :=
  readWord_congr _ _ (afterLoad_data s sp a) (afterLoad_stack s sp a) k x

/-- A store changes no word but that of plain memory at its address. -/
theorem readWord_store (s : State) (sp : Space) (a : Word) (f : Option BitField) (v : Word) (k : Space) (x : Word) :
    (s.store sp a f v).readWord k x =
      if k = sp ∧ x = a ∧ s.isDevice sp a = false then narrowPut f (s.readWord k x) v else s.readWord k x := by
  unfold State.store
  split
  · rw [if_neg (by simp_all)]
    exact readWord_congr _ _ rfl rfl k x
  · rw [readWord_writeWord]
    split <;> simp_all

/-- A write of a space keeps the canonical form of both. -/
theorem wf_writeWord (s : State) (sp : Space) (a v : Word) (hd : s.data.wf) (hs : s.stack.wf) :
    (s.writeWord sp a v).data.wf ∧ (s.writeWord sp a v).stack.wf := by
  cases sp
  · exact ⟨memory_wf_write _ _ _ a.isLt hd, hs⟩
  · exact ⟨hd, memory_wf_write _ _ _ a.isLt hs⟩

/-- A store keeps the canonical form of both spaces. -/
theorem wf_store (s : State) (sp : Space) (a : Word) (f : Option BitField) (v : Word) (hd : s.data.wf)
    (hs : s.stack.wf) : (s.store sp a f v).data.wf ∧ (s.store sp a f v).stack.wf := by
  unfold State.store
  split
  · exact ⟨hd, hs⟩
  · exact wf_writeWord s _ _ _ hd hs

/-! ### What stands where (R39, R41) -/

theorem kindAt_congr (s t : State) (h : t.params = s.params) (sp : Space) (x : Word) :
    t.kindAt sp x = s.kindAt sp x := by cases sp <;> simp [State.kindAt, h]

theorem isMapped_congr (s t : State) (h : t.params = s.params) (sp : Space) (x : Word) :
    t.isMapped sp x = s.isMapped sp x := by simp [State.isMapped, kindAt_congr s t h]

theorem isDevice_congr (s t : State) (h : t.params = s.params) (sp : Space) (x : Word) :
    t.isDevice sp x = s.isDevice sp x := by simp [State.isDevice, kindAt_congr s t h]

/-- No device stands in stack space (R32). -/
@[simp] theorem isDevice_stack (s : State) (x : Word) : s.isDevice .stack x = false := by
  unfold State.isDevice State.kindAt
  dsimp only
  split <;> rfl

/-- A device stands only where the address exists. -/
theorem isMapped_of_isDevice {s : State} {sp : Space} {x : Word} (h : s.isDevice sp x = true) :
    s.isMapped sp x = true := by
  simp_all [State.isDevice, State.isMapped]

/-- Memory right after reset has the canonical form. -/
theorem wf_reset : State.reset.data.wf ∧ State.reset.stack.wf ∧ State.reset.code.wf := by decide

end Sys2Proof.Machine
end

