-- ==== Sys2Proof/Laws/Operands.lean ====
section
/-! SUPPORT. What the shared operations on operands can do: accesses, post-increments, operand writes. -/

namespace Sys2Proof.Machine

/-! ### Guarded accesses -/

/-- Where the address exists a guarded operation goes on. -/
theorem guardAccess_mapped {α : Type} (s : State) (sp : Space) (a : Word) (k : Result α)
    (h : s.isMapped sp a = true) : guardAccess s sp a k = k := by
  unfold guardAccess
  unfold State.isMapped at h
  split <;> simp_all

/-- Where the address does not exist a guarded operation stops. -/
theorem guardAccess_unmapped {α : Type} (s : State) (sp : Space) (a : Word) (k : Result α)
    (h : s.isMapped sp a = false) : guardAccess s sp a k = .fault (.unmapped sp a) := by
  unfold guardAccess
  unfold State.isMapped at h
  split <;> simp_all

/-- A guarded operation that answers has an address that exists. -/
theorem guardAccess_next {α : Type} {s : State} {sp : Space} {a : Word} {k : Result α} {x : α}
    (h : guardAccess s sp a k = .next x) : s.isMapped sp a = true ∧ k = .next x := by
  unfold guardAccess at h
  split at h
  · exact ⟨by simp_all [State.isMapped], h⟩
  · cases h

/-- Sequencing answers only where both parts do. -/
theorem thenNext_next {α β : Type} {x : Result α} {k : α → Result β} {b : β} (h : thenNext x k = .next b) :
    ∃ a, x = .next a ∧ k a = .next b := by
  cases x with
  | next a => exact ⟨a, rfl, h⟩
  | fault f => cases h
  | refused r => cases h

@[simp] theorem thenNext_of_next {α β : Type} (a : α) (k : α → Result β) : thenNext (.next a) k = k a := rfl

/-- An operation on a usable operand goes on with its descriptor. -/
theorem onOperand_usable {α : Type} (a : Adr) (bp : Word) (s : State) (k : Operand → Result α)
    (h : (resolve a bp s).usable s = true) : onOperand a bp s k = k (resolve a bp s) := by
  unfold onOperand
  unfold Operand.usable at h
  split <;> simp_all [guardAccess_mapped]

/-- An operation on an operand that answers has a usable one. -/
theorem onOperand_next {α : Type} {a : Adr} {bp : Word} {s : State} {k : Operand → Result α} {x : α}
    (h : onOperand a bp s k = .next x) : (resolve a bp s).usable s = true ∧ k (resolve a bp s) = .next x := by
  unfold onOperand at h
  unfold Operand.usable
  split at h
  · exact ⟨rfl, h⟩
  · exact ⟨rfl, h⟩
  · obtain ⟨h1, h2⟩ := guardAccess_next h
    exact ⟨h1, h2⟩

/-- An operation on an operand whose address does not exist stops. -/
theorem onOperand_unmapped {α : Type} (a : Adr) (bp : Word) (s : State) (k : Operand → Result α) (sp : Space)
    (x : Word) (f : Option BitField) (hl : (resolve a bp s).loc = .mem sp x f) (h : s.isMapped sp x = false) :
    onOperand a bp s k = .fault (.unmapped sp x) := by
  unfold onOperand
  rw [hl]
  exact guardAccess_unmapped _ _ _ _ h

/-! ### Machines with every address -/

/-- Plain memory everywhere is every address. -/
theorem allMapped_of_allRam {s : State} (h : AllRam s) : AllMapped s := fun sp x => by simp [State.isMapped, h sp x]

theorem allMapped_congr {s t : State} (h : t.params = s.params) (hs : AllMapped s) : AllMapped t :=
  fun sp x => (isMapped_congr s t h sp x).trans (hs sp x)

theorem allRam_congr {s t : State} (h : t.params = s.params) (hs : AllRam s) : AllRam t :=
  fun sp x => (kindAt_congr s t h sp x).trans (hs sp x)

/-- On plain memory there is no device. -/
theorem isDevice_of_allRam {s : State} (h : AllRam s) (sp : Space) (x : Word) : s.isDevice sp x = false := by
  simp [State.isDevice, h sp x]

/-- The default maps place plain memory everywhere. -/
theorem allRam_of_default (s : State) (hd : s.params.dataMap = [⟨⟨0, 65535⟩, .ram⟩])
    (hs : s.params.stackMap = [⟨0, 65535⟩]) : AllRam s := by
  intro sp x
  have hx : x.toNat ≤ 65535 := by have := x.isLt; omega
  cases sp <;> simp [State.kindAt, hd, hs, regionAt, inRanges, hx]

/-- In a machine that has every address every operand is usable. -/
theorem usable_of_allMapped (o : Operand) (s : State) (h : AllMapped s) : o.usable s = true := by
  unfold Operand.usable
  split
  · rfl
  · rfl
  · exact h _ _

/-! ### The read of an operand (R39, R93) -/

section AfterRead
variable (o : Operand) (s : State)

@[simp] theorem afterRead_regs : (o.afterRead s).regs = s.regs := by unfold Operand.afterRead; split <;> simp
@[simp] theorem afterRead_pc : (o.afterRead s).pc = s.pc := by unfold Operand.afterRead; split <;> simp
@[simp] theorem afterRead_xm : (o.afterRead s).xm = s.xm := by unfold Operand.afterRead; split <;> simp
@[simp] theorem afterRead_xh : (o.afterRead s).xh = s.xh := by unfold Operand.afterRead; split <;> simp
@[simp] theorem afterRead_sp : (o.afterRead s).sp = s.sp := by unfold Operand.afterRead; split <;> simp
@[simp] theorem afterRead_bp : (o.afterRead s).bp = s.bp := by unfold Operand.afterRead; split <;> simp
@[simp] theorem afterRead_mode : (o.afterRead s).mode = s.mode := by unfold Operand.afterRead; split <;> simp
@[simp] theorem afterRead_data : (o.afterRead s).data = s.data := by unfold Operand.afterRead; split <;> simp
@[simp] theorem afterRead_stack : (o.afterRead s).stack = s.stack := by unfold Operand.afterRead; split <;> simp
@[simp] theorem afterRead_supStack : (o.afterRead s).supStack = s.supStack := by
  unfold Operand.afterRead; split <;> simp
@[simp] theorem afterRead_code : (o.afterRead s).code = s.code := by unfold Operand.afterRead; split <;> simp
@[simp] theorem afterRead_params : (o.afterRead s).params = s.params := by unfold Operand.afterRead; split <;> simp

@[simp] theorem afterRead_reg (q : Reg) : (o.afterRead s).reg q = s.reg q := reg_congr _ _ (afterRead_regs o s) q

@[simp] theorem afterRead_readWord (k : Space) (x : Word) : (o.afterRead s).readWord k x = s.readWord k x :=
  readWord_congr _ _ (afterRead_data o s) (afterRead_stack o s) k x

/-- A read adds itself to what the devices have seen where the operand is a device word, and nothing else. -/
@[simp] theorem afterRead_devices : (o.afterRead s).devices = readLog s o.loc := by
  unfold Operand.afterRead readLog
  split <;> simp_all

/-- On plain memory a read changes nothing. -/
theorem afterRead_allRam (h : AllRam s) : o.afterRead s = s := by
  unfold Operand.afterRead State.afterLoad
  split <;> simp [isDevice_of_allRam h]

end AfterRead

/-! ### The post-increment (R92) -/

section PostInc
variable (o : Operand) (s : State)

@[simp] theorem postInc_pc : (o.postInc s).pc = s.pc := by unfold Operand.postInc; split <;> rfl
@[simp] theorem postInc_xm : (o.postInc s).xm = s.xm := by unfold Operand.postInc; split <;> rfl
@[simp] theorem postInc_sp : (o.postInc s).sp = s.sp := by unfold Operand.postInc; split <;> rfl
@[simp] theorem postInc_bp : (o.postInc s).bp = s.bp := by unfold Operand.postInc; split <;> rfl
@[simp] theorem postInc_mode : (o.postInc s).mode = s.mode := by unfold Operand.postInc; split <;> rfl
@[simp] theorem postInc_data : (o.postInc s).data = s.data := by unfold Operand.postInc; split <;> rfl
@[simp] theorem postInc_stack : (o.postInc s).stack = s.stack := by unfold Operand.postInc; split <;> rfl
@[simp] theorem postInc_supStack : (o.postInc s).supStack = s.supStack := by unfold Operand.postInc; split <;> rfl
@[simp] theorem postInc_devices : (o.postInc s).devices = s.devices := by unfold Operand.postInc; split <;> rfl
@[simp] theorem postInc_code : (o.postInc s).code = s.code := by unfold Operand.postInc; split <;> rfl
@[simp] theorem postInc_params : (o.postInc s).params = s.params := by unfold Operand.postInc; split <;> rfl

@[simp] theorem postInc_readWord (k : Space) (x : Word) : (o.postInc s).readWord k x = s.readWord k x :=
  readWord_congr _ _ (postInc_data o s) (postInc_stack o s) k x

/-- A post-increment changes no register but the pointer. -/
theorem postInc_reg (q : Reg) :
    (o.postInc s).reg q = match o.post with
      | none => s.reg q
      | some p => if ptrReg p.ptr = q then p.value else s.reg q := by
  unfold Operand.postInc
  split <;> simp_all [State.reg, State.setReg]

/-- What a post-increment leaves in a register or in XH does not depend on the read before it. -/
@[simp] theorem postInc_afterRead_regs (p : Operand) : (o.postInc (p.afterRead s)).regs = (o.postInc s).regs := by
  unfold Operand.postInc; split <;> simp

@[simp] theorem postInc_afterRead_xh (p : Operand) : (o.postInc (p.afterRead s)).xh = (o.postInc s).xh := by
  unfold Operand.postInc; split <;> simp

@[simp] theorem postInc_afterRead_reg (p : Operand) (q : Reg) :
    (o.postInc (p.afterRead s)).reg q = (o.postInc s).reg q := reg_congr _ _ (postInc_afterRead_regs o s p) q

end PostInc

/-! ### The state after phase 4 (R81) -/

section Phase4
variable (a : Adr) (s : State)

@[simp] theorem afterPost_pc : (afterPost a s).pc = s.pc := by simp [afterPost]
@[simp] theorem afterPost_xm : (afterPost a s).xm = s.xm := by simp [afterPost]
@[simp] theorem afterPost_sp : (afterPost a s).sp = s.sp := by simp [afterPost]
@[simp] theorem afterPost_bp : (afterPost a s).bp = s.bp := by simp [afterPost]
@[simp] theorem afterPost_mode : (afterPost a s).mode = s.mode := by simp [afterPost]
@[simp] theorem afterPost_data : (afterPost a s).data = s.data := by simp [afterPost]
@[simp] theorem afterPost_stack : (afterPost a s).stack = s.stack := by simp [afterPost]
@[simp] theorem afterPost_supStack : (afterPost a s).supStack = s.supStack := by simp [afterPost]
@[simp] theorem afterPost_code : (afterPost a s).code = s.code := by simp [afterPost]
@[simp] theorem afterPost_params : (afterPost a s).params = s.params := by simp [afterPost]
@[simp] theorem afterPost_devices : (afterPost a s).devices = s.devices := by simp [afterPost]

@[simp] theorem afterReads_pc : (afterReads a s).pc = s.pc := by simp [afterReads]
@[simp] theorem afterReads_xm : (afterReads a s).xm = s.xm := by simp [afterReads]
@[simp] theorem afterReads_sp : (afterReads a s).sp = s.sp := by simp [afterReads]
@[simp] theorem afterReads_bp : (afterReads a s).bp = s.bp := by simp [afterReads]
@[simp] theorem afterReads_mode : (afterReads a s).mode = s.mode := by simp [afterReads]
@[simp] theorem afterReads_data : (afterReads a s).data = s.data := by simp [afterReads]
@[simp] theorem afterReads_stack : (afterReads a s).stack = s.stack := by simp [afterReads]
@[simp] theorem afterReads_supStack : (afterReads a s).supStack = s.supStack := by simp [afterReads]
@[simp] theorem afterReads_code : (afterReads a s).code = s.code := by simp [afterReads]
@[simp] theorem afterReads_params : (afterReads a s).params = s.params := by simp [afterReads]
@[simp] theorem afterReads_devices : (afterReads a s).devices = readLog s (operand a s).loc := by simp [afterReads]
@[simp] theorem afterReads_regs : (afterReads a s).regs = (afterPost a s).regs := by simp [afterReads, afterPost]
@[simp] theorem afterReads_xh : (afterReads a s).xh = (afterPost a s).xh := by simp [afterReads, afterPost]

@[simp] theorem afterReads_reg (q : Reg) : (afterReads a s).reg q = (afterPost a s).reg q :=
  reg_congr _ _ (afterReads_regs a s) q

@[simp] theorem afterPost_readWord (k : Space) (x : Word) : (afterPost a s).readWord k x = s.readWord k x := by
  simp [afterPost]

@[simp] theorem afterReads_readWord (k : Space) (x : Word) : (afterReads a s).readWord k x = s.readWord k x := by
  simp [afterReads]

end Phase4

/-! ### Operand writes (R94) -/

section Write
variable (o : Operand) (v : Word) (s : State)

@[simp] theorem write_pc : (o.write v s).pc = s.pc := by unfold Operand.write; split <;> simp
@[simp] theorem write_xm : (o.write v s).xm = s.xm := by unfold Operand.write; split <;> simp
@[simp] theorem write_xh : (o.write v s).xh = s.xh := by unfold Operand.write; split <;> simp
@[simp] theorem write_sp : (o.write v s).sp = s.sp := by unfold Operand.write; split <;> simp
@[simp] theorem write_bp : (o.write v s).bp = s.bp := by unfold Operand.write; split <;> simp
@[simp] theorem write_mode : (o.write v s).mode = s.mode := by unfold Operand.write; split <;> simp
@[simp] theorem write_supStack : (o.write v s).supStack = s.supStack := by unfold Operand.write; split <;> simp
@[simp] theorem write_code : (o.write v s).code = s.code := by unfold Operand.write; split <;> simp
@[simp] theorem write_params : (o.write v s).params = s.params := by unfold Operand.write; split <;> simp

/-- An operand write changes no register but the operand. -/
theorem write_reg (q : Reg) :
    (o.write v s).reg q = if locReg o.loc = some q then v else s.reg q := by
  unfold Operand.write
  split <;> simp_all [locReg]

/-- An operand write changes no word but the operand, and that only in plain memory. -/
theorem write_readWord (k : Space) (x : Word) :
    (o.write v s).readWord k x = wordAfter s o.loc v k x := by
  unfold Operand.write wordAfter
  cases o.loc with
  | imm w => rfl
  | reg r => exact readWord_setReg _ _ _ _ _
  | mem sp a f => exact readWord_store _ _ _ _ _ _ _

/-- An operand write adds itself to what the devices have seen where the operand is a device word. -/
theorem write_devices : (o.write v s).devices = writeLog s o.loc v s.devices := by
  unfold Operand.write writeLog
  cases o.loc <;> simp

/-- An operand write keeps the canonical form of both spaces. -/
theorem wf_write (hd : s.data.wf) (hs : s.stack.wf) : (o.write v s).data.wf ∧ (o.write v s).stack.wf := by
  unfold Operand.write
  split
  · exact ⟨hd, hs⟩
  · exact ⟨hd, hs⟩
  · exact wf_store s _ _ _ _ hd hs

end Write

/-- What a write leaves depends only on the words and the devices there were. -/
theorem wordAfter_congr (s t : State) (h : ∀ k x, t.readWord k x = s.readWord k x) (hp : t.params = s.params) (l : Loc)
    (v : Word) : wordAfter t l v = wordAfter s l v := by
  funext k x
  unfold wordAfter
  split <;> simp [h, isDevice_congr s t hp]

/-- What a write shows the devices depends only on where they stand. -/
theorem writeLog_congr (s t : State) (hp : t.params = s.params) (l : Loc) (v : Word) (log : List DeviceAccess) :
    writeLog t l v log = writeLog s l v log := by
  unfold writeLog
  split <;> simp [isDevice_congr s t hp]

end Sys2Proof.Machine
end

