-- ==== Sys2Proof/Laws/Forms.lean ====
section
/-! SUPPORT. For each shape of an instruction, all it can do: where it answers, and the next state it answers. -/

namespace Sys2Proof.Machine

theorem opRx_next {f : Word → Word → Word → AluOut} {c : Bool} {r : Reg} {a : Adr} {s t : State}
    (h : opRx f c r a s = .next t) :
    Usable a s ∧ t = (((afterReads a s).setReg r (f (s.reg r) (operandValue a s) s.carry).result).writeCarry c
      (f (s.reg r) (operandValue a s) s.carry).carry).advance (instrWords a) := by
  obtain ⟨hu, h⟩ := onOperand_next h
  cases h
  exact ⟨hu, rfl⟩

theorem opRx_usable (f : Word → Word → Word → AluOut) (c : Bool) (r : Reg) (a : Adr) (s : State) (h : Usable a s) :
    opRx f c r a s = .next ((((afterReads a s).setReg r (f (s.reg r) (operandValue a s) s.carry).result).writeCarry c
      (f (s.reg r) (operandValue a s) s.carry).carry).advance (instrWords a)) := onOperand_usable a s.bp s _ h

theorem opAdr_next {f : Word → Word → Word → AluOut} {c : Bool} {r : Reg} {a : Adr} {s t : State}
    (h : opAdr f c a r s = .next t) :
    Usable a s ∧ t = (((operand a s).write (f (operandValue a s) (s.reg r) s.carry).result (afterReads a s)).writeCarry c
      (f (operandValue a s) (s.reg r) s.carry).carry).advance (instrWords a) := by
  obtain ⟨hu, h⟩ := onOperand_next h
  cases h
  exact ⟨hu, rfl⟩

theorem opAdr_usable (f : Word → Word → Word → AluOut) (c : Bool) (r : Reg) (a : Adr) (s : State) (h : Usable a s) :
    opAdr f c a r s =
      .next ((((operand a s).write (f (operandValue a s) (s.reg r) s.carry).result (afterReads a s)).writeCarry c
        (f (operandValue a s) (s.reg r) s.carry).carry).advance (instrWords a)) := onOperand_usable a s.bp s _ h

theorem loadRx_next {f : Word → Word} {r : Reg} {a : Adr} {s t : State} (h : loadRx f r a s = .next t) :
    Usable a s ∧ t = ((afterReads a s).setReg r (f (operandValue a s))).advance (instrWords a) := by
  obtain ⟨hu, h⟩ := onOperand_next h
  cases h
  exact ⟨hu, rfl⟩

theorem loadRx_usable (f : Word → Word) (r : Reg) (a : Adr) (s : State) (h : Usable a s) :
    loadRx f r a s = .next (((afterReads a s).setReg r (f (operandValue a s))).advance (instrWords a)) :=
  onOperand_usable a s.bp s _ h

theorem storeAdr_next {v : Word} {a : Adr} {s t : State} (h : storeAdr v a s = .next t) :
    Usable a s ∧ t = ((operand a s).write v (afterPost a s)).advance (instrWords a) := by
  obtain ⟨hu, h⟩ := onOperand_next h
  cases h
  exact ⟨hu, rfl⟩

theorem storeAdr_usable (v : Word) (a : Adr) (s : State) (h : Usable a s) :
    storeAdr v a s = .next (((operand a s).write v (afterPost a s)).advance (instrWords a)) :=
  onOperand_usable a s.bp s _ h

theorem loadSpecial_next {f : State → Word → State} {a : Adr} {s t : State} (h : loadSpecial f a s = .next t) :
    Usable a s ∧ t = (f (afterReads a s) (operandValue a s)).advance (instrWords a) := by
  obtain ⟨hu, h⟩ := onOperand_next h
  cases h
  exact ⟨hu, rfl⟩

theorem loadSpecial_usable (f : State → Word → State) (a : Adr) (s : State) (h : Usable a s) :
    loadSpecial f a s = .next ((f (afterReads a s) (operandValue a s)).advance (instrWords a)) :=
  onOperand_usable a s.bp s _ h

theorem exchange_next {r : Reg} {a : Adr} {s t : State} (h : exchange r a s = .next t) :
    Usable a s ∧
      t = ((operand a s).write (s.reg r) ((afterReads a s).setReg r (operandValue a s))).advance (instrWords a) := by
  obtain ⟨hu, h⟩ := onOperand_next h
  cases h
  exact ⟨hu, rfl⟩

theorem exchange_usable (r : Reg) (a : Adr) (s : State) (h : Usable a s) :
    exchange r a s =
      .next (((operand a s).write (s.reg r) ((afterReads a s).setReg r (operandValue a s))).advance (instrWords a)) :=
  onOperand_usable a s.bp s _ h

theorem modifyAdr_next {f : Word → Word} {a : Adr} {s t : State} (h : modifyAdr f a s = .next t) :
    Usable a s ∧ t = ((operand a s).write (f (operandValue a s)) (afterReads a s)).advance (instrWords a) := by
  obtain ⟨hu, h⟩ := onOperand_next h
  cases h
  exact ⟨hu, rfl⟩

theorem modifyAdr_usable (f : Word → Word) (a : Adr) (s : State) (h : Usable a s) :
    modifyAdr f a s = .next (((operand a s).write (f (operandValue a s)) (afterReads a s)).advance (instrWords a)) :=
  onOperand_usable a s.bp s _ h

theorem skipIf_next {f : Word → Bool} {a : Adr} {s t : State} (h : skipIf f a s = .next t) :
    Usable a s ∧
      t = (afterReads a s).advance (if f (operandValue a s) then instrWords a + 1 else instrWords a) := by
  obtain ⟨hu, h⟩ := onOperand_next h
  cases h
  exact ⟨hu, rfl⟩

theorem skipIf_usable (f : Word → Bool) (a : Adr) (s : State) (h : Usable a s) :
    skipIf f a s =
      .next ((afterReads a s).advance (if f (operandValue a s) then instrWords a + 1 else instrWords a)) :=
  onOperand_usable a s.bp s _ h

theorem jumpTo_next {f : Word → Word} {a : Adr} {s t : State} (h : jumpTo f a s = .next t) :
    Usable a s ∧ t = (afterReads a s).setPc (f (operandValue a s)) := by
  obtain ⟨hu, h⟩ := onOperand_next h
  cases h
  exact ⟨hu, rfl⟩

theorem jumpTo_usable (f : Word → Word) (a : Adr) (s : State) (h : Usable a s) :
    jumpTo f a s = .next ((afterReads a s).setPc (f (operandValue a s))) := onOperand_usable a s.bp s _ h

/-! ### Calls and returns -/

/-- The state a call has entered its frame in, before its parameters (R186). -/
def framed (s : State) (ret : Word) : State :=
  ({ (s.writeWord .stack s.tos ret).writeWord .stack (s.tos + 1) s.bp with bp := s.tos + 2 }).setTos (s.tos + 2)

/-- The state after a push (R186). -/
def pushed (s : State) (v : Word) : State := { s.writeWord .stack s.tos v with sp := s.sp + 1 }

theorem pushWord_next {α : Type} {s : State} {v : Word} {k : State → Result α} {x : α}
    (h : pushWord s v k = .next x) : s.isMapped .stack s.tos = true ∧ k (pushed s v) = .next x := guardAccess_next h

theorem pushWord_mapped {α : Type} (s : State) (v : Word) (k : State → Result α) (h : s.isMapped .stack s.tos = true) :
    pushWord s v k = k (pushed s v) := guardAccess_mapped _ _ _ _ h

theorem enterFrame_next {α : Type} {s : State} {ret : Word} {k : State → Result α} {x : α}
    (h : enterFrame s ret k = .next x) :
    s.isMapped .stack s.tos = true ∧ s.isMapped .stack (s.tos + 1) = true ∧ k (framed s ret) = .next x := by
  obtain ⟨h1, h⟩ := guardAccess_next h
  obtain ⟨h2, h⟩ := guardAccess_next h
  exact ⟨h1, h2, h⟩

theorem enterFrame_mapped {α : Type} (s : State) (ret : Word) (k : State → Result α)
    (h1 : s.isMapped .stack s.tos = true) (h2 : s.isMapped .stack (s.tos + 1) = true) :
    enterFrame s ret k = k (framed s ret) := by
  rw [enterFrame, guardAccess_mapped _ _ _ _ h1, guardAccess_mapped _ _ _ _ h2]
  rfl

theorem leaveFrame_next {s t : State} (h : leaveFrame s = .next t) :
    s.isMapped .stack (s.bp - 2) = true ∧ s.isMapped .stack (s.bp - 1) = true ∧
      t = (({ s with bp := s.readWord .stack (s.bp - 1) }).setTos (s.bp - 2)).setPc
        (s.readWord .stack (s.bp - 2)) := by
  obtain ⟨h1, h⟩ := guardAccess_next h
  obtain ⟨h2, h⟩ := guardAccess_next h
  cases h
  exact ⟨h1, h2, rfl⟩

theorem leaveFrame_mapped (s : State) (h1 : s.isMapped .stack (s.bp - 2) = true)
    (h2 : s.isMapped .stack (s.bp - 1) = true) :
    leaveFrame s = .next ((({ s with bp := s.readWord .stack (s.bp - 1) }).setTos (s.bp - 2)).setPc
        (s.readWord .stack (s.bp - 2))) := by
  rw [leaveFrame, guardAccess_mapped _ _ _ _ h1, guardAccess_mapped _ _ _ _ h2]

/-- A call answers where its operand is usable, the frame's words exist and its parameters are pushed. -/
theorem callTo_next {f : Word → Word} {a : Adr} {ps : List Adr} {s t : State} (h : callTo f a ps s = .next t) :
    Usable a s ∧ s.isMapped .stack s.tos = true ∧ s.isMapped .stack (s.tos + 1) = true ∧
      ∃ u, pushParams ps s.bp (framed (afterReads a s) (nextPc s a 0)) = .next u ∧
        t = u.setPc (f (operandValue a s)) := by
  obtain ⟨hu, h⟩ := onOperand_next h
  obtain ⟨h1, h2, h⟩ := enterFrame_next h
  obtain ⟨u, hp, h⟩ := thenNext_next h
  cases h
  have e : ((resolve a s.bp s).postInc ((resolve a s.bp s).afterRead s)).tos = s.tos := by simp [State.tos]
  rw [e, isMapped_congr s _ ((postInc_params _ _).trans (afterRead_params _ s))] at h1 h2
  exact ⟨hu, h1, h2, u, hp, rfl⟩

/-- The first parameter is evaluated and pushed before the others are (R185). -/
theorem pushParams_cons {a : Adr} {ps : List Adr} {bp : Word} {s t : State} (h : pushParams (a :: ps) bp s = .next t) :
    (resolve a bp s).usable s = true ∧ s.isMapped .stack s.tos = true ∧
      pushParams ps bp (pushed ((resolve a bp s).postInc ((resolve a bp s).afterRead s)) ((resolve a bp s).read s)) =
        .next t := by
  obtain ⟨hu, h⟩ := onOperand_next h
  obtain ⟨h1, h⟩ := pushWord_next h
  have e : ((resolve a bp s).postInc ((resolve a bp s).afterRead s)).tos = s.tos := by simp [State.tos]
  rw [e, isMapped_congr s _ ((postInc_params _ _).trans (afterRead_params _ s))] at h1
  exact ⟨hu, h1, h⟩

/-- The first parameter of a supervisor call is evaluated before the others are (R189). -/
theorem collectArgs_cons {a : Adr} {ps : List Adr} {bp : Word} {s : State} {x : State × List Word}
    (h : collectArgs (a :: ps) bp s = .next x) :
    (resolve a bp s).usable s = true ∧
      ∃ y, collectArgs ps bp ((resolve a bp s).postInc ((resolve a bp s).afterRead s)) = .next y ∧
        x = (y.1, (resolve a bp s).read s :: y.2) := by
  obtain ⟨hu, h⟩ := onOperand_next h
  obtain ⟨y, hy, h⟩ := thenNext_next h
  cases h
  exact ⟨hu, y, hy, rfl⟩

/-- Evaluating the parameters of a supervisor call changes nothing but pointers and XH, and gives one word each. -/
theorem collectArgs_frame {ps : List Adr} {bp : Word} {s : State} {x : State × List Word}
    (h : collectArgs ps bp s = .next x) :
    x.2.length = ps.length ∧ x.1.pc = s.pc ∧ x.1.xm = s.xm ∧ x.1.sp = s.sp ∧ x.1.bp = s.bp ∧ x.1.mode = s.mode ∧
      x.1.data = s.data ∧ x.1.stack = s.stack ∧ x.1.supStack = s.supStack ∧ x.1.code = s.code ∧
      x.1.params = s.params := by
  induction ps generalizing s x with
  | nil =>
    cases h
    simp
  | cons a ps ih =>
    obtain ⟨-, y, hy, rfl⟩ := collectArgs_cons h
    simpa using ih hy

/-- Pushing parameters changes no more than the registers, XH, SP and stack space. -/
theorem pushParams_frame {ps : List Adr} {bp : Word} {s t : State} (h : pushParams ps bp s = .next t) :
    t.pc = s.pc ∧ t.xm = s.xm ∧ t.bp = s.bp ∧ t.mode = s.mode ∧ t.data = s.data ∧ t.supStack = s.supStack ∧
      t.code = s.code ∧ t.params = s.params ∧ t.sp = s.sp + BitVec.ofNat 16 ps.length ∧
      (s.stack.wf → t.stack.wf) := by
  induction ps generalizing s t with
  | nil =>
    cases h
    simp
  | cons a ps ih =>
    obtain ⟨-, -, h⟩ := pushParams_cons h
    obtain ⟨h1, h2, h3, h4, h5, h6, h7, h8, h9, h10⟩ := ih h
    refine ⟨by simpa [pushed] using h1, by simpa [pushed] using h2, by simpa [pushed] using h3,
      by simpa [pushed] using h4, by simpa [pushed] using h5, by simpa [pushed] using h6, by simpa [pushed] using h7,
      by simpa [pushed] using h8, ?_, fun hw => h10 ?_⟩
    · rw [h9]
      simp only [pushed, postInc_sp, afterRead_sp, List.length_cons, BitVec.ofNat_add]
      rw [BitVec.add_assoc, BitVec.add_comm (1 : Word)]
      rfl
    · exact memory_wf_write _ _ _ (BitVec.isLt _) (by simpa using hw)

/-- Pushing parameters shows the devices nothing on plain memory. -/
theorem pushParams_devices {ps : List Adr} {bp : Word} {s t : State} (hs : AllRam s)
    (h : pushParams ps bp s = .next t) : t.devices = s.devices := by
  induction ps generalizing s t with
  | nil =>
    cases h
    rfl
  | cons a ps ih =>
    obtain ⟨-, -, h⟩ := pushParams_cons h
    rw [afterRead_allRam _ _ hs] at h
    simpa [pushed] using ih (allRam_congr (by simp [pushed]) hs) h

/-- Evaluating the parameters of a supervisor call shows the devices nothing on plain memory. -/
theorem collectArgs_devices {ps : List Adr} {bp : Word} {s : State} {x : State × List Word} (hs : AllRam s)
    (h : collectArgs ps bp s = .next x) : x.1.devices = s.devices := by
  induction ps generalizing s x with
  | nil =>
    cases h
    rfl
  | cons a ps ih =>
    obtain ⟨-, y, hy, rfl⟩ := collectArgs_cons h
    rw [afterRead_allRam _ _ hs] at hy
    simpa using ih (allRam_congr (by simp) hs) hy

/-- Where every address exists every parameter list is evaluated and pushed. -/
theorem pushParams_mapped (ps : List Adr) (bp : Word) (s : State) (h : AllMapped s) :
    ∃ t, pushParams ps bp s = .next t := by
  induction ps generalizing s with
  | nil => exact ⟨s, rfl⟩
  | cons a ps ih =>
    rw [pushParams, onOperand_usable _ _ _ _ (usable_of_allMapped _ s h)]
    have h' : AllMapped ((resolve a bp s).postInc ((resolve a bp s).afterRead s)) :=
      allMapped_congr (by simp) h
    rw [pushWord_mapped _ _ _ (h' _ _)]
    exact ih _ (allMapped_congr (by simp [pushed]) h)

/-- Where every address exists the parameters of every supervisor call are evaluated. -/
theorem collectArgs_mapped (ps : List Adr) (bp : Word) (s : State) (h : AllMapped s) :
    ∃ x, collectArgs ps bp s = .next x := by
  induction ps generalizing s with
  | nil => exact ⟨_, rfl⟩
  | cons a ps ih =>
    rw [collectArgs, onOperand_usable _ _ _ _ (usable_of_allMapped _ s h)]
    obtain ⟨x, hx⟩ := ih ((resolve a bp s).postInc ((resolve a bp s).afterRead s))
      (allMapped_congr (by simp) h)
    rw [hx]
    exact ⟨_, rfl⟩

/-! ### The kernel -/

/-- All the kernel's answer can do (R189, R203). -/
theorem kernelOutcome_cases (s : State) :
    (s.kernelReply = .terminate ∧ kernelOutcome s = .fault (.terminated .kernelExit)) ∨
      ∃ r, s.kernelReply = .resume r ∧ kernelOutcome s = .next (s.resumeUser r) := by
  unfold kernelOutcome
  split
  · rename_i h
    exact .inl ⟨h, rfl⟩
  · rename_i r h
    exact .inr ⟨r, h, rfl⟩

/-- A kernel that answers gives the resumed state. -/
theorem kernelOutcome_next {s t : State} (h : kernelOutcome s = .next t) :
    ∃ r, s.kernelReply = .resume r ∧ t = s.resumeUser r := by
  rcases kernelOutcome_cases s with ⟨-, e⟩ | ⟨r, hr, e⟩
  · rw [e] at h
    cases h
  · rw [e] at h
    cases h
    exact ⟨r, hr, rfl⟩

/-- A kernel that simply resumes changes nothing but the mode and the supervisor stack, the program counter reduced
(R189). -/
theorem kernelOutcome_resumesAtOnce (s : State) (h : s.params.kernel = .resumesAtOnce) :
    kernelOutcome s = .next { s with mode := .user, supStack := [], pc := s.toPc s.pc } := by
  simp only [kernelOutcome, State.kernelReply, h]
  rfl

/-- A supervisor call that hands a state to the kernel has evaluated its parameters (R189). -/
theorem supervisorCall_next {ps : List Adr} {s u : State} (h : supervisorCall ps s = .next u) :
    ∃ x, collectArgs ps s.bp s = .next x ∧ u = x.1.enterSupervisor x.2 := by
  obtain ⟨x, h1, h2⟩ := thenNext_next h
  cases h2
  exact ⟨x, h1, rfl⟩

/-- All a supervisor call up to the kernel's work can do: pointers, XH and devices change as the parameters say, the
program counter, the mode and the supervisor stack as the call does (R189). -/
theorem supervisorCall_frame {ps : List Adr} {s u : State} (h : supervisorCall ps s = .next u) :
    u.supStack.length = ps.length ∧ u.pc = s.toPc (s.pc + 1) ∧ u.xm = s.xm ∧ u.sp = s.sp ∧ u.bp = s.bp ∧
      u.mode = .supervisor ∧ u.data = s.data ∧ u.stack = s.stack ∧ u.code = s.code ∧ u.params = s.params := by
  obtain ⟨x, hx, rfl⟩ := supervisorCall_next h
  obtain ⟨h1, h2, h3, h4, h5, -, h7, h8, -, h10, h11⟩ := collectArgs_frame hx
  simp [h1, h2, h3, h4, h5, h7, h8, h10, h11, toPc_congr s x.1 h11]

/-- Where every address exists every supervisor call hands a state to the kernel. -/
theorem supervisorCall_mapped (ps : List Adr) (s : State) (h : AllMapped s) :
    ∃ u, supervisorCall ps s = .next u := by
  obtain ⟨x, hx⟩ := collectArgs_mapped ps s.bp s h
  exact ⟨_, by rw [supervisorCall, hx]; rfl⟩

end Sys2Proof.Machine
end

