-- ==== Sys2Proof/Laws/Effects.lean ====
section
/-! SUPPORT. Each shape of an instruction in the terms the statements use: a usable operand, and the frame it leaves. -/

namespace Sys2Proof.Machine

/-- An instruction that ends by advancing past its words leaves what it had before that, `pc` apart. -/
theorem leaves_advance {s t : State} {a : Adr} {regs : Reg → Word} {xm xh sp : Word} {mem : Space → Word → Word}
    {devices : List DeviceAccess} (n m : Nat) (hn : n = instrWords a + m) (hr : ∀ q, t.reg q = regs q) (hxm : t.xm = xm)
    (hxh : t.xh = xh) (hsp : t.sp = sp) (hbp : t.bp = s.bp) (hm : ∀ k x, t.readWord k x = mem k x)
    (hd : t.devices = devices) (hpc : t.pc = s.pc) (hmode : t.mode = s.mode) (hss : t.supStack = s.supStack)
    (hc : t.code = s.code) (hp : t.params = s.params) :
    Leaves s (t.advance n) regs xm xh sp s.bp mem devices (nextPc s a m) := by
  refine ⟨by simpa using hr, by simpa using hxm, by simpa using hxh, by simpa using hsp, by simpa using hbp,
    by simpa using hm, by simpa using hd, ?_, by simpa using hmode, by simpa using hss, by simpa using hc,
    by simpa using hp⟩
  simp [nextPc, hn, hpc, toPc_congr s t hp]

/-- `OP rx, adr` writes its register. -/
theorem opRx_writes {f : Word → Word → Word → AluOut} {c : Bool} {r : Reg} {a : Adr} {s : State} (i : Instr)
    (hi : exec i s = opRx f c r a s) (h : Usable a s) :
    WritesRegister i s a r (f (s.reg r) (operandValue a s) s.carry).result
      (if c then some (f (s.reg r) (operandValue a s) s.carry).carry else none) := by
  refine ⟨_, hi.trans (opRx_usable f c r a s h), leaves_advance _ 0 rfl ?_ ?_ ?_ ?_ ?_ ?_ ?_ ?_ ?_ ?_ ?_ ?_⟩
  · intro q
    cases c <;> simp [regAfter]
  all_goals simp

/-- What a write after phase 4 leaves in memory and shows the devices, `base` being the state after phase 4. -/
theorem write_frame (a : Adr) (v : Word) (s base : State) (hm : ∀ k x, base.readWord k x = s.readWord k x)
    (hp : base.params = s.params) :
    (∀ k x, ((operand a s).write v base).readWord k x = wordAfter s (operand a s).loc v k x) ∧
      ((operand a s).write v base).devices = writeLog s (operand a s).loc v base.devices := by
  refine ⟨fun k x => ?_, ?_⟩
  · rw [write_readWord, wordAfter_congr s base hm hp]
  · rw [write_devices, writeLog_congr s base hp]

/-- `OP adr, rx` writes its operand, the old value of which it reads. -/
theorem opAdr_writes {f : Word → Word → Word → AluOut} {c : Bool} {r : Reg} {a : Adr} {s : State} (i : Instr)
    (hi : exec i s = opAdr f c a r s) (h : Usable a s) :
    WritesOperand true i s a (f (operandValue a s) (s.reg r) s.carry).result
      (if c then some (f (operandValue a s) (s.reg r) s.carry).carry else none) := by
  obtain ⟨hm, hd⟩ := write_frame a (f (operandValue a s) (s.reg r) s.carry).result s (afterReads a s)
    (afterReads_readWord a s) (afterReads_params a s)
  refine ⟨_, hi.trans (opAdr_usable f c r a s h), leaves_advance _ 0 rfl ?_ ?_ ?_ ?_ ?_ ?_ ?_ ?_ ?_ ?_ ?_ ?_⟩
  · intro q
    cases c <;> simp [regAfter, write_reg]
  all_goals simp [hm, hd]

/-- `OP rx, adr` of the source alone writes its register. -/
theorem loadRx_writes {f : Word → Word} {r : Reg} {a : Adr} {s : State} (i : Instr) (hi : exec i s = loadRx f r a s)
    (h : Usable a s) : WritesRegister i s a r (f (operandValue a s)) none := by
  refine ⟨_, hi.trans (loadRx_usable f r a s h), leaves_advance _ 0 rfl ?_ ?_ ?_ ?_ ?_ ?_ ?_ ?_ ?_ ?_ ?_ ?_⟩
  · intro q
    simp [regAfter]
  all_goals simp

/-- A store writes its operand, which it does not read. -/
theorem storeAdr_writes {v : Word} {a : Adr} {s : State} (i : Instr) (hi : exec i s = storeAdr v a s)
    (h : Usable a s) : WritesOperand false i s a v none := by
  obtain ⟨hm, hd⟩ := write_frame a v s (afterPost a s) (afterPost_readWord a s) (afterPost_params a s)
  refine ⟨_, hi.trans (storeAdr_usable v a s h), leaves_advance _ 0 rfl ?_ ?_ ?_ ?_ ?_ ?_ ?_ ?_ ?_ ?_ ?_ ?_⟩
  · intro q
    simp [regAfter, write_reg]
  all_goals simp [hm, hd]

/-- A modification in place reads its operand and writes it. -/
theorem modifyAdr_writes {f : Word → Word} {a : Adr} {s : State} (i : Instr) (hi : exec i s = modifyAdr f a s)
    (h : Usable a s) : WritesOperand true i s a (f (operandValue a s)) none := by
  obtain ⟨hm, hd⟩ := write_frame a (f (operandValue a s)) s (afterReads a s) (afterReads_readWord a s)
    (afterReads_params a s)
  refine ⟨_, hi.trans (modifyAdr_usable f a s h), leaves_advance _ 0 rfl ?_ ?_ ?_ ?_ ?_ ?_ ?_ ?_ ?_ ?_ ?_ ?_⟩
  · intro q
    simp [regAfter, write_reg]
  all_goals simp [hm, hd]

/-- A load of XM, XH or SP writes what `put` does. -/
theorem loadSpecial_writes {put : State → Word → State} {a : Adr} {s : State} {xm xh sp : Word} (i : Instr)
    (hi : exec i s = loadSpecial put a s) (h : Usable a s)
    (hput : put (afterReads a s) (operandValue a s) = { afterReads a s with xm := xm, xh := xh, sp := sp }) :
    WritesSpecial i s a xm xh sp := by
  refine ⟨_, hi.trans (loadSpecial_usable put a s h), ?_⟩
  rw [hput]
  refine leaves_advance _ 0 rfl (fun q => ?_) rfl rfl rfl ?_ (fun k x => ?_) ?_ ?_ ?_ ?_ ?_ ?_
  · exact (reg_congr (afterReads a s) _ rfl q).trans (afterReads_reg a s q)
  case refine_3 => exact (readWord_congr (afterReads a s) _ rfl rfl k x).trans (afterReads_readWord a s k x)
  all_goals simp

/-- A skip passes over one word more where its condition holds. -/
theorem skipIf_skips {f : Word → Bool} {a : Adr} {s : State} (i : Instr) (hi : exec i s = skipIf f a s)
    (h : Usable a s) : Skips i s a (f (operandValue a s)) := by
  refine ⟨_, hi.trans (skipIf_usable f a s h),
    leaves_advance _ _ (by split <;> rfl) ?_ ?_ ?_ ?_ ?_ ?_ ?_ ?_ ?_ ?_ ?_ ?_⟩
  all_goals simp

/-- A jump goes to its target. -/
theorem jumpTo_jumps {f : Word → Word} {a : Adr} {s : State} (i : Instr) (hi : exec i s = jumpTo f a s)
    (h : Usable a s) : JumpsTo i s a (s.toPc (f (operandValue a s))) := by
  refine ⟨_, hi.trans (jumpTo_usable f a s h), ?_⟩
  constructor <;> intros <;> simp
  exact toPc_congr _ _ (afterReads_params a s) _

end Sys2Proof.Machine
end

