-- ==== Sys2Proof/Laws/Exec.lean ====
section
/-! SUPPORT. All an instruction with an address operand can do, calls apart, said once over every such instruction. -/

namespace Sys2Proof.Machine

/-- The next state `t` of instruction `i` with operand `a`, by where its result goes. -/
inductive ExecShape (i : Instr) (a : Adr) (s t : State) : Prop where
  /-- The result goes to the register named in `rx`, the carry value to C in the `C:` form. -/
  | register (r : Reg) (v : Word) (c : Bool) (cv : Word) (n : Nat) (hn : n = (encode i).length)
      (hr : rxDestination i = some r) (hc : carryForm i = c) (hs : storesTo i = none)
      (ht : t = (((afterReads a s).setReg r v).writeCarry c cv).advance n)
  /-- The result goes to the operand, read before or not, the carry value to C in the `C:` form. -/
  | operand (base : State) (v : Word) (c : Bool) (cv : Word) (n : Nat)
      (hb : base = if storesWithoutReading i then afterPost a s else afterReads a s) (hn : n = (encode i).length)
      (hs : storesTo i = some a) (hc : carryForm i = c)
      (ht : t = (((operand a s).write v base).writeCarry c cv).advance n)
  /-- Both are written: XCH. -/
  | exchange (r : Reg) (v w : Word) (n : Nat) (hb : storesWithoutReading i = false) (hn : n = (encode i).length)
      (hr : rxDestination i = some r) (hs : storesTo i = some a)
      (ht : t = ((operand a s).write w ((afterReads a s).setReg r v)).advance n)
  /-- The result goes to XM, XH or SP. -/
  | special (xm xh sp : Word) (n : Nat) (hn : n = (encode i).length)
      (hm : xm = s.xm ∨ (∃ a, i = .movXMAdr a) ∨ ∃ n a, i = .movXmnAdr n a)
      (hh : xh = (afterPost a s).xh ∨ (∃ a, i = .movXHAdr a) ∨ ∃ n a, i = .movXhnAdr n a)
      (hp : sp = s.sp ∨ (∃ a, i = .movSpAdr a) ∨ (∃ a, i = .addSpAdr a) ∨ ∃ a, i = .subSpAdr a)
      (hr : rxDestination i = none) (hs : storesTo i = none)
      (ht : t = { afterReads a s with xm := xm, xh := xh, sp := sp }.advance n)
  /-- Nothing but the program counter, after the post-increment: jumps and skips. -/
  | jump (v : Word) (hr : rxDestination i = none) (hs : storesTo i = none) (ht : t = (afterReads a s).setPc v)

/-- An encoding has as many words as the instruction takes (R63). -/
theorem encodeWith_instrWords (hi : BitVec 10) (a : Adr) : (encodeWith hi a).length = instrWords a := by
  cases a <;> rfl

/-- Every instruction with an address operand that is no call, where it completes. -/
theorem exec_shape (i : Instr) (a : Adr) (s t : State) (ha : operandOf i = some a)
    (hc : ∀ b c ps, i ≠ callInstr b c ps) (h : exec i s = .next t) : Usable a s ∧ ExecShape i a s t := by
  cases i
  case jfr b ps => exact absurd rfl (hc false b ps)
  case jfa b ps => exact absurd rfl (hc true b ps)
  case movAdrRx b r =>
    obtain rfl : b = a := Option.some.inj ha
    obtain ⟨hu, rfl⟩ := storeAdr_next (v := (s.reg r)) h
    exact ⟨hu, .operand _ _ false 0 _ rfl (encodeWith_instrWords _ b).symm rfl rfl rfl⟩
  case movRxAdr r b =>
    obtain rfl : b = a := Option.some.inj ha
    obtain ⟨hu, rfl⟩ := loadRx_next (f := fun v => v) h
    exact ⟨hu, .register _ _ false 0 _ (encodeWith_instrWords _ b).symm rfl rfl rfl rfl⟩
  case movAdrXmn n b =>
    obtain rfl : b = a := Option.some.inj ha
    obtain ⟨hu, rfl⟩ := storeAdr_next (v := ((part s.xm n).zeroExtend 16)) h
    exact ⟨hu, .operand _ _ false 0 _ rfl (encodeWith_instrWords _ b).symm rfl rfl rfl⟩
  case movAdrXhn n b =>
    obtain rfl : b = a := Option.some.inj ha
    obtain ⟨hu, rfl⟩ := storeAdr_next (v := ((part s.xh n).zeroExtend 16)) h
    exact ⟨hu, .operand _ _ false 0 _ rfl (encodeWith_instrWords _ b).symm rfl rfl rfl⟩
  case movXmnAdr n b =>
    obtain rfl : b = a := Option.some.inj ha
    obtain ⟨hu, rfl⟩ := loadSpecial_next (f := fun t v => { t with xm := setPart t.xm n (v.extractLsb' 0 4) }) h
    exact ⟨hu, .special (setPart (afterReads b s).xm n ((operandValue b s).extractLsb' 0 4)) (afterReads b s).xh
      (afterReads b s).sp _ (encodeWith_instrWords _ b).symm (.inr (by simp)) (.inl (afterReads_xh b s)) (.inl (by simp))
      rfl rfl rfl⟩
  case movXhnAdr n b =>
    obtain rfl : b = a := Option.some.inj ha
    obtain ⟨hu, rfl⟩ := loadSpecial_next (f := fun t v => { t with xh := setPart t.xh n (v.extractLsb' 0 4) }) h
    exact ⟨hu, .special (afterReads b s).xm (setPart (afterReads b s).xh n ((operandValue b s).extractLsb' 0 4))
      (afterReads b s).sp _ (encodeWith_instrWords _ b).symm (.inl (by simp)) (.inr (by simp)) (.inl (by simp)) rfl rfl
      rfl⟩
  case addAdrRx b r | addCAdrRx b r | subAdrRx b r | subCAdrRx b r | divAdrRx b r | divCAdrRx b r | adcAdrRx b r |
    adcCAdrRx b r | sbcAdrRx b r | sbcCAdrRx b r | mulAdrRx b r | mulCAdrRx b r | shlAdrRx b r | shlCAdrRx b r |
    shrAdrRx b r | shrCAdrRx b r | macAdrRx b r | macCAdrRx b r | asrAdrRx b r | asrCAdrRx b r | slcAdrRx b r |
    slcCAdrRx b r | srcAdrRx b r | srcCAdrRx b r | orAdrRx b r | andAdrRx b r | xorAdrRx b r =>
    obtain rfl : b = a := Option.some.inj ha
    obtain ⟨hu, rfl⟩ := opAdr_next h
    exact ⟨hu, .operand _ _ _ _ _ rfl (encodeWith_instrWords _ b).symm rfl rfl rfl⟩
  case addRxAdr r b | addCRxAdr r b | subRxAdr r b | subCRxAdr r b | divRxAdr r b | divCRxAdr r b | adcRxAdr r b |
    adcCRxAdr r b | sbcRxAdr r b | sbcCRxAdr r b | mulRxAdr r b | mulCRxAdr r b | shlRxAdr r b | shlCRxAdr r b |
    shrRxAdr r b | shrCRxAdr r b | macRxAdr r b | macCRxAdr r b | asrRxAdr r b | asrCRxAdr r b | slcRxAdr r b |
    slcCRxAdr r b | srcRxAdr r b | srcCRxAdr r b | orRxAdr r b | andRxAdr r b | xorRxAdr r b =>
    obtain rfl : b = a := Option.some.inj ha
    obtain ⟨hu, rfl⟩ := opRx_next h
    exact ⟨hu, .register _ _ _ _ _ (encodeWith_instrWords _ b).symm rfl rfl rfl rfl⟩
  case xchAdrRx b r =>
    obtain rfl : b = a := Option.some.inj ha
    obtain ⟨hu, rfl⟩ := exchange_next h
    exact ⟨hu, .exchange _ _ _ _ rfl (encodeWith_instrWords _ b).symm rfl rfl rfl⟩
  case xchRxAdr r b =>
    obtain rfl : b = a := Option.some.inj ha
    obtain ⟨hu, rfl⟩ := exchange_next h
    exact ⟨hu, .exchange _ _ _ _ rfl (encodeWith_instrWords _ b).symm rfl rfl rfl⟩
  case notAdrRx b r =>
    obtain rfl : b = a := Option.some.inj ha
    obtain ⟨hu, rfl⟩ := storeAdr_next (v := (aluNot (s.reg r))) h
    exact ⟨hu, .operand _ _ false 0 _ rfl (encodeWith_instrWords _ b).symm rfl rfl rfl⟩
  case notRxAdr r b | negRxAdr r b =>
    obtain rfl : b = a := Option.some.inj ha
    obtain ⟨hu, rfl⟩ := loadRx_next h
    exact ⟨hu, .register _ _ false 0 _ (encodeWith_instrWords _ b).symm rfl rfl rfl rfl⟩
  case negAdrRx b r =>
    obtain rfl : b = a := Option.some.inj ha
    obtain ⟨hu, rfl⟩ := storeAdr_next (v := (aluNeg (s.reg r))) h
    exact ⟨hu, .operand _ _ false 0 _ rfl (encodeWith_instrWords _ b).symm rfl rfl rfl⟩
  case movAdrXM b =>
    obtain rfl : b = a := Option.some.inj ha
    obtain ⟨hu, rfl⟩ := storeAdr_next (v := s.xm) h
    exact ⟨hu, .operand _ _ false 0 _ rfl (encodeWith_instrWords _ b).symm rfl rfl rfl⟩
  case movAdrXH b =>
    obtain rfl : b = a := Option.some.inj ha
    obtain ⟨hu, rfl⟩ := storeAdr_next (v := s.xh) h
    exact ⟨hu, .operand _ _ false 0 _ rfl (encodeWith_instrWords _ b).symm rfl rfl rfl⟩
  case movAdrSp b =>
    obtain rfl : b = a := Option.some.inj ha
    obtain ⟨hu, rfl⟩ := storeAdr_next (v := s.sp) h
    exact ⟨hu, .operand _ _ false 0 _ rfl (encodeWith_instrWords _ b).symm rfl rfl rfl⟩
  case movXMAdr b =>
    obtain rfl : b = a := Option.some.inj ha
    obtain ⟨hu, rfl⟩ := loadSpecial_next (f := fun t v => { t with xm := v }) h
    exact ⟨hu, .special (operandValue b s) (afterReads b s).xh (afterReads b s).sp _ (encodeWith_instrWords _ b).symm
      (.inr (by simp)) (.inl (afterReads_xh b s)) (.inl (by simp)) rfl rfl rfl⟩
  case movXHAdr b =>
    obtain rfl : b = a := Option.some.inj ha
    obtain ⟨hu, rfl⟩ := loadSpecial_next (f := fun t v => { t with xh := v }) h
    exact ⟨hu, .special (afterReads b s).xm (operandValue b s) (afterReads b s).sp _ (encodeWith_instrWords _ b).symm
      (.inl (by simp)) (.inr (by simp)) (.inl (by simp)) rfl rfl rfl⟩
  case movSpAdr b =>
    obtain rfl : b = a := Option.some.inj ha
    obtain ⟨hu, rfl⟩ := loadSpecial_next (f := fun t v => { t with sp := v }) h
    exact ⟨hu, .special (afterReads b s).xm (afterReads b s).xh (operandValue b s) _ (encodeWith_instrWords _ b).symm
      (.inl (by simp)) (.inl (afterReads_xh b s)) (.inr (by simp)) rfl rfl rfl⟩
  case addSpAdr b =>
    obtain rfl : b = a := Option.some.inj ha
    obtain ⟨hu, rfl⟩ := loadSpecial_next (f := fun t v => { t with sp := t.sp + v }) h
    exact ⟨hu, .special (afterReads b s).xm (afterReads b s).xh ((afterReads b s).sp + (operandValue b s)) _
      (encodeWith_instrWords _ b).symm (.inl (by simp)) (.inl (afterReads_xh b s)) (.inr (by simp)) rfl rfl rfl⟩
  case jmr b =>
    obtain rfl : b = a := Option.some.inj ha
    obtain ⟨hu, rfl⟩ := jumpTo_next (f := fun v => s.pc + v) h
    exact ⟨hu, .jump _ rfl rfl rfl⟩
  case jma b =>
    obtain rfl : b = a := Option.some.inj ha
    obtain ⟨hu, rfl⟩ := jumpTo_next (f := fun v => v) h
    exact ⟨hu, .jump _ rfl rfl rfl⟩
  case subSpAdr b =>
    obtain rfl : b = a := Option.some.inj ha
    obtain ⟨hu, rfl⟩ := loadSpecial_next (f := fun t v => { t with sp := t.sp - v }) h
    exact ⟨hu, .special (afterReads b s).xm (afterReads b s).xh ((afterReads b s).sp - (operandValue b s)) _
      (encodeWith_instrWords _ b).symm (.inl (by simp)) (.inl (afterReads_xh b s)) (.inr (by simp)) rfl rfl rfl⟩
  case btc b k =>
    obtain rfl : b = a := Option.some.inj ha
    obtain ⟨hu, rfl⟩ := modifyAdr_next (f := fun v => v &&& ~~~(bitMask k)) h
    exact ⟨hu, .operand _ _ false 0 _ rfl (encodeWith_instrWords _ b).symm rfl rfl rfl⟩
  case xbc b k =>
    obtain rfl : b = a := Option.some.inj ha
    obtain ⟨hu, rfl⟩ := skipIf_next (f := fun v => !v.getLsbD k.toNat) h
    exact ⟨hu, .jump _ rfl rfl rfl⟩
  case bts b k =>
    obtain rfl : b = a := Option.some.inj ha
    obtain ⟨hu, rfl⟩ := modifyAdr_next (f := fun v => v ||| bitMask k) h
    exact ⟨hu, .operand _ _ false 0 _ rfl (encodeWith_instrWords _ b).symm rfl rfl rfl⟩
  case xbs b k =>
    obtain rfl : b = a := Option.some.inj ha
    obtain ⟨hu, rfl⟩ := skipIf_next (f := fun v => v.getLsbD k.toNat) h
    exact ⟨hu, .jump _ rfl rfl rfl⟩
  case xeqAdrRx b r =>
    obtain rfl : b = a := Option.some.inj ha
    obtain ⟨hu, rfl⟩ := skipIf_next (f := fun v => v == s.reg r) h
    exact ⟨hu, .jump _ rfl rfl rfl⟩
  case xeqRxAdr r b =>
    obtain rfl : b = a := Option.some.inj ha
    obtain ⟨hu, rfl⟩ := skipIf_next (f := fun v => s.reg r == v) h
    exact ⟨hu, .jump _ rfl rfl rfl⟩
  case xsgAdrRx b r =>
    obtain rfl : b = a := Option.some.inj ha
    obtain ⟨hu, rfl⟩ := skipIf_next (f := fun v => signedGreater v (s.reg r)) h
    exact ⟨hu, .jump _ rfl rfl rfl⟩
  case xsgRxAdr r b =>
    obtain rfl : b = a := Option.some.inj ha
    obtain ⟨hu, rfl⟩ := skipIf_next (f := fun v => signedGreater (s.reg r) v) h
    exact ⟨hu, .jump _ rfl rfl rfl⟩
  case xneAdrRx b r =>
    obtain rfl : b = a := Option.some.inj ha
    obtain ⟨hu, rfl⟩ := skipIf_next (f := fun v => v != s.reg r) h
    exact ⟨hu, .jump _ rfl rfl rfl⟩
  case xneRxAdr r b =>
    obtain rfl : b = a := Option.some.inj ha
    obtain ⟨hu, rfl⟩ := skipIf_next (f := fun v => s.reg r != v) h
    exact ⟨hu, .jump _ rfl rfl rfl⟩
  case xugAdrRx b r =>
    obtain rfl : b = a := Option.some.inj ha
    obtain ⟨hu, rfl⟩ := skipIf_next (f := fun v => unsignedGreater v (s.reg r)) h
    exact ⟨hu, .jump _ rfl rfl rfl⟩
  case xugRxAdr r b =>
    obtain rfl : b = a := Option.some.inj ha
    obtain ⟨hu, rfl⟩ := skipIf_next (f := fun v => unsignedGreater (s.reg r) v) h
    exact ⟨hu, .jump _ rfl rfl rfl⟩
  all_goals exact absurd ha nofun

/-! ### An operand is looked up before anything else -/

theorem opRx_onOperand (f : Word → Word → Word → AluOut) (c : Bool) (r : Reg) (a : Adr) (s : State) :
    ∃ g : Operand → State, opRx f c r a s = onOperand a s.bp s fun o => .next (g o) := ⟨_, rfl⟩

theorem opAdr_onOperand (f : Word → Word → Word → AluOut) (c : Bool) (a : Adr) (r : Reg) (s : State) :
    ∃ g : Operand → State, opAdr f c a r s = onOperand a s.bp s fun o => .next (g o) := ⟨_, rfl⟩

theorem loadRx_onOperand (f : Word → Word) (r : Reg) (a : Adr) (s : State) :
    ∃ g : Operand → State, loadRx f r a s = onOperand a s.bp s fun o => .next (g o) := ⟨_, rfl⟩

theorem storeAdr_onOperand (v : Word) (a : Adr) (s : State) :
    ∃ g : Operand → State, storeAdr v a s = onOperand a s.bp s fun o => .next (g o) := ⟨_, rfl⟩

theorem loadSpecial_onOperand (put : State → Word → State) (a : Adr) (s : State) :
    ∃ g : Operand → State, loadSpecial put a s = onOperand a s.bp s fun o => .next (g o) := ⟨_, rfl⟩

theorem exchange_onOperand (r : Reg) (a : Adr) (s : State) :
    ∃ g : Operand → State, exchange r a s = onOperand a s.bp s fun o => .next (g o) := ⟨_, rfl⟩

theorem modifyAdr_onOperand (f : Word → Word) (a : Adr) (s : State) :
    ∃ g : Operand → State, modifyAdr f a s = onOperand a s.bp s fun o => .next (g o) := ⟨_, rfl⟩

theorem skipIf_onOperand (f : Word → Bool) (a : Adr) (s : State) :
    ∃ g : Operand → State, skipIf f a s = onOperand a s.bp s fun o => .next (g o) := ⟨_, rfl⟩

theorem jumpTo_onOperand (f : Word → Word) (a : Adr) (s : State) :
    ∃ g : Operand → State, jumpTo f a s = onOperand a s.bp s fun o => .next (g o) := ⟨_, rfl⟩

/-- Every instruction with an address operand that is no call looks its operand up, and where it can be accessed
completes (R81, R41). -/
theorem exec_onOperand (i : Instr) (a : Adr) (s : State) (ha : operandOf i = some a)
    (hc : ∀ b c ps, i ≠ callInstr b c ps) :
    ∃ g : Operand → State, exec i s = onOperand a s.bp s fun o => .next (g o) := by
  cases i
  case jfr b ps => exact absurd rfl (hc false b ps)
  case jfa b ps => exact absurd rfl (hc true b ps)
  case movAdrRx b r | movAdrXmn n b | movAdrXhn n b | notAdrRx b r | negAdrRx b r | movAdrXM b | movAdrXH b |
    movAdrSp b =>
    obtain rfl : b = a := Option.some.inj ha
    exact storeAdr_onOperand _ _ _
  case movRxAdr r b =>
    obtain rfl : b = a := Option.some.inj ha
    exact loadRx_onOperand (fun v => v) _ _ _
  case movXmnAdr n b =>
    obtain rfl : b = a := Option.some.inj ha
    exact loadSpecial_onOperand (fun t v => { t with xm := setPart t.xm n (v.extractLsb' 0 4) }) _ _
  case movXhnAdr n b =>
    obtain rfl : b = a := Option.some.inj ha
    exact loadSpecial_onOperand (fun t v => { t with xh := setPart t.xh n (v.extractLsb' 0 4) }) _ _
  case addAdrRx b r | addCAdrRx b r | subAdrRx b r | subCAdrRx b r | divAdrRx b r | divCAdrRx b r | adcAdrRx b r |
    adcCAdrRx b r | sbcAdrRx b r | sbcCAdrRx b r | mulAdrRx b r | mulCAdrRx b r | shlAdrRx b r | shlCAdrRx b r |
    shrAdrRx b r | shrCAdrRx b r | macAdrRx b r | macCAdrRx b r | asrAdrRx b r | asrCAdrRx b r | slcAdrRx b r |
    slcCAdrRx b r | srcAdrRx b r | srcCAdrRx b r | orAdrRx b r | andAdrRx b r | xorAdrRx b r =>
    obtain rfl : b = a := Option.some.inj ha
    exact opAdr_onOperand _ _ _ _ _
  case addRxAdr r b | addCRxAdr r b | subRxAdr r b | subCRxAdr r b | divRxAdr r b | divCRxAdr r b | adcRxAdr r b |
    adcCRxAdr r b | sbcRxAdr r b | sbcCRxAdr r b | mulRxAdr r b | mulCRxAdr r b | shlRxAdr r b | shlCRxAdr r b |
    shrRxAdr r b | shrCRxAdr r b | macRxAdr r b | macCRxAdr r b | asrRxAdr r b | asrCRxAdr r b | slcRxAdr r b |
    slcCRxAdr r b | srcRxAdr r b | srcCRxAdr r b | orRxAdr r b | andRxAdr r b | xorRxAdr r b =>
    obtain rfl : b = a := Option.some.inj ha
    exact opRx_onOperand _ _ _ _ _
  case xchAdrRx b r | xchRxAdr r b =>
    obtain rfl : b = a := Option.some.inj ha
    exact exchange_onOperand _ _ _
  case notRxAdr r b | negRxAdr r b =>
    obtain rfl : b = a := Option.some.inj ha
    exact loadRx_onOperand _ _ _ _
  case movXMAdr b =>
    obtain rfl : b = a := Option.some.inj ha
    exact loadSpecial_onOperand (fun t v => { t with xm := v }) _ _
  case movXHAdr b =>
    obtain rfl : b = a := Option.some.inj ha
    exact loadSpecial_onOperand (fun t v => { t with xh := v }) _ _
  case movSpAdr b =>
    obtain rfl : b = a := Option.some.inj ha
    exact loadSpecial_onOperand (fun t v => { t with sp := v }) _ _
  case addSpAdr b =>
    obtain rfl : b = a := Option.some.inj ha
    exact loadSpecial_onOperand (fun t v => { t with sp := t.sp + v }) _ _
  case jmr b =>
    obtain rfl : b = a := Option.some.inj ha
    exact jumpTo_onOperand (fun v => s.pc + v) _ _
  case jma b =>
    obtain rfl : b = a := Option.some.inj ha
    exact jumpTo_onOperand (fun v => v) _ _
  case subSpAdr b =>
    obtain rfl : b = a := Option.some.inj ha
    exact loadSpecial_onOperand (fun t v => { t with sp := t.sp - v }) _ _
  case btc b k =>
    obtain rfl : b = a := Option.some.inj ha
    exact modifyAdr_onOperand (fun v => v &&& ~~~(bitMask k)) _ _
  case xbc b k =>
    obtain rfl : b = a := Option.some.inj ha
    exact skipIf_onOperand (fun v => !v.getLsbD k.toNat) _ _
  case bts b k =>
    obtain rfl : b = a := Option.some.inj ha
    exact modifyAdr_onOperand (fun v => v ||| bitMask k) _ _
  case xbs b k =>
    obtain rfl : b = a := Option.some.inj ha
    exact skipIf_onOperand (fun v => v.getLsbD k.toNat) _ _
  case xeqAdrRx b r =>
    obtain rfl : b = a := Option.some.inj ha
    exact skipIf_onOperand (fun v => v == s.reg r) _ _
  case xeqRxAdr r b =>
    obtain rfl : b = a := Option.some.inj ha
    exact skipIf_onOperand (fun v => s.reg r == v) _ _
  case xsgAdrRx b r =>
    obtain rfl : b = a := Option.some.inj ha
    exact skipIf_onOperand (fun v => signedGreater v (s.reg r)) _ _
  case xsgRxAdr r b =>
    obtain rfl : b = a := Option.some.inj ha
    exact skipIf_onOperand (fun v => signedGreater (s.reg r) v) _ _
  case xneAdrRx b r =>
    obtain rfl : b = a := Option.some.inj ha
    exact skipIf_onOperand (fun v => v != s.reg r) _ _
  case xneRxAdr r b =>
    obtain rfl : b = a := Option.some.inj ha
    exact skipIf_onOperand (fun v => s.reg r != v) _ _
  case xugAdrRx b r =>
    obtain rfl : b = a := Option.some.inj ha
    exact skipIf_onOperand (fun v => unsignedGreater v (s.reg r)) _ _
  case xugRxAdr r b =>
    obtain rfl : b = a := Option.some.inj ha
    exact skipIf_onOperand (fun v => unsignedGreater (s.reg r) v) _ _
  all_goals exact absurd ha nofun

/-- A call looks its target operand up before it touches the stack (R186). -/
theorem callInstr_onOperand (b : Bool) (a : Adr) (ps : List Adr) (s : State) :
    ∃ k, exec (callInstr b a ps) s = onOperand a s.bp s k := by
  cases b
  · exact ⟨_, (rfl : callTo (fun v => s.pc + v) a ps s = _)⟩
  · exact ⟨_, (rfl : callTo (fun v => v) a ps s = _)⟩

/-! ### Calls -/

/-- Reducing a code address twice is reducing it once. -/
theorem toPc_toPc (s : State) (v : Word) : s.toPc (s.toPc v) = s.toPc v := toPc_of_lt s _ (toPc_lt s v)

/-- All a call can do: its operand and the two words of the frame can be accessed, the frame is entered, the parameters
are pushed, and the program counter is at the target (R186, R187). -/
theorem callInstr_next {b : Bool} {a : Adr} {ps : List Adr} {s t : State} (h : exec (callInstr b a ps) s = .next t) :
    Usable a s ∧ s.isMapped .stack s.tos = true ∧ s.isMapped .stack (s.tos + 1) = true ∧
      ∃ u, pushParams ps s.bp (framed (afterReads a s) (nextPc s a 0)) = .next u ∧
        t = u.setPc (callTarget b a s) := by
  have key : ∀ u v, pushParams ps s.bp (framed (afterReads a s) (nextPc s a 0)) = .next u →
      u.setPc v = u.setPc (s.toPc v) := by
    intro u v hu
    have hp : u.params = s.params := by simpa [framed, afterReads] using (pushParams_frame hu).2.2.2.2.2.2.2.1
    simp only [State.setPc, toPc_congr s u hp, toPc_toPc]
  cases b
  · obtain ⟨h1, h2, h3, u, h4, h5⟩ := callTo_next (f := fun v => s.pc + v) h
    exact ⟨h1, h2, h3, u, h4, h5.trans (key u _ h4)⟩
  · obtain ⟨h1, h2, h3, u, h4, h5⟩ := callTo_next (f := fun v => v) h
    exact ⟨h1, h2, h3, u, h4, h5.trans (key u _ h4)⟩

/-- All a supervisor call can do: the kernel's answer to the state the call hands it (R189). -/
theorem jsv_next {ps : List Adr} {s t : State} (h : exec (.jsv ps) s = .next t) :
    ∃ u r, supervisorCall ps s = .next u ∧ u.kernelReply = .resume r ∧ t = u.resumeUser r := by
  obtain ⟨u, h1, h2⟩ := thenNext_next h
  obtain ⟨r, h3, h4⟩ := kernelOutcome_next h2
  exact ⟨u, r, h1, h3, h4⟩

end Sys2Proof.Machine
end

