-- ==== Sys2Proof/Laws/PerInstr.lean ====
section
/-! SUPPORT. Per-instruction families: for each constructor of Instr, how many words its encoding takes (R63, R185). -/

namespace Sys2Proof.Laws.EncodedSize

/-- A well-formed instruction takes at least one word and at most the 34 that a step fetches (R63, R185). -/
def Statement (i : Instr) : Prop := i.wf = true → 1 ≤ (encode i).length ∧ (encode i).length ≤ maxInstrWords

theorem ofOperand (i : Instr) (hi : BitVec 10) (a : Adr) (h : encode i = encodeWith hi a) : Statement i := fun _ => by
  obtain ⟨h1, h2⟩ := encodeWith_length hi a
  rw [h]
  exact ⟨h1, h2.trans (by decide)⟩

theorem ofWord (i : Instr) (w : Word) (h : encode i = [w]) : Statement i := fun _ => by
  rw [h]
  exact ⟨le_refl 1, (by decide : 1 ≤ maxInstrWords)⟩

theorem ofCall (i : Instr) (hi : BitVec 10) (a : Adr) (ps : List Adr) (hw : i.wf = paramsOk ps)
    (h : encode i = encodeWith hi a ++ encodeParams ps) : Statement i := fun w => by
  obtain ⟨h1, h2⟩ := encodeWith_length hi a
  have h3 := encodeParams_length ps
  have hw : ps.length ≤ 16 := of_decide_eq_true (hw.symm.trans w)
  rw [h, List.length_append, maxInstrWords]
  omega

theorem movAdrRx (a : Adr) (r : Reg) : Statement (.movAdrRx a r) := ofOperand _ _ a rfl
theorem movRxAdr (r : Reg) (a : Adr) : Statement (.movRxAdr r a) := ofOperand _ _ a rfl
theorem movAdrXmn (n : PartNo) (a : Adr) : Statement (.movAdrXmn n a) := ofOperand _ _ a rfl
theorem movAdrXhn (n : PartNo) (a : Adr) : Statement (.movAdrXhn n a) := ofOperand _ _ a rfl
theorem movXmnAdr (n : PartNo) (a : Adr) : Statement (.movXmnAdr n a) := ofOperand _ _ a rfl
theorem movXhnAdr (n : PartNo) (a : Adr) : Statement (.movXhnAdr n a) := ofOperand _ _ a rfl
theorem addAdrRx (a : Adr) (r : Reg) : Statement (.addAdrRx a r) := ofOperand _ _ a rfl
theorem addRxAdr (r : Reg) (a : Adr) : Statement (.addRxAdr r a) := ofOperand _ _ a rfl
theorem addCAdrRx (a : Adr) (r : Reg) : Statement (.addCAdrRx a r) := ofOperand _ _ a rfl
theorem addCRxAdr (r : Reg) (a : Adr) : Statement (.addCRxAdr r a) := ofOperand _ _ a rfl
theorem subAdrRx (a : Adr) (r : Reg) : Statement (.subAdrRx a r) := ofOperand _ _ a rfl
theorem subRxAdr (r : Reg) (a : Adr) : Statement (.subRxAdr r a) := ofOperand _ _ a rfl
theorem subCAdrRx (a : Adr) (r : Reg) : Statement (.subCAdrRx a r) := ofOperand _ _ a rfl
theorem subCRxAdr (r : Reg) (a : Adr) : Statement (.subCRxAdr r a) := ofOperand _ _ a rfl
theorem xchAdrRx (a : Adr) (r : Reg) : Statement (.xchAdrRx a r) := ofOperand _ _ a rfl
theorem xchRxAdr (r : Reg) (a : Adr) : Statement (.xchRxAdr r a) := ofOperand _ _ a rfl
theorem divAdrRx (a : Adr) (r : Reg) : Statement (.divAdrRx a r) := ofOperand _ _ a rfl
theorem divRxAdr (r : Reg) (a : Adr) : Statement (.divRxAdr r a) := ofOperand _ _ a rfl
theorem divCAdrRx (a : Adr) (r : Reg) : Statement (.divCAdrRx a r) := ofOperand _ _ a rfl
theorem divCRxAdr (r : Reg) (a : Adr) : Statement (.divCRxAdr r a) := ofOperand _ _ a rfl
theorem adcAdrRx (a : Adr) (r : Reg) : Statement (.adcAdrRx a r) := ofOperand _ _ a rfl
theorem adcRxAdr (r : Reg) (a : Adr) : Statement (.adcRxAdr r a) := ofOperand _ _ a rfl
theorem adcCAdrRx (a : Adr) (r : Reg) : Statement (.adcCAdrRx a r) := ofOperand _ _ a rfl
theorem adcCRxAdr (r : Reg) (a : Adr) : Statement (.adcCRxAdr r a) := ofOperand _ _ a rfl
theorem sbcAdrRx (a : Adr) (r : Reg) : Statement (.sbcAdrRx a r) := ofOperand _ _ a rfl
theorem sbcRxAdr (r : Reg) (a : Adr) : Statement (.sbcRxAdr r a) := ofOperand _ _ a rfl
theorem sbcCAdrRx (a : Adr) (r : Reg) : Statement (.sbcCAdrRx a r) := ofOperand _ _ a rfl
theorem sbcCRxAdr (r : Reg) (a : Adr) : Statement (.sbcCRxAdr r a) := ofOperand _ _ a rfl
theorem mulAdrRx (a : Adr) (r : Reg) : Statement (.mulAdrRx a r) := ofOperand _ _ a rfl
theorem mulRxAdr (r : Reg) (a : Adr) : Statement (.mulRxAdr r a) := ofOperand _ _ a rfl
theorem mulCAdrRx (a : Adr) (r : Reg) : Statement (.mulCAdrRx a r) := ofOperand _ _ a rfl
theorem mulCRxAdr (r : Reg) (a : Adr) : Statement (.mulCRxAdr r a) := ofOperand _ _ a rfl
theorem notAdrRx (a : Adr) (r : Reg) : Statement (.notAdrRx a r) := ofOperand _ _ a rfl
theorem notRxAdr (r : Reg) (a : Adr) : Statement (.notRxAdr r a) := ofOperand _ _ a rfl
theorem shlAdrRx (a : Adr) (r : Reg) : Statement (.shlAdrRx a r) := ofOperand _ _ a rfl
theorem shlRxAdr (r : Reg) (a : Adr) : Statement (.shlRxAdr r a) := ofOperand _ _ a rfl
theorem shlCAdrRx (a : Adr) (r : Reg) : Statement (.shlCAdrRx a r) := ofOperand _ _ a rfl
theorem shlCRxAdr (r : Reg) (a : Adr) : Statement (.shlCRxAdr r a) := ofOperand _ _ a rfl
theorem shrAdrRx (a : Adr) (r : Reg) : Statement (.shrAdrRx a r) := ofOperand _ _ a rfl
theorem shrRxAdr (r : Reg) (a : Adr) : Statement (.shrRxAdr r a) := ofOperand _ _ a rfl
theorem shrCAdrRx (a : Adr) (r : Reg) : Statement (.shrCAdrRx a r) := ofOperand _ _ a rfl
theorem shrCRxAdr (r : Reg) (a : Adr) : Statement (.shrCRxAdr r a) := ofOperand _ _ a rfl
theorem macAdrRx (a : Adr) (r : Reg) : Statement (.macAdrRx a r) := ofOperand _ _ a rfl
theorem macRxAdr (r : Reg) (a : Adr) : Statement (.macRxAdr r a) := ofOperand _ _ a rfl
theorem macCAdrRx (a : Adr) (r : Reg) : Statement (.macCAdrRx a r) := ofOperand _ _ a rfl
theorem macCRxAdr (r : Reg) (a : Adr) : Statement (.macCRxAdr r a) := ofOperand _ _ a rfl
theorem asrAdrRx (a : Adr) (r : Reg) : Statement (.asrAdrRx a r) := ofOperand _ _ a rfl
theorem asrRxAdr (r : Reg) (a : Adr) : Statement (.asrRxAdr r a) := ofOperand _ _ a rfl
theorem asrCAdrRx (a : Adr) (r : Reg) : Statement (.asrCAdrRx a r) := ofOperand _ _ a rfl
theorem asrCRxAdr (r : Reg) (a : Adr) : Statement (.asrCRxAdr r a) := ofOperand _ _ a rfl
theorem slcAdrRx (a : Adr) (r : Reg) : Statement (.slcAdrRx a r) := ofOperand _ _ a rfl
theorem slcRxAdr (r : Reg) (a : Adr) : Statement (.slcRxAdr r a) := ofOperand _ _ a rfl
theorem slcCAdrRx (a : Adr) (r : Reg) : Statement (.slcCAdrRx a r) := ofOperand _ _ a rfl
theorem slcCRxAdr (r : Reg) (a : Adr) : Statement (.slcCRxAdr r a) := ofOperand _ _ a rfl
theorem srcAdrRx (a : Adr) (r : Reg) : Statement (.srcAdrRx a r) := ofOperand _ _ a rfl
theorem srcRxAdr (r : Reg) (a : Adr) : Statement (.srcRxAdr r a) := ofOperand _ _ a rfl
theorem srcCAdrRx (a : Adr) (r : Reg) : Statement (.srcCAdrRx a r) := ofOperand _ _ a rfl
theorem srcCRxAdr (r : Reg) (a : Adr) : Statement (.srcCRxAdr r a) := ofOperand _ _ a rfl
theorem orAdrRx (a : Adr) (r : Reg) : Statement (.orAdrRx a r) := ofOperand _ _ a rfl
theorem orRxAdr (r : Reg) (a : Adr) : Statement (.orRxAdr r a) := ofOperand _ _ a rfl
theorem andAdrRx (a : Adr) (r : Reg) : Statement (.andAdrRx a r) := ofOperand _ _ a rfl
theorem andRxAdr (r : Reg) (a : Adr) : Statement (.andRxAdr r a) := ofOperand _ _ a rfl
theorem xorAdrRx (a : Adr) (r : Reg) : Statement (.xorAdrRx a r) := ofOperand _ _ a rfl
theorem xorRxAdr (r : Reg) (a : Adr) : Statement (.xorRxAdr r a) := ofOperand _ _ a rfl
theorem negAdrRx (a : Adr) (r : Reg) : Statement (.negAdrRx a r) := ofOperand _ _ a rfl
theorem negRxAdr (r : Reg) (a : Adr) : Statement (.negRxAdr r a) := ofOperand _ _ a rfl
theorem movAdrXM (a : Adr) : Statement (.movAdrXM a) := ofOperand _ _ a rfl
theorem movAdrXH (a : Adr) : Statement (.movAdrXH a) := ofOperand _ _ a rfl
theorem movAdrSp (a : Adr) : Statement (.movAdrSp a) := ofOperand _ _ a rfl
theorem movXMAdr (a : Adr) : Statement (.movXMAdr a) := ofOperand _ _ a rfl
theorem movXHAdr (a : Adr) : Statement (.movXHAdr a) := ofOperand _ _ a rfl
theorem movSpAdr (a : Adr) : Statement (.movSpAdr a) := ofOperand _ _ a rfl
theorem jms (off : BitVec 10) : Statement (.jms off) := ofWord _ _ rfl
theorem jfr (a : Adr) (ps : List Adr) : Statement (.jfr a ps) := ofCall _ _ a ps rfl rfl
theorem jsv (ps : List Adr) : Statement (.jsv ps) := fun w => by
  have h3 := encodeParams_length ps
  have hw : ps.length ≤ 16 := of_decide_eq_true w
  rw [encode, List.length_cons, maxInstrWords]
  omega
theorem jfa (a : Adr) (ps : List Adr) : Statement (.jfa a ps) := ofCall _ _ a ps rfl rfl
theorem rfn : Statement .rfn := ofWord _ _ rfl
theorem addSpAdr (a : Adr) : Statement (.addSpAdr a) := ofOperand _ _ a rfl
theorem jmr (a : Adr) : Statement (.jmr a) := ofOperand _ _ a rfl
theorem jma (a : Adr) : Statement (.jma a) := ofOperand _ _ a rfl
theorem subSpAdr (a : Adr) : Statement (.subSpAdr a) := ofOperand _ _ a rfl
theorem supervisorArea (bits : BitVec 12) : Statement (.supervisorArea bits) := ofWord _ _ rfl
theorem btc (a : Adr) (b : Nibble) : Statement (.btc a b) := ofOperand _ _ a rfl
theorem xbc (a : Adr) (b : Nibble) : Statement (.xbc a b) := ofOperand _ _ a rfl
theorem bts (a : Adr) (b : Nibble) : Statement (.bts a b) := ofOperand _ _ a rfl
theorem xbs (a : Adr) (b : Nibble) : Statement (.xbs a b) := ofOperand _ _ a rfl
theorem xeqAdrRx (a : Adr) (r : Reg) : Statement (.xeqAdrRx a r) := ofOperand _ _ a rfl
theorem xeqRxAdr (r : Reg) (a : Adr) : Statement (.xeqRxAdr r a) := ofOperand _ _ a rfl
theorem xsgAdrRx (a : Adr) (r : Reg) : Statement (.xsgAdrRx a r) := ofOperand _ _ a rfl
theorem xsgRxAdr (r : Reg) (a : Adr) : Statement (.xsgRxAdr r a) := ofOperand _ _ a rfl
theorem xneAdrRx (a : Adr) (r : Reg) : Statement (.xneAdrRx a r) := ofOperand _ _ a rfl
theorem xneRxAdr (r : Reg) (a : Adr) : Statement (.xneRxAdr r a) := ofOperand _ _ a rfl
theorem xugAdrRx (a : Adr) (r : Reg) : Statement (.xugAdrRx a r) := ofOperand _ _ a rfl
theorem xugRxAdr (r : Reg) (a : Adr) : Statement (.xugRxAdr r a) := ofOperand _ _ a rfl
theorem nop : Statement .nop := ofWord _ _ rfl

end Sys2Proof.Laws.EncodedSize
end

