-- ==== Sys2Proof/Machine/Timing.lean ====
section
/-! DEFINITION. The cycle counts the source prints (R227, R228), as a cost function beside the machine: no rule of
meaning depends on them, and State holds no counter (R210; log 28). -/

namespace Sys2Proof.Machine

/-- `ai`: one cycle more if a second instruction word is used (R6, R227). -/
def aiCycles (a : Adr) : Nat := instrWords a - 1

/-- "4 + ai / parameter", the `ai` of each parameter its own (R227). -/
def paramCycles (ps : List Adr) : Nat :=
  match ps with
  | [] => 0
  | a :: rest => 4 + aiCycles a + paramCycles rest

/-- Cycles of an instruction without memory stalls, `skipped` for a taken skip (R227). What a supervisor call and its
parameters take is the implementation's, so it is the argument `jsvCycles` (I2). None for the Supervisor area, for which
the source gives no count. -/
def cycles (jsvCycles : List Adr → Nat) (i : Instr) (skipped : Bool) : Option Nat :=
  match i with
  | .movAdrRx a _ => some (3 + aiCycles a)
  | .movRxAdr _ a => some (3 + aiCycles a)
  | .movAdrXmn _ a => some (3 + aiCycles a)
  | .movAdrXhn _ a => some (3 + aiCycles a)
  | .movXmnAdr _ a => some (3 + aiCycles a)
  | .movXhnAdr _ a => some (3 + aiCycles a)
  | .addAdrRx a _ => some (4 + aiCycles a)
  | .addRxAdr _ a => some (4 + aiCycles a)
  | .addCAdrRx a _ => some (4 + aiCycles a + 1)
  | .addCRxAdr _ a => some (4 + aiCycles a + 1)
  | .subAdrRx a _ => some (4 + aiCycles a)
  | .subRxAdr _ a => some (4 + aiCycles a)
  | .subCAdrRx a _ => some (4 + aiCycles a + 1)
  | .subCRxAdr _ a => some (4 + aiCycles a + 1)
  | .xchAdrRx a _ => some (4 + aiCycles a)
  | .xchRxAdr _ a => some (4 + aiCycles a)
  | .divAdrRx a _ => some (21 + aiCycles a)
  | .divRxAdr _ a => some (21 + aiCycles a)
  | .divCAdrRx a _ => some (21 + aiCycles a + 1)
  | .divCRxAdr _ a => some (21 + aiCycles a + 1)
  | .adcAdrRx a _ => some (4 + aiCycles a)
  | .adcRxAdr _ a => some (4 + aiCycles a)
  | .adcCAdrRx a _ => some (4 + aiCycles a + 1)
  | .adcCRxAdr _ a => some (4 + aiCycles a + 1)
  | .sbcAdrRx a _ => some (4 + aiCycles a)
  | .sbcRxAdr _ a => some (4 + aiCycles a)
  | .sbcCAdrRx a _ => some (4 + aiCycles a + 1)
  | .sbcCRxAdr _ a => some (4 + aiCycles a + 1)
  | .mulAdrRx a _ => some (13 + aiCycles a)
  | .mulRxAdr _ a => some (13 + aiCycles a)
  | .mulCAdrRx a _ => some (13 + aiCycles a + 1)
  | .mulCRxAdr _ a => some (13 + aiCycles a + 1)
  | .notAdrRx a _ => some (3 + aiCycles a)
  | .notRxAdr _ a => some (3 + aiCycles a)
  | .shlAdrRx a _ => some (4 + aiCycles a)
  | .shlRxAdr _ a => some (4 + aiCycles a)
  | .shlCAdrRx a _ => some (4 + aiCycles a + 1)
  | .shlCRxAdr _ a => some (4 + aiCycles a + 1)
  | .shrAdrRx a _ => some (4 + aiCycles a)
  | .shrRxAdr _ a => some (4 + aiCycles a)
  | .shrCAdrRx a _ => some (4 + aiCycles a + 1)
  | .shrCRxAdr _ a => some (4 + aiCycles a + 1)
  | .macAdrRx a _ => some (14 + aiCycles a)
  | .macRxAdr _ a => some (14 + aiCycles a)
  | .macCAdrRx a _ => some (14 + aiCycles a + 1)
  | .macCRxAdr _ a => some (14 + aiCycles a + 1)
  | .asrAdrRx a _ => some (4 + aiCycles a)
  | .asrRxAdr _ a => some (4 + aiCycles a)
  | .asrCAdrRx a _ => some (4 + aiCycles a + 1)
  | .asrCRxAdr _ a => some (4 + aiCycles a + 1)
  | .slcAdrRx a _ => some (4 + aiCycles a)
  | .slcRxAdr _ a => some (4 + aiCycles a)
  | .slcCAdrRx a _ => some (4 + aiCycles a + 1)
  | .slcCRxAdr _ a => some (4 + aiCycles a + 1)
  | .srcAdrRx a _ => some (4 + aiCycles a)
  | .srcRxAdr _ a => some (4 + aiCycles a)
  | .srcCAdrRx a _ => some (4 + aiCycles a + 1)
  | .srcCRxAdr _ a => some (4 + aiCycles a + 1)
  | .orAdrRx a _ => some (4 + aiCycles a)
  | .orRxAdr _ a => some (4 + aiCycles a)
  | .andAdrRx a _ => some (4 + aiCycles a)
  | .andRxAdr _ a => some (4 + aiCycles a)
  | .xorAdrRx a _ => some (4 + aiCycles a)
  | .xorRxAdr _ a => some (4 + aiCycles a)
  | .negAdrRx a _ => some (4 + aiCycles a)
  | .negRxAdr _ a => some (4 + aiCycles a)
  | .movAdrXM a => some (3 + aiCycles a)
  | .movAdrXH a => some (3 + aiCycles a)
  | .movAdrSp a => some (3 + aiCycles a)
  | .movXMAdr a => some (3 + aiCycles a)
  | .movXHAdr a => some (3 + aiCycles a)
  | .movSpAdr a => some (3 + aiCycles a)
  | .jms _ => some 4
  | .jfr a ps => some (9 + aiCycles a + paramCycles ps)
  | .jsv ps => some (jsvCycles ps)
  | .jfa a ps => some (9 + aiCycles a + paramCycles ps)
  | .rfn => some 6
  | .addSpAdr a => some (4 + aiCycles a)
  | .jmr a => some (5 + aiCycles a)
  | .jma a => some (5 + aiCycles a)
  | .subSpAdr a => some (4 + aiCycles a)
  | .supervisorArea _ => none
  | .btc a _ => some (4 + aiCycles a)
  | .xbc a _ => some ((if skipped then 5 else 4) + aiCycles a)
  | .bts a _ => some (4 + aiCycles a)
  | .xbs a _ => some ((if skipped then 5 else 4) + aiCycles a)
  | .xeqAdrRx a _ => some ((if skipped then 5 else 4) + aiCycles a)
  | .xeqRxAdr _ a => some ((if skipped then 5 else 4) + aiCycles a)
  | .xsgAdrRx a _ => some ((if skipped then 5 else 4) + aiCycles a)
  | .xsgRxAdr _ a => some ((if skipped then 5 else 4) + aiCycles a)
  | .xneAdrRx a _ => some ((if skipped then 5 else 4) + aiCycles a)
  | .xneRxAdr _ a => some ((if skipped then 5 else 4) + aiCycles a)
  | .xugAdrRx a _ => some ((if skipped then 5 else 4) + aiCycles a)
  | .xugRxAdr _ a => some ((if skipped then 5 else 4) + aiCycles a)
  | .nop => some 1

/-- Cycles with the parameter `PRAM_STALL` added for an instruction that reads memory behind the PRAM interface (R228);
which memory that is, the source does not say, so it is an argument. -/
def cyclesWithStall (p : Params) (jsvCycles : List Adr → Nat) (readsPram : Bool) (i : Instr) (skipped : Bool) :
    Option Nat :=
  (cycles jsvCycles i skipped).map fun n => if readsPram then n + p.pramStall else n

end Sys2Proof.Machine
end

