-- ==== Sys2Proof/Tests/Slice0.lean ====
section
/-! SUPPORT. Tests: ill-formed instructions refused; for every row of the opcode table a word written out from its bit
pattern, decoded and encoded; single steps, their expected results the spec's (`95_test_vectors.md`,
`96_test_vectors_derived.md`: the vector is named) or, marked "by hand", computed from the rule; and for every statement
that has hypotheses a state that meets them. -/

namespace Sys2Proof.Tests

open Sys2Proof Sys2Proof.Machine

/-! ### Well-formedness (R185) -/

theorem test_wf_sixteen_parameters : (Instr.jfr (.imm4 0) (List.replicate 16 (.imm4 1))).wf = true := by decide

theorem test_wf_jfr_seventeen_parameters : (Instr.jfr (.imm4 0) (List.replicate 17 (.imm4 1))).wf = false := by decide

theorem test_wf_jfa_seventeen_parameters : (Instr.jfa (.reg .a) (List.replicate 17 (.reg .b))).wf = false := by decide

theorem test_wf_jsv_seventeen_parameters : (Instr.jsv (List.replicate 17 (.ptr .x0))).wf = false := by decide

/-! ### Decoding and encoding, one word for each row of R65, its bits from the row's pattern -/

/-- `MOV adr, rx`, `0000 000r rraa aaaa`. -/
theorem test_decode_movAdrRx : decode [0b0000000001001010] = .ok (.movAdrRx (.imm4 10) .b, []) ∧
    encode (.movAdrRx (.imm4 10) .b) = [0b0000000001001010] := by decide

/-- `MOV rx, adr`, `0000 001r rraa aaaa`. -/
theorem test_decode_movRxAdr : decode [0b0000001100010011] = .ok (.movRxAdr .x0 (.stack4 3), []) ∧
    encode (.movRxAdr .x0 (.stack4 3)) = [0b0000001100010011] := by decide

/-- `MOV adr, xmn`, `0000 0100 nnaa aaaa`. -/
theorem test_decode_movAdrXmn : decode [0b0000010010100010, 0b1100000100100011] = .ok (.movAdrXmn .p2 (.imm16 0x8123), []) ∧
    encode (.movAdrXmn .p2 (.imm16 0x8123)) = [0b0000010010100010, 0b1100000100100011] := by decide

/-- `MOV adr, xhn`, `0000 0101 nnaa aaaa`. -/
theorem test_decode_movAdrXhn : decode [0b0000010111100101, 0b1111111111111110] = .ok (.movAdrXhn .p3 (.bpImm16 0x7FFE), []) ∧
    encode (.movAdrXhn .p3 (.bpImm16 0x7FFE)) = [0b0000010111100101, 0b1111111111111110] := by decide

/-- `MOV xmn, adr`, `0000 0110 nnaa aaaa`. -/
theorem test_decode_movXmnAdr : decode [0b0000011000101011, 0b1100000000000001] = .ok (.movXmnAdr .p0 (.data16 0xC001), []) ∧
    encode (.movXmnAdr .p0 (.data16 0xC001)) = [0b0000011000101011, 0b1100000000000001] := by decide

/-- `MOV xhn, adr`, `0000 0111 nnaa aaaa`. -/
theorem test_decode_movXhnAdr : decode [0b0000011101101100, 0b1100000000100000] = .ok (.movXhnAdr .p1 (.stack16 0x0020), []) ∧
    encode (.movXhnAdr .p1 (.stack16 0x0020)) = [0b0000011101101100, 0b1100000000100000] := by decide

/-- `ADD adr, rx`, `0000 100r rraa aaaa`. -/
theorem test_decode_addAdrRx : decode [0b0000100011110001] = .ok (.addAdrRx (.reg .b) .d, []) ∧
    encode (.addAdrRx (.reg .b) .d) = [0b0000100011110001] := by decide

/-- `ADD rx, adr`, `0000 101r rraa aaaa`. -/
theorem test_decode_addRxAdr : decode [0b0000101110111010] = .ok (.addRxAdr .x2 (.ptr .x2), []) ∧
    encode (.addRxAdr .x2 (.ptr .x2)) = [0b0000101110111010] := by decide

/-- `ADD C:adr, rx`, `0100 100r rraa aaaa`. -/
theorem test_decode_addCAdrRx : decode [0b0100100001111111] = .ok (.addCAdrRx (.stackPtr .x3) .b, []) ∧
    encode (.addCAdrRx (.stackPtr .x3) .b) = [0b0100100001111111] := by decide

/-- `ADD C:rx, adr`, `0100 101r rraa aaaa`. -/
theorem test_decode_addCRxAdr : decode [0b0100101100110110] = .ok (.addCRxAdr .x0 (.reg .x2), []) ∧
    encode (.addCRxAdr .x0 (.reg .x2)) = [0b0100101100110110] := by decide

/-- `SUB adr, rx`, `0000 110r rraa aaaa`. -/
theorem test_decode_subAdrRx : decode [0b0000110111000001] = .ok (.subAdrRx (.imm4 1) .x3, []) ∧
    encode (.subAdrRx (.imm4 1) .x3) = [0b0000110111000001] := by decide

/-- `SUB rx, adr`, `0000 111r rraa aaaa`. -/
theorem test_decode_subRxAdr : decode [0b0000111010001010] = .ok (.subRxAdr .c (.imm4 10), []) ∧
    encode (.subRxAdr .c (.imm4 10)) = [0b0000111010001010] := by decide

/-- `SUB C:adr, rx`, `0100 110r rraa aaaa`. -/
theorem test_decode_subCAdrRx : decode [0b0100110101010011] = .ok (.subCAdrRx (.stack4 3) .x1, []) ∧
    encode (.subCAdrRx (.stack4 3) .x1) = [0b0100110101010011] := by decide

/-- `SUB C:rx, adr`, `0100 111r rraa aaaa`. -/
theorem test_decode_subCRxAdr : decode [0b0100111000100010, 0b1100000100100011] = .ok (.subCRxAdr .a (.imm16 0x8123), []) ∧
    encode (.subCRxAdr .a (.imm16 0x8123)) = [0b0100111000100010, 0b1100000100100011] := by decide

/-- `XCH adr, rx`, `0001 000r rraa aaaa`. -/
theorem test_decode_xchAdrRx : decode [0b0001000011100101, 0b1111111111111110] = .ok (.xchAdrRx (.bpImm16 0x7FFE) .d, []) ∧
    encode (.xchAdrRx (.bpImm16 0x7FFE) .d) = [0b0001000011100101, 0b1111111111111110] := by decide

/-- `XCH rx, adr`, `0001 001r rraa aaaa`. -/
theorem test_decode_xchRxAdr : decode [0b0001001110101011, 0b1100000000000001] = .ok (.xchRxAdr .x2 (.data16 0xC001), []) ∧
    encode (.xchRxAdr .x2 (.data16 0xC001)) = [0b0001001110101011, 0b1100000000000001] := by decide

/-- `DIV adr, rx`, `0001 010r rraa aaaa`. -/
theorem test_decode_divAdrRx : decode [0b0001010001101100, 0b1100000000100000] = .ok (.divAdrRx (.stack16 0x0020) .b, []) ∧
    encode (.divAdrRx (.stack16 0x0020) .b) = [0b0001010001101100, 0b1100000000100000] := by decide

/-- `DIV rx, adr`, `0001 011r rraa aaaa`. -/
theorem test_decode_divRxAdr : decode [0b0001011100110001] = .ok (.divRxAdr .x0 (.reg .b), []) ∧
    encode (.divRxAdr .x0 (.reg .b)) = [0b0001011100110001] := by decide

/-- `DIV C:adr, rx`, `0101 010r rraa aaaa`. -/
theorem test_decode_divCAdrRx : decode [0b0101010111111010] = .ok (.divCAdrRx (.ptr .x2) .x3, []) ∧
    encode (.divCAdrRx (.ptr .x2) .x3) = [0b0101010111111010] := by decide

/-- `DIV C:rx, adr`, `0101 011r rraa aaaa`. -/
theorem test_decode_divCRxAdr : decode [0b0101011010111111] = .ok (.divCRxAdr .c (.stackPtr .x3), []) ∧
    encode (.divCRxAdr .c (.stackPtr .x3)) = [0b0101011010111111] := by decide

/-- `ADC adr, rx`, `0001 100r rraa aaaa`. -/
theorem test_decode_adcAdrRx : decode [0b0001100101110110] = .ok (.adcAdrRx (.reg .x2) .x1, []) ∧
    encode (.adcAdrRx (.reg .x2) .x1) = [0b0001100101110110] := by decide

/-- `ADC rx, adr`, `0001 101r rraa aaaa`. -/
theorem test_decode_adcRxAdr : decode [0b0001101000000001] = .ok (.adcRxAdr .a (.imm4 1), []) ∧
    encode (.adcRxAdr .a (.imm4 1)) = [0b0001101000000001] := by decide

/-- `ADC C:adr, rx`, `0101 100r rraa aaaa`. -/
theorem test_decode_adcCAdrRx : decode [0b0101100011001010] = .ok (.adcCAdrRx (.imm4 10) .d, []) ∧
    encode (.adcCAdrRx (.imm4 10) .d) = [0b0101100011001010] := by decide

/-- `ADC C:rx, adr`, `0101 101r rraa aaaa`. -/
theorem test_decode_adcCRxAdr : decode [0b0101101110010011] = .ok (.adcCRxAdr .x2 (.stack4 3), []) ∧
    encode (.adcCRxAdr .x2 (.stack4 3)) = [0b0101101110010011] := by decide

/-- `SBC adr, rx`, `0001 110r rraa aaaa`. -/
theorem test_decode_sbcAdrRx : decode [0b0001110001100010, 0b1100000100100011] = .ok (.sbcAdrRx (.imm16 0x8123) .b, []) ∧
    encode (.sbcAdrRx (.imm16 0x8123) .b) = [0b0001110001100010, 0b1100000100100011] := by decide

/-- `SBC rx, adr`, `0001 111r rraa aaaa`. -/
theorem test_decode_sbcRxAdr : decode [0b0001111100100101, 0b1111111111111110] = .ok (.sbcRxAdr .x0 (.bpImm16 0x7FFE), []) ∧
    encode (.sbcRxAdr .x0 (.bpImm16 0x7FFE)) = [0b0001111100100101, 0b1111111111111110] := by decide

/-- `SBC C:adr, rx`, `0101 110r rraa aaaa`. -/
theorem test_decode_sbcCAdrRx : decode [0b0101110111101011, 0b1100000000000001] = .ok (.sbcCAdrRx (.data16 0xC001) .x3, []) ∧
    encode (.sbcCAdrRx (.data16 0xC001) .x3) = [0b0101110111101011, 0b1100000000000001] := by decide

/-- `SBC C:rx, adr`, `0101 111r rraa aaaa`. -/
theorem test_decode_sbcCRxAdr : decode [0b0101111010101100, 0b1100000000100000] = .ok (.sbcCRxAdr .c (.stack16 0x0020), []) ∧
    encode (.sbcCRxAdr .c (.stack16 0x0020)) = [0b0101111010101100, 0b1100000000100000] := by decide

/-- `MUL adr, rx`, `0010 000r rraa aaaa`. -/
theorem test_decode_mulAdrRx : decode [0b0010000101110001] = .ok (.mulAdrRx (.reg .b) .x1, []) ∧
    encode (.mulAdrRx (.reg .b) .x1) = [0b0010000101110001] := by decide

/-- `MUL rx, adr`, `0010 001r rraa aaaa`. -/
theorem test_decode_mulRxAdr : decode [0b0010001000111010] = .ok (.mulRxAdr .a (.ptr .x2), []) ∧
    encode (.mulRxAdr .a (.ptr .x2)) = [0b0010001000111010] := by decide

/-- `MUL C:adr, rx`, `0110 000r rraa aaaa`. -/
theorem test_decode_mulCAdrRx : decode [0b0110000011111111] = .ok (.mulCAdrRx (.stackPtr .x3) .d, []) ∧
    encode (.mulCAdrRx (.stackPtr .x3) .d) = [0b0110000011111111] := by decide

/-- `MUL C:rx, adr`, `0110 001r rraa aaaa`. -/
theorem test_decode_mulCRxAdr : decode [0b0110001110110110] = .ok (.mulCRxAdr .x2 (.reg .x2), []) ∧
    encode (.mulCRxAdr .x2 (.reg .x2)) = [0b0110001110110110] := by decide

/-- `NOT adr, rx`, `0010 010r rraa aaaa`. -/
theorem test_decode_notAdrRx : decode [0b0010010001000001] = .ok (.notAdrRx (.imm4 1) .b, []) ∧
    encode (.notAdrRx (.imm4 1) .b) = [0b0010010001000001] := by decide

/-- `NOT rx, adr`, `0010 011r rraa aaaa`. -/
theorem test_decode_notRxAdr : decode [0b0010011100001010] = .ok (.notRxAdr .x0 (.imm4 10), []) ∧
    encode (.notRxAdr .x0 (.imm4 10)) = [0b0010011100001010] := by decide

/-- `SHL adr, rx`, `0010 100r rraa aaaa`. -/
theorem test_decode_shlAdrRx : decode [0b0010100111010011] = .ok (.shlAdrRx (.stack4 3) .x3, []) ∧
    encode (.shlAdrRx (.stack4 3) .x3) = [0b0010100111010011] := by decide

/-- `SHL rx, adr`, `0010 101r rraa aaaa`. -/
theorem test_decode_shlRxAdr : decode [0b0010101010100010, 0b1100000100100011] = .ok (.shlRxAdr .c (.imm16 0x8123), []) ∧
    encode (.shlRxAdr .c (.imm16 0x8123)) = [0b0010101010100010, 0b1100000100100011] := by decide

/-- `SHL C:adr, rx`, `0110 100r rraa aaaa`. -/
theorem test_decode_shlCAdrRx : decode [0b0110100101100101, 0b1111111111111110] = .ok (.shlCAdrRx (.bpImm16 0x7FFE) .x1, []) ∧
    encode (.shlCAdrRx (.bpImm16 0x7FFE) .x1) = [0b0110100101100101, 0b1111111111111110] := by decide

/-- `SHL C:rx, adr`, `0110 101r rraa aaaa`. -/
theorem test_decode_shlCRxAdr : decode [0b0110101000101011, 0b1100000000000001] = .ok (.shlCRxAdr .a (.data16 0xC001), []) ∧
    encode (.shlCRxAdr .a (.data16 0xC001)) = [0b0110101000101011, 0b1100000000000001] := by decide

/-- `SHR adr, rx`, `0010 110r rraa aaaa`. -/
theorem test_decode_shrAdrRx : decode [0b0010110011101100, 0b1100000000100000] = .ok (.shrAdrRx (.stack16 0x0020) .d, []) ∧
    encode (.shrAdrRx (.stack16 0x0020) .d) = [0b0010110011101100, 0b1100000000100000] := by decide

/-- `SHR rx, adr`, `0010 111r rraa aaaa`. -/
theorem test_decode_shrRxAdr : decode [0b0010111110110001] = .ok (.shrRxAdr .x2 (.reg .b), []) ∧
    encode (.shrRxAdr .x2 (.reg .b)) = [0b0010111110110001] := by decide

/-- `SHR C:adr, rx`, `0110 110r rraa aaaa`. -/
theorem test_decode_shrCAdrRx : decode [0b0110110001111010] = .ok (.shrCAdrRx (.ptr .x2) .b, []) ∧
    encode (.shrCAdrRx (.ptr .x2) .b) = [0b0110110001111010] := by decide

/-- `SHR C:rx, adr`, `0110 111r rraa aaaa`. -/
theorem test_decode_shrCRxAdr : decode [0b0110111100111111] = .ok (.shrCRxAdr .x0 (.stackPtr .x3), []) ∧
    encode (.shrCRxAdr .x0 (.stackPtr .x3)) = [0b0110111100111111] := by decide

/-- `MAC adr, rx`, `0011 000r rraa aaaa`. -/
theorem test_decode_macAdrRx : decode [0b0011000111110110] = .ok (.macAdrRx (.reg .x2) .x3, []) ∧
    encode (.macAdrRx (.reg .x2) .x3) = [0b0011000111110110] := by decide

/-- `MAC rx, adr`, `0011 001r rraa aaaa`. -/
theorem test_decode_macRxAdr : decode [0b0011001010000001] = .ok (.macRxAdr .c (.imm4 1), []) ∧
    encode (.macRxAdr .c (.imm4 1)) = [0b0011001010000001] := by decide

/-- `MAC C:adr, rx`, `0111 000r rraa aaaa`. -/
theorem test_decode_macCAdrRx : decode [0b0111000101001010] = .ok (.macCAdrRx (.imm4 10) .x1, []) ∧
    encode (.macCAdrRx (.imm4 10) .x1) = [0b0111000101001010] := by decide

/-- `MAC C:rx, adr`, `0111 001r rraa aaaa`. -/
theorem test_decode_macCRxAdr : decode [0b0111001000010011] = .ok (.macCRxAdr .a (.stack4 3), []) ∧
    encode (.macCRxAdr .a (.stack4 3)) = [0b0111001000010011] := by decide

/-- `ASR adr, rx`, `0011 010r rraa aaaa`. -/
theorem test_decode_asrAdrRx : decode [0b0011010011100010, 0b1100000100100011] = .ok (.asrAdrRx (.imm16 0x8123) .d, []) ∧
    encode (.asrAdrRx (.imm16 0x8123) .d) = [0b0011010011100010, 0b1100000100100011] := by decide

/-- `ASR rx, adr`, `0011 011r rraa aaaa`. -/
theorem test_decode_asrRxAdr : decode [0b0011011110100101, 0b1111111111111110] = .ok (.asrRxAdr .x2 (.bpImm16 0x7FFE), []) ∧
    encode (.asrRxAdr .x2 (.bpImm16 0x7FFE)) = [0b0011011110100101, 0b1111111111111110] := by decide

/-- `ASR C:adr, rx`, `0111 010r rraa aaaa`. -/
theorem test_decode_asrCAdrRx : decode [0b0111010001101011, 0b1100000000000001] = .ok (.asrCAdrRx (.data16 0xC001) .b, []) ∧
    encode (.asrCAdrRx (.data16 0xC001) .b) = [0b0111010001101011, 0b1100000000000001] := by decide

/-- `ASR C:rx, adr`, `0111 011r rraa aaaa`. -/
theorem test_decode_asrCRxAdr : decode [0b0111011100101100, 0b1100000000100000] = .ok (.asrCRxAdr .x0 (.stack16 0x0020), []) ∧
    encode (.asrCRxAdr .x0 (.stack16 0x0020)) = [0b0111011100101100, 0b1100000000100000] := by decide

/-- `SLC adr, rx`, `0011 100r rraa aaaa`. -/
theorem test_decode_slcAdrRx : decode [0b0011100111110001] = .ok (.slcAdrRx (.reg .b) .x3, []) ∧
    encode (.slcAdrRx (.reg .b) .x3) = [0b0011100111110001] := by decide

/-- `SLC rx, adr`, `0011 101r rraa aaaa`. -/
theorem test_decode_slcRxAdr : decode [0b0011101010111010] = .ok (.slcRxAdr .c (.ptr .x2), []) ∧
    encode (.slcRxAdr .c (.ptr .x2)) = [0b0011101010111010] := by decide

/-- `SLC C:adr, rx`, `0111 100r rraa aaaa`. -/
theorem test_decode_slcCAdrRx : decode [0b0111100101111111] = .ok (.slcCAdrRx (.stackPtr .x3) .x1, []) ∧
    encode (.slcCAdrRx (.stackPtr .x3) .x1) = [0b0111100101111111] := by decide

/-- `SLC C:rx, adr`, `0111 101r rraa aaaa`. -/
theorem test_decode_slcCRxAdr : decode [0b0111101000110110] = .ok (.slcCRxAdr .a (.reg .x2), []) ∧
    encode (.slcCRxAdr .a (.reg .x2)) = [0b0111101000110110] := by decide

/-- `SRC adr, rx`, `0011 110r rraa aaaa`. -/
theorem test_decode_srcAdrRx : decode [0b0011110011000001] = .ok (.srcAdrRx (.imm4 1) .d, []) ∧
    encode (.srcAdrRx (.imm4 1) .d) = [0b0011110011000001] := by decide

/-- `SRC rx, adr`, `0011 111r rraa aaaa`. -/
theorem test_decode_srcRxAdr : decode [0b0011111110001010] = .ok (.srcRxAdr .x2 (.imm4 10), []) ∧
    encode (.srcRxAdr .x2 (.imm4 10)) = [0b0011111110001010] := by decide

/-- `SRC C:adr, rx`, `0111 110r rraa aaaa`. -/
theorem test_decode_srcCAdrRx : decode [0b0111110001010011] = .ok (.srcCAdrRx (.stack4 3) .b, []) ∧
    encode (.srcCAdrRx (.stack4 3) .b) = [0b0111110001010011] := by decide

/-- `SRC C:rx, adr`, `0111 111r rraa aaaa`. -/
theorem test_decode_srcCRxAdr : decode [0b0111111100100010, 0b1100000100100011] = .ok (.srcCRxAdr .x0 (.imm16 0x8123), []) ∧
    encode (.srcCRxAdr .x0 (.imm16 0x8123)) = [0b0111111100100010, 0b1100000100100011] := by decide

/-- `OR adr, rx`, `0100 000r rraa aaaa`. -/
theorem test_decode_orAdrRx : decode [0b0100000111100101, 0b1111111111111110] = .ok (.orAdrRx (.bpImm16 0x7FFE) .x3, []) ∧
    encode (.orAdrRx (.bpImm16 0x7FFE) .x3) = [0b0100000111100101, 0b1111111111111110] := by decide

/-- `OR rx, adr`, `0100 001r rraa aaaa`. -/
theorem test_decode_orRxAdr : decode [0b0100001010101011, 0b1100000000000001] = .ok (.orRxAdr .c (.data16 0xC001), []) ∧
    encode (.orRxAdr .c (.data16 0xC001)) = [0b0100001010101011, 0b1100000000000001] := by decide

/-- `AND adr, rx`, `0100 010r rraa aaaa`. -/
theorem test_decode_andAdrRx : decode [0b0100010101101100, 0b1100000000100000] = .ok (.andAdrRx (.stack16 0x0020) .x1, []) ∧
    encode (.andAdrRx (.stack16 0x0020) .x1) = [0b0100010101101100, 0b1100000000100000] := by decide

/-- `AND rx, adr`, `0100 011r rraa aaaa`. -/
theorem test_decode_andRxAdr : decode [0b0100011000110001] = .ok (.andRxAdr .a (.reg .b), []) ∧
    encode (.andRxAdr .a (.reg .b)) = [0b0100011000110001] := by decide

/-- `XOR adr, rx`, `0101 000r rraa aaaa`. -/
theorem test_decode_xorAdrRx : decode [0b0101000011111010] = .ok (.xorAdrRx (.ptr .x2) .d, []) ∧
    encode (.xorAdrRx (.ptr .x2) .d) = [0b0101000011111010] := by decide

/-- `XOR rx, adr`, `0101 001r rraa aaaa`. -/
theorem test_decode_xorRxAdr : decode [0b0101001110111111] = .ok (.xorRxAdr .x2 (.stackPtr .x3), []) ∧
    encode (.xorRxAdr .x2 (.stackPtr .x3)) = [0b0101001110111111] := by decide

/-- `NEG adr, rx`, `0110 010r rraa aaaa`. -/
theorem test_decode_negAdrRx : decode [0b0110010001110110] = .ok (.negAdrRx (.reg .x2) .b, []) ∧
    encode (.negAdrRx (.reg .x2) .b) = [0b0110010001110110] := by decide

/-- `NEG rx, adr`, `0110 011r rraa aaaa`. -/
theorem test_decode_negRxAdr : decode [0b0110011100000001] = .ok (.negRxAdr .x0 (.imm4 1), []) ∧
    encode (.negRxAdr .x0 (.imm4 1)) = [0b0110011100000001] := by decide

/-- `MOV adr, XM`, `1000 000- 00aa aaaa`. -/
theorem test_decode_movAdrXM : decode [0b1000000000001010] = .ok (.movAdrXM (.imm4 10), []) ∧
    encode (.movAdrXM (.imm4 10)) = [0b1000000000001010] := by decide

/-- `MOV adr, XH`, `1000 000- 01aa aaaa`. -/
theorem test_decode_movAdrXH : decode [0b1000000001010011] = .ok (.movAdrXH (.stack4 3), []) ∧
    encode (.movAdrXH (.stack4 3)) = [0b1000000001010011] := by decide

/-- `MOV adr, SP`, `1000 000- 1-aa aaaa`. -/
theorem test_decode_movAdrSp : decode [0b1000000010100010, 0b1100000100100011] = .ok (.movAdrSp (.imm16 0x8123), []) ∧
    encode (.movAdrSp (.imm16 0x8123)) = [0b1000000010100010, 0b1100000100100011] := by decide

/-- `MOV XM, adr`, `1000 001- 00aa aaaa`. -/
theorem test_decode_movXMAdr : decode [0b1000001000100101, 0b1111111111111110] = .ok (.movXMAdr (.bpImm16 0x7FFE), []) ∧
    encode (.movXMAdr (.bpImm16 0x7FFE)) = [0b1000001000100101, 0b1111111111111110] := by decide

/-- `MOV XH, adr`, `1000 001- 01aa aaaa`. -/
theorem test_decode_movXHAdr : decode [0b1000001001101011, 0b1100000000000001] = .ok (.movXHAdr (.data16 0xC001), []) ∧
    encode (.movXHAdr (.data16 0xC001)) = [0b1000001001101011, 0b1100000000000001] := by decide

/-- `MOV SP, adr`, `1000 001- 1-aa aaaa`. -/
theorem test_decode_movSpAdr : decode [0b1000001010101100, 0b1100000000100000] = .ok (.movSpAdr (.stack16 0x0020), []) ∧
    encode (.movSpAdr (.stack16 0x0020)) = [0b1000001010101100, 0b1100000000100000] := by decide

/-- `JMS simm10`, `1000 01ii iiii iiii`. -/
theorem test_decode_jms : decode [0b1000011111111101] = .ok (.jms (-3), []) ∧
    encode (.jms (-3)) = [0b1000011111111101] := by decide

/-- `RFN`, `1000 1001 1--- ----`. -/
theorem test_decode_rfn : decode [0b1000100110000000] = .ok (.rfn, []) ∧
    encode (.rfn) = [0b1000100110000000] := by decide

/-- `ADD SP, adr`, `1000 101- --aa aaaa`. -/
theorem test_decode_addSpAdr : decode [0b1000101000001010] = .ok (.addSpAdr (.imm4 10), []) ∧
    encode (.addSpAdr (.imm4 10)) = [0b1000101000001010] := by decide

/-- `JMR adr`, `1000 1100 --aa aaaa`. -/
theorem test_decode_jmr : decode [0b1000110000010011] = .ok (.jmr (.stack4 3), []) ∧
    encode (.jmr (.stack4 3)) = [0b1000110000010011] := by decide

/-- `JMA adr`, `1000 1101 --aa aaaa`. -/
theorem test_decode_jma : decode [0b1000110100100010, 0b1100000100100011] = .ok (.jma (.imm16 0x8123), []) ∧
    encode (.jma (.imm16 0x8123)) = [0b1000110100100010, 0b1100000100100011] := by decide

/-- `SUB SP, adr`, `1000 111- --aa aaaa`. -/
theorem test_decode_subSpAdr : decode [0b1000111000100101, 0b1111111111111110] = .ok (.subSpAdr (.bpImm16 0x7FFE), []) ∧
    encode (.subSpAdr (.bpImm16 0x7FFE)) = [0b1000111000100101, 0b1111111111111110] := by decide

/-- `(supervisor area)`, `1001 ---- ---- ----`. -/
theorem test_decode_supervisorArea : decode [0b1001000100100011] = .ok (.supervisorArea 0x123, []) ∧
    encode (.supervisorArea 0x123) = [0b1001000100100011] := by decide

/-- `BTC adr, imm4`, `1010 00ii iiaa aaaa`. -/
theorem test_decode_btc : decode [0b1010000000101100, 0b1100000000100000] = .ok (.btc (.stack16 0x0020) 0, []) ∧
    encode (.btc (.stack16 0x0020) 0) = [0b1010000000101100, 0b1100000000100000] := by decide

/-- `XBC adr, imm4`, `1010 01ii iiaa aaaa`. -/
theorem test_decode_xbc : decode [0b1010010101110001] = .ok (.xbc (.reg .b) 5, []) ∧
    encode (.xbc (.reg .b) 5) = [0b1010010101110001] := by decide

/-- `BTS adr, imm4`, `1010 10ii iiaa aaaa`. -/
theorem test_decode_bts : decode [0b1010101010111010] = .ok (.bts (.ptr .x2) 10, []) ∧
    encode (.bts (.ptr .x2) 10) = [0b1010101010111010] := by decide

/-- `XBS adr, imm4`, `1010 11ii iiaa aaaa`. -/
theorem test_decode_xbs : decode [0b1010111111111111] = .ok (.xbs (.stackPtr .x3) 15, []) ∧
    encode (.xbs (.stackPtr .x3) 15) = [0b1010111111111111] := by decide

/-- `XEQ adr, rx`, `1011 000r rraa aaaa`. -/
theorem test_decode_xeqAdrRx : decode [0b1011000011110110] = .ok (.xeqAdrRx (.reg .x2) .d, []) ∧
    encode (.xeqAdrRx (.reg .x2) .d) = [0b1011000011110110] := by decide

/-- `XEQ rx, adr`, `1011 001r rraa aaaa`. -/
theorem test_decode_xeqRxAdr : decode [0b1011001110000001] = .ok (.xeqRxAdr .x2 (.imm4 1), []) ∧
    encode (.xeqRxAdr .x2 (.imm4 1)) = [0b1011001110000001] := by decide

/-- `XSG adr, rx`, `1011 010r rraa aaaa`. -/
theorem test_decode_xsgAdrRx : decode [0b1011010001001010] = .ok (.xsgAdrRx (.imm4 10) .b, []) ∧
    encode (.xsgAdrRx (.imm4 10) .b) = [0b1011010001001010] := by decide

/-- `XSG rx, adr`, `1011 011r rraa aaaa`. -/
theorem test_decode_xsgRxAdr : decode [0b1011011100010011] = .ok (.xsgRxAdr .x0 (.stack4 3), []) ∧
    encode (.xsgRxAdr .x0 (.stack4 3)) = [0b1011011100010011] := by decide

/-- `XNE adr, rx`, `1011 100r rraa aaaa`. -/
theorem test_decode_xneAdrRx : decode [0b1011100111100010, 0b1100000100100011] = .ok (.xneAdrRx (.imm16 0x8123) .x3, []) ∧
    encode (.xneAdrRx (.imm16 0x8123) .x3) = [0b1011100111100010, 0b1100000100100011] := by decide

/-- `XNE rx, adr`, `1011 101r rraa aaaa`. -/
theorem test_decode_xneRxAdr : decode [0b1011101010100101, 0b1111111111111110] = .ok (.xneRxAdr .c (.bpImm16 0x7FFE), []) ∧
    encode (.xneRxAdr .c (.bpImm16 0x7FFE)) = [0b1011101010100101, 0b1111111111111110] := by decide

/-- `XUG adr, rx`, `1011 110r rraa aaaa`. -/
theorem test_decode_xugAdrRx : decode [0b1011110101101011, 0b1100000000000001] = .ok (.xugAdrRx (.data16 0xC001) .x1, []) ∧
    encode (.xugAdrRx (.data16 0xC001) .x1) = [0b1011110101101011, 0b1100000000000001] := by decide

/-- `XUG rx, adr`, `1011 111r rraa aaaa`. -/
theorem test_decode_xugRxAdr : decode [0b1011111000101100, 0b1100000000100000] = .ok (.xugRxAdr .a (.stack16 0x0020), []) ∧
    encode (.xugRxAdr .a (.stack16 0x0020)) = [0b1011111000101100, 0b1100000000100000] := by decide

/-- `NOP`, `11-- ---- ---- ----`. -/
theorem test_decode_nop : decode [0b1100000000000000] = .ok (.nop, []) ∧
    encode (.nop) = [0b1100000000000000] := by decide

/-- `JFR adr {...}`, `1000 1000 0eaa aaaa`: the words of E7 with the target 0x0040. -/
theorem test_decode_jfr : decode [0b1000100000100000, 0b1100000001000000, 0b1100000000001010, 0b1100000000101000,
      0b1100000000010100, 0b1100000001111000] = .ok (.jfr (.imm16 0x40) [.imm4 10, .data16 0x14, .ptr .x0], []) ∧
    encode (.jfr (.imm16 0x40) [.imm4 10, .data16 0x14, .ptr .x0]) = [0b1000100000100000, 0b1100000001000000,
      0b1100000000001010, 0b1100000000101000, 0b1100000000010100, 0b1100000001111000] := by decide

/-- `JFA adr {...}`, `1000 1001 0eaa aaaa`: `e` = 1, no parameters; then `e` = 0 and one. -/
theorem test_decode_jfa : decode [0b1000100101110000, 0b1100000001000111] =
      .ok (.jfa (.reg .a) [], [0b1100000001000111]) ∧
    decode [0b1000100100110000, 0b1100000001000111] = .ok (.jfa (.reg .a) [.imm4 7], []) ∧
    encode (.jfa (.reg .a) [.imm4 7]) = [0b1000100100110000, 0b1100000001000111] := by decide

/-- `JSV {...}`, `1000 1000 1e-- ----`: three parameters; then none, the ignored bits set. -/
theorem test_decode_jsv : decode [0b1000100010000000, 0b1100000000000011, 0b1100000000110000, 0b1100000001010001] =
      .ok (.jsv [.imm4 3, .reg .a, .stack4 1], []) ∧
    decode [0b1000100011111111] = .ok (.jsv [], []) ∧
    encode (.jsv [.imm4 3, .reg .a, .stack4 1]) = [0b1000100010000000, 0b1100000000000011, 0b1100000000110000,
      0b1100000001010001] := by decide

/-- The bits marked `-`, and bits 15..14 of a second word, are ignored (R62, R64). -/
theorem test_decode_ignored_bits : decode [0x8130] = .ok (.movAdrXM (.reg .a), []) ∧
    decode [0x83C5] = .ok (.movSpAdr (.imm4 5), []) ∧ decode [0x8BE5, 0x0004] = .ok (.addSpAdr (.bpImm16 0x4004), []) ∧
    decode [0x8CF0] = .ok (.jmr (.reg .a), []) ∧ decode [0x89FF] = .ok (.rfn, []) ∧ decode [0xFFFF] = .ok (.nop, []) :=
  by decide

/-- A missing second word is refused by name. -/
theorem test_decode_truncated : decode [0x0220] = .error .truncated ∧ decode [] = .error .truncated := by decide

/-- The table's numbering of bits: the second word is bits 31..16. -/
theorem test_decode_table_word : decodeTableWord 32 0xC1230222 = some (.movRxAdr .a (.imm16 0x8123)) ∧
    decodeTableWord 16 0x0A31 = some (.addRxAdr .a (.reg .b)) := by decide

/-! ### Single steps -/

/-- A machine about to execute these words at 0x0010. -/
def start (pm : PtrModeChoice) (ws : List Word) (regs : Regs) : State :=
  State.loadWords { State.reset with pc := 0x10, regs := regs, params := { defaultParams with ptrMode := pm } } ws 0x10

/-- What the next state holds, if there is one. -/
def after {α : Type} (s : State) (f : State → α) : Option α :=
  match step s with
  | .next t => some (f t)
  | .fault _ => none
  | .refused _ => none

/-- Vector AM19: `MOV [X0], A`. -/
theorem test_movAdrRx_AM19 : after { start .postInc1 [0x0038] ⟨0x5555, 0, 0, 0, 0x0300, 0, 0, 0⟩ with data := [(0x0300, 0)] }
    (fun t => (t.regs, t.pc, t.data)) =
      some (⟨0x5555, 0, 0, 0, 0x0301, 0, 0, 0⟩, 0x0011, [(0x0300, 0x5555)]) := by decide

/-- Vector AM8: `MOV A, BP+0xFFFF`. -/
theorem test_movRxAdr_AM8 : after { start .plain [0x0227, 0xFFFF] ⟨0, 0, 0, 0, 0, 0, 0, 0⟩ with bp := 0x0100 }
    (fun t => (t.regs, t.pc, t.bp)) =
      some (⟨0x00FF, 0, 0, 0, 0, 0, 0, 0⟩, 0x0012, 0x0100) := by decide

/-- Vector CL1: `MOV X0, [X0]`. -/
theorem test_movRxAdr_CL1 : after { start .postInc1 [0x0338] ⟨0, 0, 0, 0, 0x0200, 0, 0, 0⟩ with data := [(0x0200, 0x0ABC)] }
    (fun t => (t.regs, t.pc, t.data)) =
      some (⟨0, 0, 0, 0, 0x0ABC, 0, 0, 0⟩, 0x0011, [(0x0200, 0x0ABC)]) := by decide

/-- Vector MV6: `MOV A, XM3`. -/
theorem test_movAdrXmn_MV6 : after { start .plain [0x04F0] ⟨0xFFFF, 0, 0, 0, 0, 0, 0, 0⟩ with xm := 0x4321 }
    (fun t => (t.regs, t.pc, t.xm)) =
      some (⟨4, 0, 0, 0, 0, 0, 0, 0⟩, 0x0011, 0x4321) := by decide

/-- Vector MV9: `MOV [BP+0], XH2`. -/
theorem test_movAdrXhn_MV9 : after { start .plain [0x0590] ⟨0, 0, 0, 0, 0, 0, 0, 0⟩ with xh := 0x0A00, bp := 0x0100, stack := [(0x0100, 0xFFFF)] }
    (fun t => (((t.regs, t.pc), (t.xh, t.bp)), t.stack)) =
      some (((⟨0, 0, 0, 0, 0, 0, 0, 0⟩, 0x0011), (0x0A00, 0x0100)), [(0x0100, 0x000A)]) := by decide

/-- Vector MV4: `MOV XM3, A`. -/
theorem test_movXmnAdr_MV4 : after { start .plain [0x06F0] ⟨0x00A5, 0, 0, 0, 0, 0, 0, 0⟩ with xm := 0x0FFF }
    (fun t => (t.regs, t.pc, t.xm)) =
      some (⟨0x00A5, 0, 0, 0, 0, 0, 0, 0⟩, 0x0011, 0x5FFF) := by decide

/-- Vector MV7: `MOV XH3, B`. -/
theorem test_movXhnAdr_MV7 : after { start .plain [0x07F1] ⟨0, 0x00A5, 0, 0, 0, 0, 0, 0⟩ with xh := 0xFFFF }
    (fun t => (t.regs, t.pc, t.xh)) =
      some (⟨0, 0x00A5, 0, 0, 0, 0, 0, 0⟩, 0x0011, 0x5FFF) := by decide

/-- Vector CL4: `ADD [X0], X0`. -/
theorem test_addAdrRx_CL4 : after { start .postInc1 [0x0938] ⟨0, 0, 0, 0, 0x0200, 0, 0, 0⟩ with data := [(0x0200, 0x0010)] }
    (fun t => (t.regs, t.pc, t.data)) =
      some (⟨0, 0, 0, 0, 0x0201, 0, 0, 0⟩, 0x0011, [(0x0200, 0x0210)]) := by decide

/-- Vector AR2: `ADD A, B`. -/
theorem test_addRxAdr_AR2 : after (start .plain [0x0A31] ⟨0xFFFF, 1, 0x5555, 0, 0, 0, 0, 0⟩)
    (fun t => (t.regs, t.pc)) =
      some (⟨0, 1, 0x5555, 0, 0, 0, 0, 0⟩, 0x0011) := by decide

/-- Vector AR15: `SUB A, B`. -/
theorem test_subRxAdr_AR15 : after (start .plain [0x0E31] ⟨5, 3, 0x5555, 0, 0, 0, 0, 0⟩)
    (fun t => (t.regs, t.pc)) =
      some (⟨2, 3, 0x5555, 0, 0, 0, 0, 0⟩, 0x0011) := by decide

/-- Vector MV20: `XCH [BP+2], D`. -/
theorem test_xchAdrRx_MV20 : after { start .plain [0x10D2] ⟨0, 0, 0, 0x0055, 0, 0, 0, 0⟩ with bp := 0x0100, stack := [(0x0102, 0x00AA)] }
    (fun t => (t.regs, t.pc, t.bp, t.stack)) =
      some (⟨0, 0, 0, 0x00AA, 0, 0, 0, 0⟩, 0x0011, 0x0100, [(0x0102, 0x0055)]) := by decide

/-- Vector MV23: `XCH 7, A`. -/
theorem test_xchAdrRx_MV23 : after (start .plain [0x1007] ⟨0x1111, 0, 0, 0, 0, 0, 0, 0⟩)
    (fun t => (t.regs, t.pc)) =
      some (⟨7, 0, 0, 0, 0, 0, 0, 0⟩, 0x0011) := by decide

/-- Vector CL5: `XCH X0, [X0]`. -/
theorem test_xchRxAdr_CL5 : after { start .postInc1 [0x1338] ⟨0, 0, 0, 0, 0x0200, 0, 0, 0⟩ with data := [(0x0200, 0x0ABC)] }
    (fun t => (t.regs, t.pc, t.data)) =
      some (⟨0, 0, 0, 0, 0x0ABC, 0, 0, 0⟩, 0x0011, [(0x0200, 0x0200)]) := by decide

/-- Vector AR47: `DIV A, B`. -/
theorem test_divRxAdr_AR47 : after (start .plain [0x1631] ⟨0x0064, 7, 0x5555, 0, 0, 0, 0, 0⟩)
    (fun t => (t.regs, t.pc)) =
      some (⟨0x000E, 7, 0x5555, 0, 0, 0, 0, 0⟩, 0x0011) := by decide

/-- Vector AR11: `ADC A, B`. -/
theorem test_adcRxAdr_AR11 : after (start .plain [0x1A31] ⟨1, 2, 0xFFFF, 0, 0, 0, 0, 0⟩)
    (fun t => (t.regs, t.pc)) =
      some (⟨4, 2, 0xFFFF, 0, 0, 0, 0, 0⟩, 0x0011) := by decide

/-- Vector AR21: `SBC A, B`. -/
theorem test_sbcRxAdr_AR21 : after (start .plain [0x1E31] ⟨5, 3, 0xFFFF, 0, 0, 0, 0, 0⟩)
    (fun t => (t.regs, t.pc)) =
      some (⟨1, 3, 0xFFFF, 0, 0, 0, 0, 0⟩, 0x0011) := by decide

/-- Vector AR36: `MUL A, B`. -/
theorem test_mulRxAdr_AR36 : after (start .plain [0x2231] ⟨3, 4, 0x5555, 0, 0, 0, 0, 0⟩)
    (fun t => (t.regs, t.pc)) =
      some (⟨0x000C, 4, 0x5555, 0, 0, 0, 0, 0⟩, 0x0011) := by decide

/-- Vector LG12: `NOT [BP+0], A`. -/
theorem test_notAdrRx_LG12 : after { start .plain [0x2410] ⟨0xAAAA, 0, 0, 0, 0, 0, 0, 0⟩ with bp := 0x0100, stack := [(0x0100, 0x1111)] }
    (fun t => (t.regs, t.pc, t.bp, t.stack)) =
      some (⟨0xAAAA, 0, 0, 0, 0, 0, 0, 0⟩, 0x0011, 0x0100, [(0x0100, 0x5555)]) := by decide

/-- Vector LG9: `NOT A, B`. -/
theorem test_notRxAdr_LG9 : after (start .plain [0x2631] ⟨0, 0x00FF, 0, 0, 0, 0, 0, 0⟩)
    (fun t => (t.regs, t.pc)) =
      some (⟨0xFF00, 0x00FF, 0, 0, 0, 0, 0, 0⟩, 0x0011) := by decide

/-- Vector LG13: `SHL A, 4`. -/
theorem test_shlRxAdr_LG13 : after (start .plain [0x2A04] ⟨0x9CF1, 0, 0x5555, 0, 0, 0, 0, 0⟩)
    (fun t => (t.regs, t.pc)) =
      some (⟨0xCF10, 0, 0x5555, 0, 0, 0, 0, 0⟩, 0x0011) := by decide

/-- Vector LG19: `SHR A, 12`. -/
theorem test_shrRxAdr_LG19 : after (start .plain [0x2E0C] ⟨0x9CF1, 0, 0x5555, 0, 0, 0, 0, 0⟩)
    (fun t => (t.regs, t.pc)) =
      some (⟨9, 0, 0x5555, 0, 0, 0, 0, 0⟩, 0x0011) := by decide

/-- Vector AR42: `MAC A, B`. -/
theorem test_macRxAdr_AR42 : after (start .plain [0x3231] ⟨3, 4, 5, 0, 0, 0, 0, 0⟩)
    (fun t => (t.regs, t.pc)) =
      some (⟨0x0011, 4, 5, 0, 0, 0, 0, 0⟩, 0x0011) := by decide

/-- Vector LG25: `ASR A, 12`. -/
theorem test_asrRxAdr_LG25 : after (start .plain [0x360C] ⟨0x9CF1, 0, 0x5555, 0, 0, 0, 0, 0⟩)
    (fun t => (t.regs, t.pc)) =
      some (⟨0xFFF9, 0, 0x5555, 0, 0, 0, 0, 0⟩, 0x0011) := by decide

/-- Vector LG31: `SLC A, 4`. -/
theorem test_slcRxAdr_LG31 : after (start .plain [0x3A04] ⟨0x9CF1, 0, 0x000B, 0, 0, 0, 0, 0⟩)
    (fun t => (t.regs, t.pc)) =
      some (⟨0xCF1B, 0, 0x000B, 0, 0, 0, 0, 0⟩, 0x0011) := by decide

/-- Vector LG36: `SRC A, 12`. -/
theorem test_srcRxAdr_LG36 : after (start .plain [0x3E0C] ⟨0x9CF1, 0, 0x5310, 0, 0, 0, 0, 0⟩)
    (fun t => (t.regs, t.pc)) =
      some (⟨0x5319, 0, 0x5310, 0, 0, 0, 0, 0⟩, 0x0011) := by decide

/-- Vector LG4: `OR [BP+1], B`. -/
theorem test_orAdrRx_LG4 : after { start .plain [0x4051] ⟨0, 0x00F0, 0, 0, 0, 0, 0, 0⟩ with bp := 0x0100, stack := [(0x0101, 0x0F00)] }
    (fun t => (t.regs, t.pc, t.bp, t.stack)) =
      some (⟨0, 0x00F0, 0, 0, 0, 0, 0, 0⟩, 0x0011, 0x0100, [(0x0101, 0x0FF0)]) := by decide

/-- Vector LG5: `OR A, 0`. -/
theorem test_orRxAdr_LG5 : after (start .plain [0x4200] ⟨0x1234, 0, 0, 0, 0, 0, 0, 0⟩)
    (fun t => (t.regs, t.pc)) =
      some (⟨0x1234, 0, 0, 0, 0, 0, 0, 0⟩, 0x0011) := by decide

/-- Vector LG3: `AND [BP+1], A`. -/
theorem test_andAdrRx_LG3 : after { start .plain [0x4411] ⟨0x0F0F, 0, 0, 0, 0, 0, 0, 0⟩ with bp := 0x0100, stack := [(0x0101, 0x3C3C)] }
    (fun t => (t.regs, t.pc, t.bp, t.stack)) =
      some (⟨0x0F0F, 0, 0, 0, 0, 0, 0, 0⟩, 0x0011, 0x0100, [(0x0101, 0x0C0C)]) := by decide

/-- Vector LG2: `AND A, B`. -/
theorem test_andRxAdr_LG2 : after (start .plain [0x4631] ⟨0xF0F0, 0xFFFF, 0, 0, 0, 0, 0, 0⟩)
    (fun t => (t.regs, t.pc)) =
      some (⟨0xF0F0, 0xFFFF, 0, 0, 0, 0, 0, 0⟩, 0x0011) := by decide

/-- Vector CL13: `ADD C:5, A`. -/
theorem test_addCAdrRx_CL13 : after (start .plain [0x4805] ⟨0xFFFE, 0, 0x1234, 0, 0, 0, 0, 0⟩)
    (fun t => (t.regs, t.pc)) =
      some (⟨0xFFFE, 0, 1, 0, 0, 0, 0, 0⟩, 0x0011) := by decide

/-- Vector AR7: `ADD C:[0x0020], A`. -/
theorem test_addCAdrRx_AR7 : after { start .plain [0x4828, 0xC020] ⟨3, 0, 0, 0, 0, 0, 0, 0⟩ with data := [(0x0020, 0xFFFE)] }
    (fun t => (t.regs, t.pc, t.data)) =
      some (⟨3, 0, 1, 0, 0, 0, 0, 0⟩, 0x0012, [(0x0020, 1)]) := by decide

/-- Vector CL6: `ADD C:C, A`. -/
theorem test_addCRxAdr_CL6 : after (start .plain [0x4AB0] ⟨3, 0, 0xFFFF, 0, 0, 0, 0, 0⟩)
    (fun t => (t.regs, t.pc)) =
      some (⟨3, 0, 1, 0, 0, 0, 0, 0⟩, 0x0011) := by decide

/-- Vector CL9: `ADD C:A, C`. -/
theorem test_addCRxAdr_CL9 : after (start .plain [0x4A32] ⟨0x8000, 0, 0x8000, 0, 0, 0, 0, 0⟩)
    (fun t => (t.regs, t.pc)) =
      some (⟨0, 0, 1, 0, 0, 0, 0, 0⟩, 0x0011) := by decide

/-- Vector AR17: `SUB C:A, B`. -/
theorem test_subCRxAdr_AR17 : after (start .plain [0x4E31] ⟨3, 5, 0x5555, 0, 0, 0, 0, 0⟩)
    (fun t => (t.regs, t.pc)) =
      some (⟨0xFFFE, 5, 0xFFFF, 0, 0, 0, 0, 0⟩, 0x0011) := by decide

/-- Vector LG8: `XOR [0x0020], B`. -/
theorem test_xorAdrRx_LG8 : after { start .plain [0x5068, 0xC020] ⟨0, 0x00FF, 0, 0, 0, 0, 0, 0⟩ with data := [(0x0020, 0x0F0F)] }
    (fun t => (t.regs, t.pc, t.data)) =
      some (⟨0, 0x00FF, 0, 0, 0, 0, 0, 0⟩, 0x0012, [(0x0020, 0x0FF0)]) := by decide

/-- Vector LG6: `XOR A, A`. -/
theorem test_xorRxAdr_LG6 : after (start .plain [0x5230] ⟨0x5A5A, 0, 0, 0, 0, 0, 0, 0⟩)
    (fun t => (t.regs, t.pc)) =
      some (⟨0, 0, 0, 0, 0, 0, 0, 0⟩, 0x0011) := by decide

/-- Vector AR57: `DIV C:[0x0030], A`. -/
theorem test_divCAdrRx_AR57 : after { start .plain [0x5428, 0xC030] ⟨0x0010, 0, 0, 0, 0, 0, 0, 0⟩ with data := [(0x0030, 0x0123)] }
    (fun t => (t.regs, t.pc, t.data)) =
      some (⟨0x0010, 0, 3, 0, 0, 0, 0, 0⟩, 0x0012, [(0x0030, 0x0012)]) := by decide

/-- Vector AR48: `DIV C:A, B`. -/
theorem test_divCRxAdr_AR48 : after (start .plain [0x5631] ⟨0x0064, 7, 0x5555, 0, 0, 0, 0, 0⟩)
    (fun t => (t.regs, t.pc)) =
      some (⟨0x000E, 7, 2, 0, 0, 0, 0, 0⟩, 0x0011) := by decide

/-- Vector AR49: `DIV C:A, B`. -/
theorem test_divCRxAdr_AR49 : after (start .plain [0x5631] ⟨0x0064, 0, 0x5555, 0, 0, 0, 0, 0⟩)
    (fun t => (t.regs, t.pc)) =
      some (⟨0, 0, 0, 0, 0, 0, 0, 0⟩, 0x0011) := by decide

/-- Vector AR13: `ADC C:A, B`. -/
theorem test_adcCRxAdr_AR13 : after (start .plain [0x5A31] ⟨0xFFFF, 0xFFFF, 1, 0, 0, 0, 0, 0⟩)
    (fun t => (t.regs, t.pc)) =
      some (⟨0xFFFF, 0xFFFF, 1, 0, 0, 0, 0, 0⟩, 0x0011) := by decide

/-- Vector AR23: `SBC C:A, B`. -/
theorem test_sbcCRxAdr_AR23 : after (start .plain [0x5E31] ⟨0, 0xFFFF, 0xFFFF, 0, 0, 0, 0, 0⟩)
    (fun t => (t.regs, t.pc)) =
      some (⟨0, 0xFFFF, 0xFFFF, 0, 0, 0, 0, 0⟩, 0x0011) := by decide

/-- Vector AR38: `MUL C:A, B`. -/
theorem test_mulCRxAdr_AR38 : after (start .plain [0x6231] ⟨0xFFFF, 0xFFFF, 0, 0, 0, 0, 0, 0⟩)
    (fun t => (t.regs, t.pc)) =
      some (⟨1, 0xFFFF, 0xFFFE, 0, 0, 0, 0, 0⟩, 0x0011) := by decide

/-- Vector AR35: `NEG [BP+0], A`. -/
theorem test_negAdrRx_AR35 : after { start .plain [0x6410] ⟨2, 0, 0, 0, 0, 0, 0, 0⟩ with bp := 0x0100, stack := [(0x0100, 0x7777)] }
    (fun t => (t.regs, t.pc, t.bp, t.stack)) =
      some (⟨2, 0, 0, 0, 0, 0, 0, 0⟩, 0x0011, 0x0100, [(0x0100, 0xFFFE)]) := by decide

/-- Vector AR31: `NEG A, B`. -/
theorem test_negRxAdr_AR31 : after (start .plain [0x6631] ⟨0, 1, 0, 0, 0, 0, 0, 0⟩)
    (fun t => (t.regs, t.pc)) =
      some (⟨0xFFFF, 1, 0, 0, 0, 0, 0, 0⟩, 0x0011) := by decide

/-- Vector LG41: `SHL C:[BP+0], A`. -/
theorem test_shlCAdrRx_LG41 : after { start .plain [0x6810] ⟨8, 0, 0, 0, 0, 0, 0, 0⟩ with bp := 0x0100, stack := [(0x0100, 0x1234)] }
    (fun t => (t.regs, t.pc, t.bp, t.stack)) =
      some (⟨8, 0, 0x0012, 0, 0, 0, 0, 0⟩, 0x0011, 0x0100, [(0x0100, 0x3400)]) := by decide

/-- Vector LG14: `SHL C:A, 4`. -/
theorem test_shlCRxAdr_LG14 : after (start .plain [0x6A04] ⟨0x9CF1, 0, 0x5555, 0, 0, 0, 0, 0⟩)
    (fun t => (t.regs, t.pc)) =
      some (⟨0xCF10, 0, 9, 0, 0, 0, 0, 0⟩, 0x0011) := by decide

/-- Vector LG20: `SHR C:A, 12`. -/
theorem test_shrCRxAdr_LG20 : after (start .plain [0x6E0C] ⟨0x9CF1, 0, 0x5555, 0, 0, 0, 0, 0⟩)
    (fun t => (t.regs, t.pc)) =
      some (⟨9, 0, 0xCF10, 0, 0, 0, 0, 0⟩, 0x0011) := by decide

/-- Vector AR43: `MAC C:A, B`. -/
theorem test_macCRxAdr_AR43 : after (start .plain [0x7231] ⟨3, 4, 5, 0, 0, 0, 0, 0⟩)
    (fun t => (t.regs, t.pc)) =
      some (⟨0x0011, 4, 0, 0, 0, 0, 0, 0⟩, 0x0011) := by decide

/-- Vector LG26: `ASR C:A, 12`. -/
theorem test_asrCRxAdr_LG26 : after (start .plain [0x760C] ⟨0x9CF1, 0, 0x5555, 0, 0, 0, 0, 0⟩)
    (fun t => (t.regs, t.pc)) =
      some (⟨0xFFF9, 0, 0xCF10, 0, 0, 0, 0, 0⟩, 0x0011) := by decide

/-- Vector LG32: `SLC C:A, 4`. -/
theorem test_slcCRxAdr_LG32 : after (start .plain [0x7A04] ⟨0x9CF1, 0, 0x000B, 0, 0, 0, 0, 0⟩)
    (fun t => (t.regs, t.pc)) =
      some (⟨0xCF1B, 0, 9, 0, 0, 0, 0, 0⟩, 0x0011) := by decide

/-- Vector LG37: `SRC C:A, 12`. -/
theorem test_srcCRxAdr_LG37 : after (start .plain [0x7E0C] ⟨0x9CF1, 0, 0x5310, 0, 0, 0, 0, 0⟩)
    (fun t => (t.regs, t.pc)) =
      some (⟨0x5319, 0, 0xCF10, 0, 0, 0, 0, 0⟩, 0x0011) := by decide

/-- Vector MV17: `DW 0x8130`. -/
theorem test_movAdrXM_MV17 : after { start .plain [0x8130] ⟨0, 0, 0, 0, 0, 0, 0, 0⟩ with xm := 0x4321 }
    (fun t => (t.regs, t.pc, t.xm)) =
      some (⟨0x4321, 0, 0, 0, 0, 0, 0, 0⟩, 0x0011, 0x4321) := by decide

/-- Vector MV13: `MOV [X1], XH`. -/
theorem test_movAdrXH_MV13 : after { start .plain [0x8079] ⟨0, 0, 0, 0, 0, 0x0200, 0, 0⟩ with xh := 0x00F0, data := [(0x0200, 0)] }
    (fun t => (t.regs, t.pc, t.xh, t.data)) =
      some (⟨0, 0, 0, 0, 0, 0x0200, 0, 0⟩, 0x0011, 0x00F0, [(0x0200, 0x00F0)]) := by decide

/-- Vector MV16: `MOV B, SP`. -/
theorem test_movAdrSp_MV16 : after { start .plain [0x80B1] ⟨0, 0, 0, 0, 0, 0, 0, 0⟩ with sp := 3 }
    (fun t => (t.regs, t.pc, t.sp)) =
      some (⟨0, 3, 0, 0, 0, 0, 0, 0⟩, 0x0011, 3) := by decide

/-- Vector MV10: `MOV XM, 0x4321`. -/
theorem test_movXMAdr_MV10 : after { start .plain [0x8221, 0xC321] ⟨0, 0, 0, 0, 0, 0, 0, 0⟩ with xm := 0 }
    (fun t => (t.regs, t.pc, t.xm)) =
      some (⟨0, 0, 0, 0, 0, 0, 0, 0⟩, 0x0012, 0x4321) := by decide

/-- Vector MV12: `MOV XH, A`. -/
theorem test_movXHAdr_MV12 : after { start .plain [0x8270] ⟨0x00F0, 0, 0, 0, 0, 0, 0, 0⟩ with xh := 0 }
    (fun t => (t.regs, t.pc, t.xh)) =
      some (⟨0x00F0, 0, 0, 0, 0, 0, 0, 0⟩, 0x0011, 0x00F0) := by decide

/-- Vector MV18: `DW 0x83C5`. -/
theorem test_movSpAdr_MV18 : after { start .plain [0x83C5] ⟨0, 0, 0, 0, 0, 0, 0, 0⟩ with sp := 0 }
    (fun t => (t.regs, t.pc, t.sp)) =
      some (⟨0, 0, 0, 0, 0, 0, 0, 0⟩, 0x0011, 5) := by decide

/-- Vector CT6: `JMS -3`. -/
theorem test_jms_CT6 : after (start .plain [0x87FD] ⟨0, 0, 0, 0, 0, 0, 0, 0⟩)
    (fun t => (t.regs, t.pc)) =
      some (⟨0, 0, 0, 0, 0, 0, 0, 0⟩, 0x000D) := by decide

/-- Vector CT8: `JMS -512`. -/
theorem test_jms_CT8 : after (start .plain [0x8600] ⟨0, 0, 0, 0, 0, 0, 0, 0⟩)
    (fun t => (t.regs, t.pc)) =
      some (⟨0, 0, 0, 0, 0, 0, 0, 0⟩, 0xFE10) := by decide

/-- Vector CT19: `JFR 0x0030 ([BP+0], BP+0, A)`. -/
theorem test_jfr_CT19 : after { start .plain [0x8820, 0xC030, 0xC010, 0xC024, 0xC000, 0xC070] ⟨9, 0, 0, 0, 0, 0, 0, 0⟩ with sp := 2, bp := 0x0100, stack := [(0x0100, 0x0AAA)] }
    (fun t => (((t.regs, t.pc), (t.sp, t.bp)), t.stack)) =
      some (((⟨9, 0, 0, 0, 0, 0, 0, 0⟩, 0x0040), (3, 0x0104)), [(0x0100, 0x0AAA), (0x0102, 0x0012), (0x0103, 0x0100), (0x0104, 0x0AAA), (0x0105, 0x0100), (0x0106, 9)]) := by decide

/-- Vector SA2: `JFR 0x0040 (7, A)`, `SP_RELATIVE` false. -/
theorem test_jfr_SA2 : after { start .plain [0x8820, 0xC040, 0xC007, 0xC070] ⟨9, 0, 0, 0, 0, 0, 0, 0⟩ with sp := 0x0103, bp := 0x0100, params := { defaultParams with ptrMode := .plain, spRelative := false } }
    (fun t => (((t.regs, t.pc), (t.sp, t.bp)), t.stack)) =
      some (((⟨9, 0, 0, 0, 0, 0, 0, 0⟩, 0x0050), (0x0107, 0x0105)), [(0x0103, 0x0012), (0x0104, 0x0100), (0x0105, 7), (0x0106, 9)]) := by decide

/-- Vector CT21: `JFA [BP+1] ()`. -/
theorem test_jfa_CT21 : after { start .plain [0x8951] ⟨0, 0, 0, 0, 0, 0, 0, 0⟩ with sp := 1, bp := 0x0100, stack := [(0x0101, 0x0333)] }
    (fun t => (((t.regs, t.pc), (t.sp, t.bp)), t.stack)) =
      some (((⟨0, 0, 0, 0, 0, 0, 0, 0⟩, 0x0333), (0, 0x0103)), [(0x0101, 0x0011), (0x0102, 0x0100)]) := by decide

/-- Vector CT20: `JFA 0x0040 ([X0], [X0])`. -/
theorem test_jfa_CT20 : after { start .postInc1 [0x8920, 0xC040, 0xC038, 0xC078] ⟨0, 0, 0, 0, 0x0200, 0, 0, 0⟩ with sp := 0, bp := 0x0100, data := [(0x0200, 0x0011), (0x0201, 0x0022)] }
    (fun t => (((t.regs, t.pc), (t.sp, t.bp)), (t.data, t.stack))) =
      some (((⟨0, 0, 0, 0, 0x0202, 0, 0, 0⟩, 0x0040), (2, 0x0102)), ([(0x0200, 0x0011), (0x0201, 0x0022)], [(0x0100, 0x0012), (0x0101, 0x0100), (0x0102, 0x0011), (0x0103, 0x0022)])) := by decide

/-- Vector CT22: `RFN`. -/
theorem test_rfn_CT22 : after { start .plain [0x8980] ⟨0, 0, 0, 0, 0, 0, 0, 0⟩ with sp := 3, bp := 0x0105, stack := [(0x0103, 2), (0x0104, 0x0100)] }
    (fun t => (((t.regs, t.pc), (t.sp, t.bp)), t.stack)) =
      some (((⟨0, 0, 0, 0, 0, 0, 0, 0⟩, 2), (3, 0x0100)), [(0x0103, 2), (0x0104, 0x0100)]) := by decide

/-- Vector SA3: `RFN`, `SP_RELATIVE` false. -/
theorem test_rfn_SA3 : after { start .plain [0x8980] ⟨0, 0, 0, 0, 0, 0, 0, 0⟩ with sp := 0x0108, bp := 0x0105, stack := [(0x0103, 0x0012), (0x0104, 0x0100)], params := { defaultParams with ptrMode := .plain, spRelative := false } }
    (fun t => (((t.regs, t.pc), (t.sp, t.bp)), t.stack)) =
      some (((⟨0, 0, 0, 0, 0, 0, 0, 0⟩, 0x0012), (0x0103, 0x0100)), [(0x0103, 0x0012), (0x0104, 0x0100)]) := by decide

/-- Vector AR28: `ADD SP, A`. -/
theorem test_addSpAdr_AR28 : after { start .plain [0x8A30] ⟨2, 0, 0x5555, 0, 0, 0, 0, 0⟩ with sp := 0xFFFF }
    (fun t => (t.regs, t.pc, t.sp)) =
      some (⟨2, 0, 0x5555, 0, 0, 0, 0, 0⟩, 0x0011, 1) := by decide

/-- Vector CT10: `JMR 0xFFFE`. -/
theorem test_jmr_CT10 : after (start .plain [0x8C23, 0xFFFE] ⟨0, 0, 0, 0, 0, 0, 0, 0⟩)
    (fun t => (t.regs, t.pc)) =
      some (⟨0, 0, 0, 0, 0, 0, 0, 0⟩, 0x000E) := by decide

/-- Vector CT14: `JMA A`. -/
theorem test_jma_CT14 : after (start .plain [0x8D30] ⟨0xFFFF, 0, 0, 0, 0, 0, 0, 0⟩)
    (fun t => (t.regs, t.pc)) =
      some (⟨0xFFFF, 0, 0, 0, 0, 0, 0, 0⟩, 0xFFFF) := by decide

/-- Vector AR29: `SUB SP, 2`. -/
theorem test_subSpAdr_AR29 : after { start .plain [0x8E02] ⟨0, 0, 0, 0, 0, 0, 0, 0⟩ with sp := 5 }
    (fun t => (t.regs, t.pc, t.sp)) =
      some (⟨0, 0, 0, 0, 0, 0, 0, 0⟩, 0x0011, 3) := by decide

/-- Vector LG42: `BTC A, 15`. -/
theorem test_btc_LG42 : after (start .plain [0xA3F0] ⟨0xFFFF, 0, 0, 0, 0, 0, 0, 0⟩)
    (fun t => (t.regs, t.pc)) =
      some (⟨0x7FFF, 0, 0, 0, 0, 0, 0, 0⟩, 0x0011) := by decide

/-- Vector SK5: `XBC [0x0040], 7`. -/
theorem test_xbc_SK5 : after { start .plain [0xA5E8, 0xC040] ⟨0, 0, 0, 0, 0, 0, 0, 0⟩ with data := [(0x0040, 0xFF7F)] }
    (fun t => (t.regs, t.pc, t.data)) =
      some (⟨0, 0, 0, 0, 0, 0, 0, 0⟩, 0x0013, [(0x0040, 0xFF7F)]) := by decide

/-- Vector LG48: `BTS [X0], 0`. -/
theorem test_bts_LG48 : after { start .postInc1 [0xA838] ⟨0, 0, 0, 0, 0x0200, 0, 0, 0⟩ with data := [(0x0200, 0x0100)] }
    (fun t => (t.regs, t.pc, t.data)) =
      some (⟨0, 0, 0, 0, 0x0201, 0, 0, 0⟩, 0x0011, [(0x0200, 0x0101)]) := by decide

/-- Vector SK6: `XBS [BP+0], 15`. -/
theorem test_xbs_SK6 : after { start .plain [0xAFD0] ⟨0, 0, 0, 0, 0, 0, 0, 0⟩ with bp := 0x0100, stack := [(0x0100, 0x8000)] }
    (fun t => (t.regs, t.pc, t.bp, t.stack)) =
      some (⟨0, 0, 0, 0, 0, 0, 0, 0⟩, 0x0012, 0x0100, [(0x0100, 0x8000)]) := by decide

/-- Vector SK13: `XEQ [BP+1], A`. -/
theorem test_xeqAdrRx_SK13 : after { start .plain [0xB011] ⟨7, 0, 0, 0, 0, 0, 0, 0⟩ with bp := 0x0100, stack := [(0x0101, 7)] }
    (fun t => (t.regs, t.pc, t.bp, t.stack)) =
      some (⟨7, 0, 0, 0, 0, 0, 0, 0⟩, 0x0012, 0x0100, [(0x0101, 7)]) := by decide

/-- Vector SK31: `XEQ A, [X0]`. -/
theorem test_xeqRxAdr_SK31 : after { start .postInc1 [0xB238] ⟨1, 0, 0, 0, 0x0200, 0, 0, 0⟩ with data := [(0x0200, 1)] }
    (fun t => (t.regs, t.pc, t.data)) =
      some (⟨1, 0, 0, 0, 0x0201, 0, 0, 0⟩, 0x0012, [(0x0200, 1)]) := by decide

/-- Vector SK23: `XSG 15, A`. -/
theorem test_xsgAdrRx_SK23 : after (start .plain [0xB40F] ⟨0xFFFF, 0, 0, 0, 0, 0, 0, 0⟩)
    (fun t => (t.regs, t.pc)) =
      some (⟨0xFFFF, 0, 0, 0, 0, 0, 0, 0⟩, 0x0012) := by decide

/-- Vector SK20: `XSG A, B`. -/
theorem test_xsgRxAdr_SK20 : after (start .plain [0xB631] ⟨0x8000, 0x7FFF, 0, 0, 0, 0, 0, 0⟩)
    (fun t => (t.regs, t.pc)) =
      some (⟨0x8000, 0x7FFF, 0, 0, 0, 0, 0, 0⟩, 0x0011) := by decide

/-- Vector SK15: `XNE A, 0x1234`. -/
theorem test_xneRxAdr_SK15 : after (start .plain [0xBA20, 0xD234] ⟨0x1235, 0, 0, 0, 0, 0, 0, 0⟩)
    (fun t => (t.regs, t.pc)) =
      some (⟨0x1235, 0, 0, 0, 0, 0, 0, 0⟩, 0x0013) := by decide

/-- Vector SK29: `XUG [0x0040], A`. -/
theorem test_xugAdrRx_SK29 : after { start .plain [0xBC28, 0xC040] ⟨1, 0, 0, 0, 0, 0, 0, 0⟩ with data := [(0x0040, 2)] }
    (fun t => (t.regs, t.pc, t.data)) =
      some (⟨1, 0, 0, 0, 0, 0, 0, 0⟩, 0x0013, [(0x0040, 2)]) := by decide

/-- Vector SK25: `XUG A, B`. -/
theorem test_xugRxAdr_SK25 : after (start .plain [0xBE31] ⟨1, 0xFFFF, 0, 0, 0, 0, 0, 0⟩)
    (fun t => (t.regs, t.pc)) =
      some (⟨1, 0xFFFF, 0, 0, 0, 0, 0, 0⟩, 0x0011) := by decide

/-- Vector CT3: `DW 0xD234`. -/
theorem test_nop_CT3 : after (start .plain [0xD234] ⟨0, 0, 0, 0, 0, 0, 0, 0⟩)
    (fun t => (t.regs, t.pc)) =
      some (⟨0, 0, 0, 0, 0, 0, 0, 0⟩, 0x0011) := by decide

/-- By hand, R133: `SUB adr, rx`, the operand in the stack frame. -/
theorem test_subAdrRx_hand : after { start .plain [0x0C11] ⟨3, 0, 0, 0, 0, 0, 0, 0⟩ with bp := 0x0100, stack := [(0x0101, 1)] }
    (fun t => (t.regs, t.pc, t.bp, t.stack)) =
      some (⟨3, 0, 0, 0, 0, 0, 0, 0⟩, 0x0011, 0x0100, [(0x0101, 0xFFFE)]) := by decide

/-- By hand, R139: `DIV adr, rx`, the operand in the stack frame. -/
theorem test_divAdrRx_hand : after { start .plain [0x1411] ⟨0x000A, 0, 7, 0, 0, 0, 0, 0⟩ with bp := 0x0100, stack := [(0x0101, 0x0065)] }
    (fun t => (t.regs, t.pc, t.bp, t.stack)) =
      some (⟨0x000A, 0, 7, 0, 0, 0, 0, 0⟩, 0x0011, 0x0100, [(0x0101, 0x000A)]) := by decide

/-- By hand, R132: `ADC adr, rx`, the operand in the stack frame. -/
theorem test_adcAdrRx_hand : after { start .plain [0x1811] ⟨1, 0, 0xFFFF, 0, 0, 0, 0, 0⟩ with bp := 0x0100, stack := [(0x0101, 2)] }
    (fun t => (t.regs, t.pc, t.bp, t.stack)) =
      some (⟨1, 0, 0xFFFF, 0, 0, 0, 0, 0⟩, 0x0011, 0x0100, [(0x0101, 4)]) := by decide

/-- By hand, R135: `SBC adr, rx`, the operand in the stack frame. -/
theorem test_sbcAdrRx_hand : after { start .plain [0x1C11] ⟨1, 0, 1, 0, 0, 0, 0, 0⟩ with bp := 0x0100, stack := [(0x0101, 5)] }
    (fun t => (t.regs, t.pc, t.bp, t.stack)) =
      some (⟨1, 0, 1, 0, 0, 0, 0, 0⟩, 0x0011, 0x0100, [(0x0101, 3)]) := by decide

/-- By hand, R137: `MUL adr, rx`, the operand in the stack frame. -/
theorem test_mulAdrRx_hand : after { start .plain [0x2011] ⟨3, 0, 7, 0, 0, 0, 0, 0⟩ with bp := 0x0100, stack := [(0x0101, 0x8001)] }
    (fun t => (t.regs, t.pc, t.bp, t.stack)) =
      some (⟨3, 0, 7, 0, 0, 0, 0, 0⟩, 0x0011, 0x0100, [(0x0101, 0x8003)]) := by decide

/-- By hand, R154: `SHL adr, rx`, the operand in the stack frame. -/
theorem test_shlAdrRx_hand : after { start .plain [0x2811] ⟨0x0011, 0, 7, 0, 0, 0, 0, 0⟩ with bp := 0x0100, stack := [(0x0101, 0x8001)] }
    (fun t => (t.regs, t.pc, t.bp, t.stack)) =
      some (⟨0x0011, 0, 7, 0, 0, 0, 0, 0⟩, 0x0011, 0x0100, [(0x0101, 2)]) := by decide

/-- By hand, R155: `SHR adr, rx`, the operand in the stack frame. -/
theorem test_shrAdrRx_hand : after { start .plain [0x2C11] ⟨1, 0, 7, 0, 0, 0, 0, 0⟩ with bp := 0x0100, stack := [(0x0101, 0x8001)] }
    (fun t => (t.regs, t.pc, t.bp, t.stack)) =
      some (⟨1, 0, 7, 0, 0, 0, 0, 0⟩, 0x0011, 0x0100, [(0x0101, 0x4000)]) := by decide

/-- By hand, R138: `MAC adr, rx`, the operand in the stack frame. -/
theorem test_macAdrRx_hand : after { start .plain [0x3011] ⟨2, 0, 5, 0, 0, 0, 0, 0⟩ with bp := 0x0100, stack := [(0x0101, 3)] }
    (fun t => (t.regs, t.pc, t.bp, t.stack)) =
      some (⟨2, 0, 5, 0, 0, 0, 0, 0⟩, 0x0011, 0x0100, [(0x0101, 0x000B)]) := by decide

/-- By hand, R156: `ASR adr, rx`, the operand in the stack frame. -/
theorem test_asrAdrRx_hand : after { start .plain [0x3411] ⟨4, 0, 7, 0, 0, 0, 0, 0⟩ with bp := 0x0100, stack := [(0x0101, 0x8000)] }
    (fun t => (t.regs, t.pc, t.bp, t.stack)) =
      some (⟨4, 0, 7, 0, 0, 0, 0, 0⟩, 0x0011, 0x0100, [(0x0101, 0xF800)]) := by decide

/-- By hand, R157: `SLC adr, rx`, the operand in the stack frame. -/
theorem test_slcAdrRx_hand : after { start .plain [0x3811] ⟨4, 0, 0x000B, 0, 0, 0, 0, 0⟩ with bp := 0x0100, stack := [(0x0101, 0x9CF1)] }
    (fun t => (t.regs, t.pc, t.bp, t.stack)) =
      some (⟨4, 0, 0x000B, 0, 0, 0, 0, 0⟩, 0x0011, 0x0100, [(0x0101, 0xCF1B)]) := by decide

/-- By hand, R158: `SRC adr, rx`, the operand in the stack frame. -/
theorem test_srcAdrRx_hand : after { start .plain [0x3C11] ⟨0x000C, 0, 0x5310, 0, 0, 0, 0, 0⟩ with bp := 0x0100, stack := [(0x0101, 0x9CF1)] }
    (fun t => (t.regs, t.pc, t.bp, t.stack)) =
      some (⟨0x000C, 0, 0x5310, 0, 0, 0, 0, 0⟩, 0x0011, 0x0100, [(0x0101, 0x5319)]) := by decide

/-- By hand, R133: `SUB C:adr, rx`, the operand in the stack frame. -/
theorem test_subCAdrRx_hand : after { start .plain [0x4C11] ⟨3, 0, 7, 0, 0, 0, 0, 0⟩ with bp := 0x0100, stack := [(0x0101, 1)] }
    (fun t => (t.regs, t.pc, t.bp, t.stack)) =
      some (⟨3, 0, 0xFFFF, 0, 0, 0, 0, 0⟩, 0x0011, 0x0100, [(0x0101, 0xFFFE)]) := by decide

/-- By hand, R132: `ADC C:adr, rx`, the operand in the stack frame. -/
theorem test_adcCAdrRx_hand : after { start .plain [0x5811] ⟨0xFFFF, 0, 1, 0, 0, 0, 0, 0⟩ with bp := 0x0100, stack := [(0x0101, 0xFFFF)] }
    (fun t => (t.regs, t.pc, t.bp, t.stack)) =
      some (⟨0xFFFF, 0, 1, 0, 0, 0, 0, 0⟩, 0x0011, 0x0100, [(0x0101, 0xFFFF)]) := by decide

/-- By hand, R135: `SBC C:adr, rx`, the operand in the stack frame. -/
theorem test_sbcCAdrRx_hand : after { start .plain [0x5C11] ⟨5, 0, 2, 0, 0, 0, 0, 0⟩ with bp := 0x0100, stack := [(0x0101, 5)] }
    (fun t => (t.regs, t.pc, t.bp, t.stack)) =
      some (⟨5, 0, 0, 0, 0, 0, 0, 0⟩, 0x0011, 0x0100, [(0x0101, 0)]) := by decide

/-- By hand, R137: `MUL C:adr, rx`, the operand in the stack frame. -/
theorem test_mulCAdrRx_hand : after { start .plain [0x6011] ⟨0xFFFF, 0, 7, 0, 0, 0, 0, 0⟩ with bp := 0x0100, stack := [(0x0101, 0xFFFF)] }
    (fun t => (t.regs, t.pc, t.bp, t.stack)) =
      some (⟨0xFFFF, 0, 0xFFFE, 0, 0, 0, 0, 0⟩, 0x0011, 0x0100, [(0x0101, 1)]) := by decide

/-- By hand, R155: `SHR C:adr, rx`, the operand in the stack frame. -/
theorem test_shrCAdrRx_hand : after { start .plain [0x6C11] ⟨0x000C, 0, 7, 0, 0, 0, 0, 0⟩ with bp := 0x0100, stack := [(0x0101, 0x9CF1)] }
    (fun t => (t.regs, t.pc, t.bp, t.stack)) =
      some (⟨0x000C, 0, 0xCF10, 0, 0, 0, 0, 0⟩, 0x0011, 0x0100, [(0x0101, 9)]) := by decide

/-- By hand, R138: `MAC C:adr, rx`, the operand in the stack frame. -/
theorem test_macCAdrRx_hand : after { start .plain [0x7011] ⟨0xFFFF, 0, 0xFFFF, 0, 0, 0, 0, 0⟩ with bp := 0x0100, stack := [(0x0101, 0xFFFF)] }
    (fun t => (t.regs, t.pc, t.bp, t.stack)) =
      some (⟨0xFFFF, 0, 0xFFFF, 0, 0, 0, 0, 0⟩, 0x0011, 0x0100, [(0x0101, 0)]) := by decide

/-- By hand, R156: `ASR C:adr, rx`, the operand in the stack frame. -/
theorem test_asrCAdrRx_hand : after { start .plain [0x7411] ⟨0x000C, 0, 7, 0, 0, 0, 0, 0⟩ with bp := 0x0100, stack := [(0x0101, 0x9CF1)] }
    (fun t => (t.regs, t.pc, t.bp, t.stack)) =
      some (⟨0x000C, 0, 0xCF10, 0, 0, 0, 0, 0⟩, 0x0011, 0x0100, [(0x0101, 0xFFF9)]) := by decide

/-- By hand, R157: `SLC C:adr, rx`, the operand in the stack frame. -/
theorem test_slcCAdrRx_hand : after { start .plain [0x7811] ⟨4, 0, 0x000B, 0, 0, 0, 0, 0⟩ with bp := 0x0100, stack := [(0x0101, 0x9CF1)] }
    (fun t => (t.regs, t.pc, t.bp, t.stack)) =
      some (⟨4, 0, 9, 0, 0, 0, 0, 0⟩, 0x0011, 0x0100, [(0x0101, 0xCF1B)]) := by decide

/-- By hand, R158: `SRC C:adr, rx`, the operand in the stack frame. -/
theorem test_srcCAdrRx_hand : after { start .plain [0x7C11] ⟨0x000C, 0, 0x5310, 0, 0, 0, 0, 0⟩ with bp := 0x0100, stack := [(0x0101, 0x9CF1)] }
    (fun t => (t.regs, t.pc, t.bp, t.stack)) =
      some (⟨0x000C, 0, 0xCF10, 0, 0, 0, 0, 0⟩, 0x0011, 0x0100, [(0x0101, 0x5319)]) := by decide

/-- By hand, R174: `XNE adr, rx`, the operand in the stack frame. -/
theorem test_xneAdrRx_hand : after { start .plain [0xB811] ⟨7, 0, 0, 0, 0, 0, 0, 0⟩ with bp := 0x0100, stack := [(0x0101, 8)] }
    (fun t => (t.regs, t.pc, t.bp, t.stack)) =
      some (⟨7, 0, 0, 0, 0, 0, 0, 0⟩, 0x0012, 0x0100, [(0x0101, 8)]) := by decide

/-- What of a handed-over state the kernel sees, by the vectors of JSV. -/
abbrev kernelSees {α : Type} (ps : List Adr) (s : State) (f : State → α) : Option α :=
  match supervisorCall ps s with
  | .next u => some (f u)
  | .fault _ => none
  | .refused _ => none

/-- The machine of vector CT27, about to execute `JSV (3, A, [BP+1])`. -/
def calling : State :=
  { start .plain [0x8880, 0xC003, 0xC030, 0xC051] ⟨0x41, 0, 0, 0, 0, 0, 0, 0⟩ with
    sp := 2, bp := 0x100, stack := [(0x101, 0xBEE)] }

/-- Vector CT27: what the kernel receives. -/
theorem test_jsv_CT27 : kernelSees [.imm4 3, .reg .a, .stack4 1] calling
    (fun t => ((t.regs, t.pc), (t.sp, t.bp), t.stack, t.mode, t.supStack)) =
      some ((⟨0x41, 0, 0, 0, 0, 0, 0, 0⟩, 0x11), (2, 0x100), [(0x101, 0xBEE)], .supervisor, [3, 0x41, 0xBEE]) :=
  rfl

/-- The step of vector CT27 with a kernel that simply resumes (R189, D23): the parameters run next. -/
theorem test_jsv_resumes :
    after { calling with params := { calling.params with kernel := .resumesAtOnce } }
      (fun t => (t.regs, t.pc, t.sp, t.bp, t.stack, t.mode, t.supStack)) =
        some (⟨0x41, 0, 0, 0, 0, 0, 0, 0⟩, 0x11, 2, 0x100, [(0x101, 0xBEE)], .user, []) := rfl

/-- Vectors CT28 and CT29: `JSV` with `e` = 1, its ignored bits clear and set. -/
theorem test_jsv_CT29 : decode [0x88C0] = .ok (.jsv [], []) ∧ decode [0x88FF] = .ok (.jsv [], []) ∧
    kernelSees [] (start .plain [0x88FF] ⟨0, 0, 0, 0, 0, 0, 0, 0⟩) (fun t => (t.pc, t.mode, t.supStack)) =
      some (0x11, .supervisor, []) := by decide

/-- Vector CT25: a word of the Supervisor area in user mode. -/
theorem test_supervisorArea_CT25 :
    step (start .plain [0x9FFF] ⟨0, 0, 0, 0, 0, 0, 0, 0⟩) = .fault (.terminated .supervisorTrap) := rfl

/-- R227: MOV with a second word takes four cycles, a call with two parameters, one of two words, nine more than without;
JSV what the implementation says (I2). -/
theorem test_cycles : cycles (fun _ => 0) (.movRxAdr .a (.imm16 0)) false = some 4 ∧
    cycles (fun _ => 0) (.jfr (.reg .a) [.imm4 0, .imm16 0]) false =
      (cycles (fun _ => 0) (.jfr (.reg .a) []) false).map (· + 9) ∧
    cycles (fun ps => 20 + 5 * ps.length) (.jsv [.imm4 0, .imm16 0]) false = some 30 := by decide

/-- An operand outside the map stops the step (R41, D17). -/
theorem test_outside_the_map :
    step { start .plain [0x0228, 0xC040] ⟨0, 0, 0, 0, 0, 0, 0, 0⟩ with
      params := { defaultParams with dataMap := [⟨⟨0, 0x3F⟩, .ram⟩] } } = .fault (.unmapped .data 0x40) := rfl

/-- The machine of the device tests: a device at data address 0x40 and plain memory below. -/
def withDevice (ws : List Word) : State :=
  { start .plain ws ⟨7, 0, 0, 0, 0, 0, 0, 0⟩ with
    params := { defaultParams with dataMap := [⟨⟨0, 0x3F⟩, .ram⟩, ⟨⟨0x40, 0x40⟩, .device⟩], ptrMode := .plain } }

/-- R39, D16: `MOV B, [0x40]` reads the device once, `MOV [0x40], A` writes it and does not read it. -/
theorem test_device_mov :
    after (withDevice [0x0268, 0xC040]) (fun t => (t.devices, t.data)) = some ([.read 0x40], []) ∧
    after (withDevice [0x0028, 0xC040]) (fun t => (t.devices, t.data)) = some ([.write 0x40 none 7], []) := by decide

/-- R39, D16: `MOV B, [0x40]` gives B what the device answers. -/
theorem test_device_answers :
    after (withDevice [0x0268, 0xC040]) (fun t => t.reg .b) = some (Config.deviceRead [] 0x40) := rfl

/-- R39, D16: `ADD [0x40], A` reads the old destination once and writes the sum, which nothing else keeps. -/
theorem test_device_add :
    after (withDevice [0x0828, 0xC040]) (fun t => (t.devices, t.data)) =
      some ([.write 0x40 none (Config.deviceRead [] 0x40 + 7), .read 0x40], []) := rfl

/-- A word placed for the next step is the one it runs, from reset. -/
theorem test_withFetchWord : step (State.reset.withFetchWord 16 0x0207) =
    exec (.movRxAdr .a (.imm4 7)) (State.reset.withFetchWord 16 0x0207) := rfl

/-! ### Witnesses: states and operands that meet the hypotheses of the statements -/

/-- A machine in user mode, all plain memory, about to execute `ADD A, B`. -/
def sample : State :=
  { start .postInc1 [0x0A31] ⟨5, 3, 0xFFFF, 0, 0x200, 0xFFFF, 0, 1⟩ with
    bp := 0x100, sp := 2, data := [(0x200, 0xABC)], stack := [(0xFE, 0x12), (0xFF, 0xF0), (0x101, 7)] }

/-- The same machine with other words to execute. -/
def running (ws : List Word) : State := sample.loadWords ws sample.pc

/-- The same machine with data space ending below 0x0040 and a device there. -/
def holed : State :=
  { sample with params := { defaultParams with dataMap := [⟨⟨0, 0x3F⟩, .ram⟩, ⟨⟨0x40, 0x40⟩, .device⟩] } }

/-- The machine `sample` with stack space ending below `top`. -/
def lowStack (top : Nat) : State :=
  { sample with params := { defaultParams with stackMap := [⟨0, top - 1⟩], ptrMode := .postInc1 } }

/-- The machine `sample` whose kernel simply resumes. -/
def resuming : State := { sample with params := { sample.params with kernel := .resumesAtOnce } }

/-- `x` answers a next state of which `p` holds. -/
abbrev Goes (x : Result State) (p : State → Prop) : Prop := ∃ t, x = .next t ∧ p t

theorem sample_allRam : AllRam sample := allRam_of_default _ rfl rfl

theorem sample_allMapped : AllMapped sample := allMapped_of_allRam sample_allRam

theorem resuming_allMapped : AllMapped resuming := allMapped_of_allRam (allRam_of_default _ rfl rfl)

/-- Each addressing mode, at boundary values, is usable. -/
abbrev EveryModeUsable (s : State) : Prop :=
  Usable (.imm4 15) s ∧ Usable (.stack4 15) s ∧ Usable (.imm16 0xFFFF) s ∧ Usable (.bpImm16 0xFFFF) s ∧
    Usable (.data16 0xFFFF) s ∧ Usable (.stack16 0xFFFF) s ∧ Usable (.reg .c) s ∧ Usable (.ptr .x1) s ∧
    Usable (.stackPtr .x3) s

theorem sample_usable : EveryModeUsable sample := by decide

theorem witness_DecodeInvertsEncode : (Instr.jfa (.stack16 0xFFFF) (List.replicate 16 (.imm16 0))).wf = true ∧
    (Instr.jsv []).wf = true ∧ Instr.nop.wf = true := by decide

theorem witness_EnoughWordsDecode : maxInstrWords ≤ (List.replicate 34 (0x8820 : Word)).length := by decide

theorem witness_SpareBitsAreIgnored : (0x8130 : Word) &&& 0xFEC0 = 0x8000 ∧ (0x8070 : Word) &&& 0xFEC0 = 0x8040 ∧
    (0x80F1 : Word) &&& 0xFE80 = 0x8080 ∧ (0x8221 : Word) &&& 0xFEC0 = 0x8200 ∧ (0x8270 : Word) &&& 0xFEC0 = 0x8240 ∧
    (0x83C5 : Word) &&& 0xFE80 = 0x8280 ∧ (0x88FF : Word) &&& 0xFF80 = 0x8880 ∧ (0x89A0 : Word) &&& 0xFF80 = 0x8980 ∧
    (0x8BE5 : Word) &&& 0xFE00 = 0x8A00 ∧ (0x8CF0 : Word) &&& 0xFF00 = 0x8C00 ∧ (0x8DE0 : Word) &&& 0xFF00 = 0x8D00 ∧
    (0x8FE0 : Word) &&& 0xFE00 = 0x8E00 ∧ (0xD234 : Word) &&& 0xC000 = 0xC000 ∧
    (0b101111#6).extractLsb' 4 2 = 0b10#2 := by decide

theorem witness_SecondWordOnlyWhereTheModeNeedsIt :
    (decode [0x0220, 0xC010, 0x1234] = .ok (.movRxAdr .a (.imm16 0x10), [0x1234]) ∧
      decode [0xC020, 0xC010, 0x1234] = .ok (.nop, [0xC010, 0x1234])) ∧
    (∀ ps, Instr.nop ≠ .jsv ps) ∧ (∀ b a ps, Instr.nop ≠ callInstr b a ps) ∧
    (∀ ps, Instr.movRxAdr .a (.imm16 0x10) ≠ .jsv ps) ∧ ∀ b a ps, Instr.movRxAdr .a (.imm16 0x10) ≠ callInstr b a ps := by
  refine ⟨by decide, nofun, fun b _ _ => ?_, nofun, fun b _ _ => ?_⟩ <;> cases b <;> nofun

theorem witness_SixteenthParameterEndsTheList : (List.replicate 15 (Adr.imm16 0xFFFF)).length = 15 := by decide

theorem witness_StepRunsDecodedInstruction :
    sample.mode = .user ∧ ∃ rest, decode sample.fetch = .ok (.addRxAdr .a (.reg .b), rest) := ⟨rfl, _, rfl⟩

theorem witness_StepRunsEncodedWords : sample.mode = .user ∧ (Instr.addRxAdr .a (.reg .b)).wf = true ∧
    sample.codeWords (encode (.addRxAdr .a (.reg .b))).length sample.pc = encode (.addRxAdr .a (.reg .b)) :=
  ⟨rfl, rfl, rfl⟩

theorem witness_SupervisorStepAsksTheKernel :
    ({ sample with mode := .supervisor } : State).mode = .supervisor ∧ sample.params.kernel = .platform ∧
    resuming.params.kernel = .resumesAtOnce ∧ Goes (step sample) (fun t => t.mode = .user) ∧
    Goes (step { resuming with mode := .supervisor }) (fun t => t.mode = .user) :=
  ⟨rfl, rfl, rfl, ⟨_, rfl, rfl⟩, _, rfl, rfl⟩

theorem sample_inv : Inv sample := by constructor <;> decide

theorem witness_StepKeepsInvariant : Inv sample ∧ Goes (step sample) fun t => t ≠ sample :=
  ⟨sample_inv, _, rfl, by decide⟩

theorem witness_StepKeepsCodeAndParameters : Goes (step sample) fun t => t ≠ sample := ⟨_, rfl, by decide⟩

theorem witness_RegistersChangeOnlyWhereNamed :
    Goes (exec (.movRxAdr .b (.reg .a)) sample) (fun t => t.reg .b ≠ sample.reg .b) ∧
    Goes (exec (.addAdrRx (.reg .a) .b) sample) (fun t => t.reg .a ≠ sample.reg .a) ∧
    Goes (exec (.addCAdrRx (.imm4 5) .a) sample) (fun t => t.reg .c ≠ sample.reg .c) ∧
    Goes (exec (.jfa (.reg .a) [.ptr .x0]) sample) (fun t => t.reg .x0 ≠ sample.reg .x0) ∧
    Goes (supervisorCall [.stackPtr .x3] sample) (fun u => u.reg .x3 ≠ sample.reg .x3) :=
  ⟨⟨_, rfl, by decide⟩, ⟨_, rfl, by decide⟩, ⟨_, rfl, by decide⟩, ⟨_, rfl, by decide⟩, _, rfl, by decide⟩

theorem witness_SpecialRegistersChangeOnlyByTheirInstructions :
    Goes (exec (.movXmnAdr .p3 (.reg .a)) sample) (fun t => t.xm ≠ sample.xm) ∧
    Goes (exec (.movXhnAdr .p0 (.reg .a)) sample) (fun t => t.xh ≠ sample.xh) ∧
    Goes (exec (.subSpAdr (.reg .a)) sample) (fun t => t.sp ≠ sample.sp) ∧
    (∀ ps, Instr.subSpAdr (.reg .a) ≠ .jsv ps) ∧
    Goes (exec (.jsv [.reg .a]) resuming) (fun t => t.mode = .user) ∧
    Goes (supervisorCall [.reg .a] sample) (fun u => u.mode = .supervisor) :=
  ⟨⟨_, rfl, by decide⟩, ⟨_, rfl, by decide⟩, ⟨_, rfl, by decide⟩, nofun, ⟨_, rfl, rfl⟩, _, rfl, rfl⟩

theorem witness_BasePointerChangesOnlyByCallsAndReturn :
    Goes (exec (.jfr (.reg .a) []) sample) (fun t => t.bp ≠ sample.bp) ∧
    Goes (exec .rfn sample) (fun t => t.bp ≠ sample.bp) ∧
    Goes (supervisorCall [.reg .a] sample) (fun u => u.pc ≠ sample.pc) :=
  ⟨⟨_, rfl, by decide⟩, ⟨_, rfl, by decide⟩, _, rfl, by decide⟩

theorem witness_MemoryChangesOnlyWhereStored :
    Goes (exec (.addAdrRx (.ptr .x0) .a) sample) (fun t => t.readWord .data 0x200 ≠ sample.readWord .data 0x200) ∧
    Goes (exec (.jfr (.reg .a) []) { sample with sp := 1 })
      (fun t => t.readWord .stack 0x101 ≠ ({ sample with sp := 1 } : State).readWord .stack 0x101) ∧
    Goes (supervisorCall [.stack4 1] sample) (fun u => u.supStack = [7]) :=
  ⟨⟨_, rfl, by decide⟩, ⟨_, rfl, by decide⟩, _, rfl, by decide⟩

theorem witness_WritingInstructionsAdvancePastTheirWords :
    Goes (exec (.movRxAdr .a (.imm16 9)) sample)
      (fun _ => (rxDestination (.movRxAdr .a (.imm16 9))).isSome = true) ∧
    Goes (exec (.bts (.ptr .x0) 15) sample) (fun _ => (storesTo (.bts (.ptr .x0) 15)).isSome = true) :=
  ⟨⟨_, rfl, rfl⟩, ⟨_, rfl, rfl⟩⟩

theorem witness_SupervisorTrapExactlyInSupervisorArea :
    ((running [0x9FFF]).mode = .user ∧ (running [0x9FFF]).codeWord (running [0x9FFF]).pc &&& 0xF000 = 0x9000) ∧
    step (running [0x9000]) = .fault (.terminated .supervisorTrap) ∧
    step (holed.loadWords [0x0228, 0xC041] holed.pc) = .fault (.unmapped .data 0x41) := ⟨⟨rfl, rfl⟩, rfl, rfl⟩

theorem witness_SupervisorAreaStops :
    sample.mode = .user ∧ ({ sample with mode := .supervisor } : State).mode = .supervisor := ⟨rfl, rfl⟩

theorem witness_InstructionsCompleteOnPlainMemory :
    (AllMapped sample ∧ (∀ bits, Instr.rfn ≠ .supervisorArea bits) ∧ ¬ ∃ ps, Instr.rfn = .jsv ps) ∧
    AllMapped resuming ∧ (∀ bits, Instr.jsv [] ≠ .supervisorArea bits) ∧ resuming.params.kernel = .resumesAtOnce :=
  ⟨⟨sample_allMapped, nofun, nofun⟩, resuming_allMapped, nofun, rfl⟩

theorem witness_StepsGoOnOnPlainMemory :
    AllMapped sample ∧ sample.mode = .user ∧ sample.codeWord sample.pc &&& 0xF000 ≠ 0x9000 :=
  ⟨sample_allMapped, rfl, by decide⟩

/-- The frame of `sample` starts at stack address 0x102, two parameters go to 0x104 and 0x105; RFN reads 0xFE, 0xFF. -/
theorem witness_OperandOutsideTheMapStops :
    (operandOf (.xbc (.data16 0x41) 0) = some (.data16 0x41) ∧
      (operand (.data16 0x41) holed).loc = .mem .data 0x41 none ∧ holed.isMapped .data 0x41 = false) ∧
    (Usable (.reg .a) (lowStack 0x102) ∧ (lowStack 0x102).isMapped .stack (lowStack 0x102).tos = false) ∧
    (Usable (.reg .a) (lowStack 0x103) ∧ (lowStack 0x103).isMapped .stack (lowStack 0x103).tos = true ∧
      (lowStack 0x103).isMapped .stack ((lowStack 0x103).tos + 1) = false) ∧
    Goes (exec (callInstr false (.reg .a) [.imm4 1]) (lowStack 0x105)) (fun u =>
      (resolve (.stack4 5) 0x100 u).loc = .mem .stack 0x105 none ∧ u.isMapped .stack 0x105 = false ∧
        (resolve (.reg .b) 0x100 u).usable u = true ∧ u.isMapped .stack u.tos = false) ∧
    Goes (supervisorCall [.imm4 1] holed) (fun u =>
      (resolve (.data16 0x41) 0x100 u).loc = .mem .data 0x41 none ∧ u.isMapped .data 0x41 = false) ∧
    (lowStack 0xFE).isMapped .stack ((lowStack 0xFE).bp - 2) = false ∧
    (lowStack 0xFF).isMapped .stack ((lowStack 0xFF).bp - 2) = true ∧
      (lowStack 0xFF).isMapped .stack ((lowStack 0xFF).bp - 1) = false := by
  refine ⟨by decide, by decide, by decide, ⟨_, rfl, by decide⟩, ⟨_, rfl, by decide⟩, by decide, by decide, by decide⟩

theorem witness_MovMovesRegisterAndOperand : EveryModeUsable sample := sample_usable

theorem witness_MovMovesPointerParts : EveryModeUsable sample := sample_usable

theorem witness_MovMovesWholeXmAndXh : EveryModeUsable sample := sample_usable

theorem witness_MovMovesStackPointer :
    EveryModeUsable sample ∧ Goes (exec (.movSpAdr (.reg .a)) sample) (fun t => t.sp = 5) :=
  ⟨sample_usable, _, rfl, by decide⟩

theorem witness_StackPointerAddsAndSubtracts : EveryModeUsable sample := sample_usable

theorem witness_XchExchangesOperands : EveryModeUsable sample := sample_usable

theorem witness_XchWithImmediateIsMov : (operand (.imm4 15) sample).loc = .imm 15 ∧
    (operand (.imm16 0xFFFF) sample).loc = .imm 0xFFFF ∧ (operand (.bpImm16 0xFFFF) sample).loc = .imm 0xFF := by decide

theorem witness_AddAndAdcSum : EveryModeUsable sample := sample_usable

theorem witness_SubAndSbcDifference : EveryModeUsable sample := sample_usable

theorem witness_MulAndMacProduct : EveryModeUsable sample := sample_usable

theorem witness_DivQuotientAndRemainder : EveryModeUsable sample := sample_usable

theorem witness_NotAndNegOfTheSource : EveryModeUsable sample := sample_usable

theorem witness_AndOrXorBitByBit : EveryModeUsable sample := sample_usable

theorem witness_LeftShiftsAndCarry : EveryModeUsable sample := sample_usable

theorem witness_RightShiftsAndCarry : EveryModeUsable sample := sample_usable

theorem witness_BitsClearedAndSet : EveryModeUsable sample := sample_usable

theorem witness_BitTestSkips : EveryModeUsable sample := sample_usable

theorem witness_CompareSkips : EveryModeUsable sample := sample_usable

theorem witness_LessThanBySwappedOperands : EveryModeUsable sample ∧
    FormReads (0b1011010#7 ++ Reg.bits .b) (.reg .a) (.xsgAdrRx (.reg .a) .b) ∧
    FormReads (0b1011011#7 ++ Reg.bits .b) (.reg .a) (.xsgRxAdr .b (.reg .a)) ∧
    FormReads (0b1011110#7 ++ Reg.bits .b) (.reg .a) (.xugAdrRx (.reg .a) .b) ∧
    FormReads (0b1011111#7 ++ Reg.bits .b) (.reg .a) (.xugRxAdr .b (.reg .a)) :=
  ⟨sample_usable, fun _ => rfl, fun _ => rfl, fun _ => rfl, fun _ => rfl⟩

/-- `XEQ A, A` before `MOV A, 0x1234`. -/
theorem witness_SkippedTwoWordInstructionEndsInNop : (running [0xB230, 0x0220, 0xD234]).mode = .user ∧
    Skips (.xeqRxAdr .a (.reg .a)) (running [0xB230, 0x0220, 0xD234]) (.reg .a) true ∧
    (∃ t, exec (.xeqRxAdr .a (.reg .a)) (running [0xB230, 0x0220, 0xD234]) = .next t) ∧
    encode (.movRxAdr .a (.imm16 0x1234)) = [0x0220, 0xD234] ∧
    (running [0xB230, 0x0220, 0xD234]).codeWords 2 ((running [0xB230, 0x0220, 0xD234]).pc +
      BitVec.ofNat 16 (instrWords (.reg .a))) = encode (.movRxAdr .a (.imm16 0x1234)) := by
  refine ⟨rfl, ⟨_, rfl, ?_⟩, ⟨_, rfl⟩, rfl, rfl⟩
  exact ⟨fun q => by cases q <;> rfl, rfl, rfl, rfl, rfl, fun k x => by cases k <;> rfl, rfl, rfl, rfl, rfl, rfl, rfl⟩

theorem witness_NopOnlyAdvances : (running [0xD234]).mode = .user ∧
    ((running [0xD234]).codeWord (running [0xD234]).pc).extractLsb' 14 2 = 0b11#2 := ⟨rfl, rfl⟩

theorem witness_ShortJumpFromItsOwnAddress : sample.params.wf ∧ ({ sample.params with pcw := 1 } : Params).wf := by
  decide

theorem witness_JumpsGoToTheirTargets : sample.params.wf ∧ EveryModeUsable sample := ⟨by decide, sample_usable⟩

theorem witness_CallEntersFrame : EveryModeUsable sample ∧ sample.isMapped .stack sample.tos = true ∧
    sample.isMapped .stack (sample.tos + 1) = true := ⟨sample_usable, rfl, rfl⟩

theorem witness_CallPushesEachParameter : (List.replicate 15 (Adr.stack4 1)).length < 16 ∧
    Goes (exec (callInstr true (.reg .a) (List.replicate 15 (.stack4 1))) sample) fun u =>
      (resolve (.ptr .x0) sample.bp u).usable u = true ∧ u.isMapped .stack u.tos = true :=
  ⟨by decide, _, rfl, by decide⟩

theorem witness_CallLeavesTheFrameLayout : AllMapped sample ∧ AllRam sample ∧
    (List.replicate 16 (Adr.stack4 1)).length ≤ 16 ∧ ([] : List Adr).length ≤ 16 ∧
    List.replicate 16 (Adr.stack4 1) = List.replicate 15 (.stack4 1) ++ .stack4 1 :: [] :=
  ⟨sample_allMapped, sample_allRam, by decide, by decide, rfl⟩

theorem witness_ReturnRestoresTheFrame :
    sample.isMapped .stack (sample.bp - 2) = true ∧ sample.isMapped .stack (sample.bp - 1) = true := ⟨rfl, rfl⟩

/-- The returning state is the entered one with A changed. -/
theorem witness_CallThenReturnRestoresCaller : AllMapped sample ∧ ([.ptr .x0, .reg .b] : List Adr).length ≤ 16 ∧
    Goes (exec (callInstr false (.reg .a) [.ptr .x0, .reg .b]) sample) fun t =>
      (t.setReg .a 9).bp = t.bp ∧ (t.setReg .a 9).params = t.params ∧
        (t.setReg .a 9).readWord .stack (t.bp - 2) = t.readWord .stack (t.bp - 2) ∧
        (t.setReg .a 9).readWord .stack (t.bp - 1) = t.readWord .stack (t.bp - 1) :=
  ⟨sample_allMapped, by decide, _, rfl, by decide⟩

theorem witness_SupervisorCallCollectsParameters : (List.replicate 15 (Adr.stack4 1)).length < 16 ∧
    (Goes (supervisorCall (List.replicate 15 (.stack4 1)) sample) fun u =>
      (resolve (.ptr .x0) sample.bp u).usable u = true) ∧ AllMapped sample ∧
    Goes (supervisorCall [.ptr .x0] resuming) fun _ => resuming.params.kernel = .resumesAtOnce :=
  ⟨by decide, ⟨_, rfl, by decide⟩, sample_allMapped, _, rfl, rfl⟩

theorem witness_TwoWordShiftsThroughCarry : Reg.a ≠ .b ∧ Reg.a ≠ .c ∧ Reg.b ≠ .c := by decide

/-- X is C; Y is the high word itself. -/
theorem witness_TwoWordSumsThroughCarry : Reg.a ≠ .b ∧ Reg.a ≠ .c ∧ Reg.b ≠ .c ∧ Reg.b ≠ .c ∧ Reg.b ≠ .a := by decide

theorem witness_TwoWordProductThroughCarry : Reg.a ≠ .b ∧ Reg.a ≠ .c ∧ Reg.b ≠ .c ∧ Reg.d ≠ .c ∧ Reg.d ≠ .a := by
  decide

theorem witness_PointerModeInstances : ((Adr.ptr .x0 = .ptr .x0 ∨ Adr.ptr .x0 = .stackPtr .x0) ∧
      sample.params.ptrMode ≠ .platform ∧ sample.params.ptrMode = .postInc1) ∧
    (Adr.stackPtr .x3 = .ptr .x3 ∨ Adr.stackPtr .x3 = .stackPtr .x3) ∧
      (start .plain [] ⟨0, 0, 0, 0, 0, 0, 0, 0⟩).params.ptrMode = .plain := by decide

theorem witness_ClashesFavourTheLaterPhase :
    Usable (.ptr .x1) sample ∧ (ptrAccess sample .data .x1).field = none ∧
      sample.isDevice .data (ptrAccess sample .data .x1).addr = false := by decide

theorem witness_AbsoluteStackPointerSimulates : sample.params.spRelative = true ∧ (∀ a, Instr.rfn ≠ .movSpAdr a) ∧
    (∀ a, Instr.rfn ≠ .movAdrSp a) ∧ (∀ ps, Instr.rfn ≠ .jsv ps) ∧
    Goes (exec .rfn sample) (fun t => t.sp ≠ sample.sp) ∧
    Goes (supervisorCall [.ptr .x0] sample) (fun u => u.reg .x0 ≠ sample.reg .x0) :=
  ⟨rfl, nofun, nofun, nofun, ⟨_, rfl, by decide⟩, _, rfl, by decide⟩

/-- A read and a store of a device word, a call and a supervisor call with one as parameter, an instruction with no
operand. -/
theorem witness_DeviceAccessesAreCounted :
    ((operand (.data16 0x40) holed).loc = .mem .data 0x40 none ∧ holed.isDevice .data 0x40 = true) ∧
    (operandOf (.btc (.data16 0x40) 0) = some (.data16 0x40) ∧
      Goes (exec (.btc (.data16 0x40) 0) holed) fun t => t.devices.length = 2) ∧
    (∀ b c ps, Instr.btc (.data16 0x40) 0 ≠ callInstr b c ps) ∧
    (operandOf .nop = none ∧ (∀ ps, Instr.nop ≠ .jsv ps) ∧ Goes (exec .nop holed) fun _ => True) ∧
    Goes (exec (callInstr true (.data16 0x40) [.data16 0x40]) holed) (fun t => t.devices.length = 2) ∧
    Goes (supervisorCall [.data16 0x40] holed) fun u => u.devices = [.read 0x40] := by
  refine ⟨by decide, ⟨rfl, _, rfl, rfl⟩, ?_, ⟨rfl, nofun, _, rfl, trivial⟩, ⟨_, rfl, rfl⟩, _, rfl, rfl⟩
  intro b _ _
  cases b <;> nofun

end Sys2Proof.Tests
end

section
/-! PROOFS. How a completed instruction can have ended, said once over all instructions, and what follows for every
step: the machine invariant, the fixed parts of the state, and the frames of the registers. -/

namespace Sys2Proof.Machine

/-! ### All a completed instruction can have done -/

/-- How instruction `i` went from `s` to `t`, by what it does besides reading its operand. -/
inductive Completion (i : Instr) (s t : State) : Prop where
  /-- An instruction with an address operand that is no call. -/
  | operand (a : Adr) (ha : operandOf i = some a) (hc : ∀ b c ps, i ≠ callInstr b c ps) (hs : ExecShape i a s t)
  /-- A call: the frame, the parameters, the jump (R186, R187). -/
  | call (b : Bool) (a : Adr) (ps : List Adr) (u : State) (hi : i = callInstr b a ps)
      (hp : pushParams ps s.bp (framed (afterReads a s) (nextPc s a 0)) = .next u) (ht : t = u.setPc (callTarget b a s))
  /-- A supervisor call from which the kernel resumes (R189). -/
  | supervisorCall (ps : List Adr) (u : State) (r : KernelResume) (hi : i = .jsv ps)
      (hu : supervisorCall ps s = .next u) (ht : t = u.resumeUser r)
  /-- The return, from the two words under BP (R188). -/
  | rfn (hi : i = .rfn)
      (ht : t = (({ s with bp := s.readWord .stack (s.bp - 1) }).setTos (s.bp - 2)).setPc
        (s.readWord .stack (s.bp - 2)))
  /-- Nothing but the program counter: JMS and NOP. -/
  | pcOnly (v : Word) (hr : rxDestination i = none) (hs : storesTo i = none) (ht : t = s.setPc v)

/-- A word of the Supervisor area never completes (R190, R201, I4). -/
theorem exec_supervisorArea_ne_next (bits : BitVec 12) (s t : State) : exec (.supervisorArea bits) s ≠ .next t := by
  change execSupervisorArea bits s ≠ .next t
  unfold execSupervisorArea
  split <;> exact nofun

/-- Every instruction that completes does so in one of these ways. -/
theorem exec_completion {i : Instr} {s t : State} (h : exec i s = .next t) : Completion i s t := by
  rcases ho : operandOf i with _ | a
  · cases i
    case jms off => exact .pcOnly _ rfl rfl (Host.Outcome.next.inj h).symm
    case nop => exact .pcOnly _ rfl rfl (Host.Outcome.next.inj h).symm
    case rfn =>
      obtain ⟨-, -, ht⟩ := leaveFrame_next h
      exact .rfn rfl ht
    case jsv ps =>
      obtain ⟨u, r, hu, -, ht⟩ := jsv_next h
      exact .supervisorCall ps u r rfl hu ht
    case supervisorArea bits => exact absurd h (exec_supervisorArea_ne_next bits s t)
    all_goals exact absurd ho nofun
  · by_cases hc : ∃ b c ps, i = callInstr b c ps
    · obtain ⟨b, c, ps, rfl⟩ := hc
      obtain ⟨-, -, -, u, hp, ht⟩ := callInstr_next h
      exact .call b c ps u rfl hp ht
    · have hc : ∀ b c ps, i ≠ callInstr b c ps := fun b c ps e => hc ⟨b, c, ps, e⟩
      exact .operand a ho hc (exec_shape i a s t ho hc h).2

/-! ### The entry into a frame, and an advance -/

section Framed
variable (s : State) (ret : Word)

@[simp] theorem framed_regs : (framed s ret).regs = s.regs := by simp [framed]
@[simp] theorem framed_xm : (framed s ret).xm = s.xm := by simp [framed]
@[simp] theorem framed_xh : (framed s ret).xh = s.xh := by simp [framed]
@[simp] theorem framed_mode : (framed s ret).mode = s.mode := by simp [framed]
@[simp] theorem framed_data : (framed s ret).data = s.data := by simp [framed]
@[simp] theorem framed_supStack : (framed s ret).supStack = s.supStack := by simp [framed]
@[simp] theorem framed_code : (framed s ret).code = s.code := by simp [framed]
@[simp] theorem framed_params : (framed s ret).params = s.params := by simp [framed]

/-- The two words of a frame keep stack space in its canonical form. -/
theorem framed_stack_wf (h : s.stack.wf) : (framed s ret).stack.wf := by
  simpa [framed] using memory_wf_write _ _ s.bp (s.tos + 1).isLt (memory_wf_write _ _ ret s.tos.isLt h)

end Framed

/-- An advance from a state with the same program counter and parameters. -/
theorem advance_pc_congr {s u : State} (hpc : u.pc = s.pc) (hp : u.params = s.params) (n : Nat) :
    (u.advance n).pc = s.toPc (s.pc + BitVec.ofNat 16 n) := by
  rw [advance_pc, hpc, toPc_congr s u hp]

/-! ### What an instruction with an address operand leaves, calls apart -/

section Shape
variable {i : Instr} {a : Adr} {s t : State}

/-- The parts of State that no such instruction changes. -/
theorem ExecShape.keeps (h : ExecShape i a s t) :
    t.bp = s.bp ∧ t.mode = s.mode ∧ t.supStack = s.supStack ∧ t.code = s.code ∧ t.params = s.params := by
  cases h with
  | register r v c cv n hn hr hc hs ht => subst ht; simp
  | operand base v c cv n hb hn hs hc ht =>
    subst ht hb
    split <;> simp
  | exchange r v w n hb hn hr hs ht => subst ht; simp
  | special xm xh sp n hn hm hh hp hr hs ht => subst ht; simp
  | jump v hr hs ht => subst ht; simp

/-- The program counter goes past the encoded words (R16, R98), jumps and skips apart. -/
theorem ExecShape.pc (h : ExecShape i a s t) :
    t.pc = s.toPc (s.pc + BitVec.ofNat 16 (encode i).length) ∨
      rxDestination i = none ∧ storesTo i = none ∧ ∃ v, t.pc = s.toPc v := by
  cases h with
  | register r v c cv n hn hr hc hs ht =>
    subst ht hn
    exact .inl (advance_pc_congr (by simp) (by simp) _)
  | operand base v c cv n hb hn hs hc ht =>
    subst ht hn hb
    exact .inl (advance_pc_congr (by split <;> simp) (by split <;> simp) _)
  | exchange r v w n hb hn hr hs ht =>
    subst ht hn
    exact .inl (advance_pc_congr (by simp) (by simp) _)
  | special xm xh sp n hn hm hh hp hr hs ht =>
    subst ht hn
    exact .inl (advance_pc_congr (by simp) (by simp) _)
  | jump v hr hs ht =>
    subst ht
    exact .inr ⟨hr, hs, v, toPc_congr s _ (by simp) v⟩

/-- Both spaces keep their canonical form. -/
theorem ExecShape.wf (h : ExecShape i a s t) (hd : s.data.wf) (hs : s.stack.wf) : t.data.wf ∧ t.stack.wf := by
  cases h with
  | register r v c cv n hn hr hc hs' ht => subst ht; simpa using ⟨hd, hs⟩
  | operand base v c cv n hb hn hs' hc ht =>
    subst ht hb
    simp only [advance_data, advance_stack, writeCarry_data, writeCarry_stack]
    exact wf_write _ _ _ (by split <;> simpa using hd) (by split <;> simpa using hs)
  | exchange r v w n hb hn hr hs' ht =>
    subst ht
    exact wf_write _ _ _ (by simpa using hd) (by simpa using hs)
  | special xm xh sp n hn hm hh hp hr hs' ht => subst ht; simpa using ⟨hd, hs⟩
  | jump v hr hs' ht => subst ht; simpa using ⟨hd, hs⟩

/-- XM, XH and SP change only where they are the destination, XH also in phase 4. -/
theorem ExecShape.special_registers (h : ExecShape i a s t) :
    (t.xm = s.xm ∨ (∃ a, i = .movXMAdr a) ∨ ∃ n a, i = .movXmnAdr n a) ∧
      (t.xh = (afterPost a s).xh ∨ (∃ a, i = .movXHAdr a) ∨ ∃ n a, i = .movXhnAdr n a) ∧
      (t.sp = s.sp ∨ (∃ a, i = .movSpAdr a) ∨ (∃ a, i = .addSpAdr a) ∨ ∃ a, i = .subSpAdr a) := by
  cases h with
  | register r v c cv n hn hr hc hs ht => subst ht; simp
  | operand base v c cv n hb hn hs hc ht =>
    subst ht hb
    split <;> simp
  | exchange r v w n hb hn hr hs ht => subst ht; simp
  | special xm xh sp n hn hm hh hp hr hs ht =>
    subst ht
    exact ⟨hm, hh, hp⟩
  | jump v hr hs ht => subst ht; simp

/-- The register an operand is, is the one its addressing mode names. -/
theorem eq_reg_of_locReg_operand {q : Reg} (h : locReg (operand a s).loc = some q) : a = .reg q := by
  cases a <;> simp_all [operand, resolve, locReg]

/-- A general register is as phase 4 left it, unless it is a destination or takes the carry value. -/
theorem ExecShape.reg (h : ExecShape i a s t) (q : Reg) :
    t.reg q = (afterPost a s).reg q ∨ rxDestination i = some q ∨ storesTo i = some (.reg q) ∨
      (carryForm i = true ∧ q = .c) := by
  cases h with
  | register r v c cv n hn hr hc hs ht =>
    subst ht hc
    by_cases hq : r = q
    · exact .inr (.inl (hq ▸ hr))
    · by_cases hcarry : carryForm i = true ∧ q = .c <;> simp [hq, hcarry]
  | operand base v c cv n hb hn hs hc ht =>
    have hbase : base.reg q = (afterPost a s).reg q := by
      subst hb
      split <;> simp
    subst ht hc
    by_cases hq : locReg (Machine.operand a s).loc = some q
    · exact .inr (.inr (.inl (eq_reg_of_locReg_operand hq ▸ hs)))
    · by_cases hcarry : carryForm i = true ∧ q = .c <;> simp [hq, hcarry, write_reg, hbase]
  | exchange r v w n hb hn hr hs ht =>
    subst ht
    by_cases hq : locReg (Machine.operand a s).loc = some q
    · exact .inr (.inr (.inl (eq_reg_of_locReg_operand hq ▸ hs)))
    · by_cases hr' : r = q
      · exact .inr (.inl (hr' ▸ hr))
      · simp [hq, hr', write_reg]
  | special xm xh sp n hn hm hh hp hr hs ht =>
    subst ht
    exact .inl (afterReads_reg a s q)
  | jump v hr hs ht => subst ht; simp

end Shape

/-! ### What every completed instruction leaves -/

section Exec
variable {i : Instr} {s t : State}

/-- Code and the platform's parameters are fixed (R27, R34). -/
theorem exec_code_params (h : exec i s = .next t) : t.code = s.code ∧ t.params = s.params := by
  cases exec_completion h with
  | operand a ha hc hs =>
    obtain ⟨-, -, -, hcode, hparams⟩ := hs.keeps
    exact ⟨hcode, hparams⟩
  | call b a ps u hi hp ht =>
    obtain ⟨-, -, -, -, -, -, hcode, hparams, -, -⟩ := pushParams_frame hp
    subst ht
    exact ⟨by simpa using hcode, by simpa using hparams⟩
  | supervisorCall ps u r hi hu ht =>
    obtain ⟨-, -, -, -, -, -, -, -, hcode, hparams⟩ := supervisorCall_frame hu
    subst ht
    exact ⟨hcode, hparams⟩
  | rfn hi ht => subst ht; simp
  | pcOnly v hr hs ht => subst ht; simp

/-- The program counter is a reduced code address (R16). -/
theorem exec_pc (h : exec i s = .next t) : ∃ v, t.pc = s.toPc v := by
  cases exec_completion h with
  | operand a ha hc hs =>
    rcases hs.pc with hpc | ⟨-, -, hpc⟩
    · exact ⟨_, hpc⟩
    · exact hpc
  | call b a ps u hi hp ht =>
    obtain ⟨-, -, -, -, -, -, -, hparams, -, -⟩ := pushParams_frame hp
    subst ht
    exact ⟨_, toPc_congr s u (by simpa using hparams) _⟩
  | supervisorCall ps u r hi hu ht =>
    obtain ⟨-, -, -, -, -, -, -, -, -, hparams⟩ := supervisorCall_frame hu
    subst ht
    exact ⟨_, toPc_congr s u hparams _⟩
  | rfn hi ht =>
    subst ht
    exact ⟨_, toPc_congr s _ (by simp) _⟩
  | pcOnly v hr hs ht => exact ⟨v, by rw [ht, setPc_pc]⟩

/-- Both spaces keep their canonical form. -/
theorem exec_wf (h : exec i s = .next t) (hd : s.data.wf) (hs : s.stack.wf) : t.data.wf ∧ t.stack.wf := by
  cases exec_completion h with
  | operand a ha hc hshape => exact hshape.wf hd hs
  | call b a ps u hi hp ht =>
    obtain ⟨-, -, -, -, hdata, -, -, -, -, hstack⟩ := pushParams_frame hp
    subst ht
    rw [setPc_data, setPc_stack, hdata, framed_data, afterReads_data]
    exact ⟨hd, hstack (framed_stack_wf _ _ (by simpa using hs))⟩
  | supervisorCall ps u r hi hu ht =>
    obtain ⟨-, -, -, -, -, -, hdata, hstack, -, -⟩ := supervisorCall_frame hu
    subst ht
    rw [resumeUser_data, resumeUser_stack, hdata, hstack]
    exact ⟨memory_wf_writeAll _ _ hd, memory_wf_writeAll _ _ hs⟩
  | rfn hi ht => subst ht; simpa using ⟨hd, hs⟩
  | pcOnly v hr hs' ht => subst ht; exact ⟨hd, hs⟩

/-- No instruction but JSV changes the mode or the supervisor stack (R23, R33). -/
theorem exec_mode_supStack (h : exec i s = .next t) (hi : ∀ ps, i ≠ .jsv ps) :
    t.mode = s.mode ∧ t.supStack = s.supStack := by
  cases exec_completion h with
  | operand a ha hc hs =>
    obtain ⟨-, hmode, hsup, -, -⟩ := hs.keeps
    exact ⟨hmode, hsup⟩
  | call b a ps u hi hp ht =>
    obtain ⟨-, -, -, hmode, -, hsup, -, -, -, -⟩ := pushParams_frame hp
    subst ht
    exact ⟨by simpa using hmode, by simpa using hsup⟩
  | supervisorCall ps u r hj hu ht => exact absurd hj (hi ps)
  | rfn hi ht => subst ht; simp
  | pcOnly v hr hs ht => subst ht; simp

/-- A supervisor call that completes ends in user mode with an empty supervisor stack (log 12). -/
theorem exec_jsv_mode_supStack {ps : List Adr} (h : exec (.jsv ps) s = .next t) :
    t.mode = .user ∧ t.supStack = [] := by
  obtain ⟨u, r, -, -, rfl⟩ := jsv_next h
  exact ⟨rfl, rfl⟩

end Exec

/-! ### Steps -/

/-- A step is the kernel's resumption or a completed instruction (R80, R189). -/
theorem step_next {s t : State} (h : step s = .next t) :
    (∃ r, t = s.resumeUser r) ∨ s.mode = .user ∧ ∃ i, exec i s = .next t := by
  unfold step at h
  split at h
  · obtain ⟨r, -, ht⟩ := kernelOutcome_next h
    exact .inl ⟨r, ht⟩
  · rename_i hmode
    split at h
    · exact .inr ⟨hmode, _, h⟩
    · cases h

/-- Settles O14: the kernel resumes with the code and the parameters it was given, and no instruction writes them. -/
theorem stepKeepsCodeAndParameters : Obligations.StepKeepsCodeAndParameters := by
  intro s t h
  rcases step_next h with ⟨r, rfl⟩ | ⟨-, i, h⟩
  · exact ⟨rfl, rfl⟩
  · exact exec_code_params h

/-- A resumption of the kernel restores the invariant whatever it answers. -/
theorem inv_resumeUser {s : State} (hs : Inv s) (r : KernelResume) : Inv (s.resumeUser r) where
  data := memory_wf_writeAll _ _ hs.data
  stack := memory_wf_writeAll _ _ hs.stack
  code := hs.code
  params := hs.params
  pc := toPc_lt s r.pc
  supStack := Nat.zero_le _
  user := fun _ => rfl

/-- In user mode every completed instruction ends with an empty supervisor stack. -/
theorem exec_supStack_nil {i : Instr} {s t : State} (hs : s.supStack = []) (h : exec i s = .next t) :
    t.supStack = [] := by
  by_cases hj : ∃ ps, i = .jsv ps
  · obtain ⟨ps, rfl⟩ := hj
    exact (exec_jsv_mode_supStack h).2
  · exact (exec_mode_supStack h fun ps e => hj ⟨ps, e⟩).2.trans hs

/-- In user mode every completed instruction keeps the invariant. -/
theorem inv_exec {i : Instr} {s t : State} (hs : Inv s) (hmode : s.mode = .user) (h : exec i s = .next t) :
    Inv t := by
  obtain ⟨hcode, hparams⟩ := exec_code_params h
  obtain ⟨hdata, hstack⟩ := exec_wf h hs.data hs.stack
  obtain ⟨v, hpc⟩ := exec_pc h
  have hsup : t.supStack = [] := exec_supStack_nil (hs.user hmode) h
  exact {
    data := hdata
    stack := hstack
    code := hcode ▸ hs.code
    params := hparams ▸ hs.params
    pc := by rw [hpc, hparams]; exact toPc_lt s v
    supStack := by simp [hsup]
    user := fun _ => hsup }

/-- Settles O12: a step is the kernel's resumption or a completed instruction, and each keeps every clause. -/
theorem stepKeepsInvariant : Obligations.StepKeepsInvariant := by
  intro s t hs h
  rcases step_next h with ⟨r, rfl⟩ | ⟨hmode, i, h⟩
  · exact inv_resumeUser hs r
  · exact inv_exec hs hmode h

/-- Settles O13: no word is listed, and the program counter 0 is below every power of two. -/
theorem resetMeetsInvariant : Obligations.ResetMeetsInvariant := by
  obtain ⟨hdata, hstack, hcode⟩ := wf_reset
  exact {
    data := hdata
    stack := hstack
    code := hcode
    params := by decide
    pc := Nat.two_pow_pos _
    supStack := Nat.zero_le _
    user := fun _ => rfl }

end Sys2Proof.Machine
end

section
/-! PROOFS. The frames of the general and the special registers, what the destination forms leave in the program
counter, and the forms that move SP. -/

namespace Sys2Proof.Machine

/-! ### What pointers an addressing mode changes (R90, R91, R92) -/

/-- The addressing mode is one of the two that use this pointer (R12). -/
abbrev PointerMode (a : Adr) (p : Ptr) : Prop := a = .ptr p ∨ a = .stackPtr p

/-- From `s` to `u` only pointers that these addressing modes use have changed among the general registers, and XH only
if there is one. -/
structure PointerChanges (as : List Adr) (s u : State) : Prop where
  reg : ∀ q, u.reg q ≠ s.reg q → ∃ a ∈ as, ∃ p, PointerMode a p ∧ q = ptrReg p
  xh : u.xh ≠ s.xh → ∃ a ∈ as, ∃ p, PointerMode a p

theorem PointerChanges.nil (s : State) : PointerChanges [] s s where
  reg _ h := absurd rfl h
  xh h := absurd rfl h

/-- One addressing mode after the other. -/
theorem PointerChanges.cons {a : Adr} {as : List Adr} {s u v : State} (h : PointerChanges [a] s u)
    (h' : PointerChanges as u v) : PointerChanges (a :: as) s v where
  reg q hq := by
    by_cases hu : u.reg q = s.reg q
    · obtain ⟨b, hb, hp⟩ := h'.reg q (hu ▸ hq)
      exact ⟨b, List.mem_cons_of_mem a hb, hp⟩
    · obtain ⟨b, hb, hp⟩ := h.reg q hu
      exact ⟨b, List.mem_singleton.mp hb ▸ List.mem_cons_self, hp⟩
  xh hx := by
    by_cases hu : u.xh = s.xh
    · obtain ⟨b, hb, hp⟩ := h'.xh (hu ▸ hx)
      exact ⟨b, List.mem_cons_of_mem a hb, hp⟩
    · obtain ⟨b, hb, hp⟩ := h.xh hu
      exact ⟨b, List.mem_singleton.mp hb ▸ List.mem_cons_self, hp⟩

/-- Only the registers and XH count. -/
theorem PointerChanges.congr {as : List Adr} {s u s' u' : State} (h : PointerChanges as s u)
    (hs : s'.regs = s.regs) (hsx : s'.xh = s.xh) (hu : u'.regs = u.regs) (hux : u'.xh = u.xh) :
    PointerChanges as s' u' where
  reg q hq := h.reg q (by rwa [reg_congr u u' hu, reg_congr s s' hs] at hq)
  xh hx := h.xh (by rwa [hux, hsx] at hx)

/-- A post-increment is that of the pointer which the addressing mode uses. -/
theorem pointerMode_of_resolve_post {a : Adr} {bp : Word} {s : State} {x : PostInc}
    (h : (resolve a bp s).post = some x) : PointerMode a x.ptr := by
  cases a with
  | ptr p => exact .inl (Option.some.inj h ▸ rfl)
  | stackPtr p => exact .inr (Option.some.inj h ▸ rfl)
  | _ => cases h

/-- Phase 4 changes only the pointer of the addressing mode and XH (R92). -/
theorem pointerChanges_postInc (a : Adr) (bp : Word) (s : State) :
    PointerChanges [a] s ((resolve a bp s).postInc s) := by
  rcases hx : (resolve a bp s).post with _ | x
  · have e : (resolve a bp s).postInc s = s := by rw [Operand.postInc, hx]
    rw [e]
    exact ⟨fun q hq => absurd rfl hq, fun h => absurd rfl h⟩
  · have hmode : PointerMode a x.ptr := pointerMode_of_resolve_post hx
    refine ⟨fun q hq => ⟨a, List.mem_singleton_self a, x.ptr, hmode, ?_⟩,
      fun _ => ⟨a, List.mem_singleton_self a, x.ptr, hmode⟩⟩
    by_contra hne
    rw [postInc_reg, hx] at hq
    exact hq (if_neg (Ne.symm hne))

theorem pointerChanges_afterPost (a : Adr) (s : State) : PointerChanges [a] s (afterPost a s) :=
  pointerChanges_postInc a s.bp s

theorem pointerChanges_pushParams {ps : List Adr} {bp : Word} {s t : State} (h : pushParams ps bp s = .next t) :
    PointerChanges ps s t := by
  induction ps generalizing s t with
  | nil =>
    cases h
    exact .nil s
  | cons a ps ih =>
    obtain ⟨-, -, h⟩ := pushParams_cons h
    exact .cons ((pointerChanges_postInc a bp s).congr rfl rfl (by simp [pushed]) (by simp [pushed])) (ih h)

theorem pointerChanges_collectArgs {ps : List Adr} {bp : Word} {s : State} {x : State × List Word}
    (h : collectArgs ps bp s = .next x) : PointerChanges ps s x.1 := by
  induction ps generalizing s x with
  | nil =>
    cases h
    exact .nil s
  | cons a ps ih =>
    obtain ⟨-, y, hy, rfl⟩ := collectArgs_cons h
    have hrest : PointerChanges ps ((resolve a bp s).postInc ((resolve a bp s).afterRead s)) y.1 := ih hy
    exact .cons ((pointerChanges_postInc a bp s).congr rfl rfl (by simp) (by simp)) hrest

/-- The state handed to the kernel differs in pointers of the parameters alone (R189). -/
theorem pointerChanges_supervisorCall {ps : List Adr} {s u : State} (h : supervisorCall ps s = .next u) :
    PointerChanges ps s u := by
  obtain ⟨x, hx, rfl⟩ := supervisorCall_next h
  exact (pointerChanges_collectArgs hx).congr rfl rfl (by simp) (by simp)

/-- A call changes pointers of its target operand and of its parameters (R185, R186). -/
theorem pointerChanges_call {ps : List Adr} {a : Adr} {ret dest : Word} {s u : State}
    (h : pushParams ps s.bp (framed (afterReads a s) ret) = .next u) : PointerChanges (a :: ps) s (u.setPc dest) :=
  .cons ((pointerChanges_afterPost a s).congr rfl rfl (by simp) (by simp))
    ((pointerChanges_pushParams h).congr rfl rfl rfl rfl)

/-! ### Which addressing modes an instruction names -/

theorem usesPointer_of_operandOf {i : Instr} {a : Adr} {p : Ptr} (ha : operandOf i = some a) (hp : PointerMode a p) :
    UsesPointer i p := ⟨a, hp, .inl ha⟩

theorem usesPointer_jsv {ps : List Adr} {a : Adr} {p : Ptr} (ha : a ∈ ps) (hp : PointerMode a p) :
    UsesPointer (.jsv ps) p := ⟨a, hp, .inr ⟨ps, ha, .inl rfl⟩⟩

theorem usesPointer_callInstr {b : Bool} {c a : Adr} {ps : List Adr} {p : Ptr} (ha : a ∈ c :: ps)
    (hp : PointerMode a p) : UsesPointer (callInstr b c ps) p := by
  rcases List.mem_cons.mp ha with rfl | ha
  · exact usesPointer_of_operandOf (by cases b <;> rfl) hp
  · exact ⟨a, hp, .inr ⟨ps, ha, .inr ⟨b, c, rfl⟩⟩⟩

/-! ### The frames -/

/-- The frame of the general registers over every instruction but JSV. -/
theorem exec_reg {i : Instr} {s t : State} (h : exec i s = .next t) (hi : ∀ ps, i ≠ .jsv ps) (q : Reg)
    (hq : t.reg q ≠ s.reg q) :
    rxDestination i = some q ∨ storesTo i = some (.reg q) ∨ (carryForm i = true ∧ q = .c) ∨
      ∃ p, q = ptrReg p ∧ UsesPointer i p := by
  cases exec_completion h with
  | operand a ha hc hs =>
    rcases hs.reg q with hpost | hr | hstore | hcarry
    · obtain ⟨b, hb, p, hp, hqp⟩ := (pointerChanges_afterPost a s).reg q (hpost ▸ hq)
      exact .inr (.inr (.inr ⟨p, hqp, usesPointer_of_operandOf ha (List.mem_singleton.mp hb ▸ hp)⟩))
    · exact .inl hr
    · exact .inr (.inl hstore)
    · exact .inr (.inr (.inl hcarry))
  | call b a ps u hj hp ht =>
    subst hj ht
    obtain ⟨c, hc, p, hp, hqp⟩ := (pointerChanges_call hp).reg q hq
    exact .inr (.inr (.inr ⟨p, hqp, usesPointer_callInstr hc hp⟩))
  | supervisorCall ps u r hj hu ht => exact absurd hj (hi ps)
  | rfn hj ht =>
    subst ht
    exact absurd (reg_setTos { s with bp := s.readWord .stack (s.bp - 1) } _ q) hq
  | pcOnly v hr hs ht =>
    subst ht
    exact absurd rfl hq

/-- Settles O15: phase 4 changes pointers of the named modes, phases 5 and 6 the named destinations. -/
theorem registersChangeOnlyWhereNamed : Obligations.RegistersChangeOnlyWhereNamed := by
  refine ⟨fun i s t h q hq => ?_, fun ps s u h q hq => ?_⟩
  · by_cases hj : ∃ ps, i = .jsv ps
    · exact .inr (.inr (.inr (.inr hj)))
    · rcases exec_reg h (fun ps e => hj ⟨ps, e⟩) q hq with hr | hs | hc | hp
      · exact .inl hr
      · exact .inr (.inl hs)
      · exact .inr (.inr (.inl hc))
      · exact .inr (.inr (.inr (.inl hp)))
  · obtain ⟨a, ha, p, hp, hqp⟩ := (pointerChanges_supervisorCall h).reg q hq
    exact ⟨p, hqp, usesPointer_jsv ha hp⟩

/-- XM changes only where it or a part of it is the destination (R18). -/
theorem exec_xm {i : Instr} {s t : State} (h : exec i s = .next t) (hi : ∀ ps, i ≠ .jsv ps) (hx : t.xm ≠ s.xm) :
    (∃ a, i = .movXMAdr a) ∨ ∃ n a, i = .movXmnAdr n a := by
  cases exec_completion h with
  | operand a ha hc hs => exact hs.special_registers.1.resolve_left hx
  | call b a ps u hj hp ht =>
    obtain ⟨-, hxm, -⟩ := pushParams_frame hp
    subst ht
    exact absurd (by simpa using hxm) hx
  | supervisorCall ps u r hj hu ht => exact absurd hj (hi ps)
  | rfn hj ht => exact absurd (by simp [ht]) hx
  | pcOnly v hr hs ht => exact absurd (by simp [ht]) hx

/-- XH changes only where it or a part of it is the destination, or a pointer is used (R19, R92). -/
theorem exec_xh {i : Instr} {s t : State} (h : exec i s = .next t) (hi : ∀ ps, i ≠ .jsv ps) (hx : t.xh ≠ s.xh) :
    (∃ a, i = .movXHAdr a) ∨ (∃ n a, i = .movXhnAdr n a) ∨ ∃ p, UsesPointer i p := by
  cases exec_completion h with
  | operand a ha hc hs =>
    obtain ⟨-, hxh, -⟩ := hs.special_registers
    rcases hxh with hpost | hwhole | hpart
    · obtain ⟨b, hb, p, hp⟩ := (pointerChanges_afterPost a s).xh (hpost ▸ hx)
      exact .inr (.inr ⟨p, usesPointer_of_operandOf ha (List.mem_singleton.mp hb ▸ hp)⟩)
    · exact .inl hwhole
    · exact .inr (.inl hpart)
  | call b a ps u hj hp ht =>
    subst hj ht
    obtain ⟨c, hc, p, hp⟩ := (pointerChanges_call hp).xh hx
    exact .inr (.inr ⟨p, usesPointer_callInstr hc hp⟩)
  | supervisorCall ps u r hj hu ht => exact absurd hj (hi ps)
  | rfn hj ht => exact absurd (by simp [ht]) hx
  | pcOnly v hr hs ht => exact absurd (by simp [ht]) hx

/-- SP changes only where it is the destination, in calls and in returns (R21). -/
theorem exec_sp {i : Instr} {s t : State} (h : exec i s = .next t) (hi : ∀ ps, i ≠ .jsv ps) (hx : t.sp ≠ s.sp) :
    (∃ a, i = .movSpAdr a) ∨ (∃ a, i = .addSpAdr a) ∨ (∃ a, i = .subSpAdr a) ∨
      (∃ b a ps, i = callInstr b a ps) ∨ i = .rfn := by
  cases exec_completion h with
  | operand a ha hc hs =>
    obtain ⟨-, -, hsp⟩ := hs.special_registers
    rcases hsp with hsp | hmov | hadd | hsub
    · exact absurd hsp hx
    · exact .inl hmov
    · exact .inr (.inl hadd)
    · exact .inr (.inr (.inl hsub))
  | call b a ps u hj hp ht => exact .inr (.inr (.inr (.inl ⟨b, a, ps, hj⟩)))
  | supervisorCall ps u r hj hu ht => exact absurd hj (hi ps)
  | rfn hj ht => exact .inr (.inr (.inr (.inr hj)))
  | pcOnly v hr hs ht => exact absurd (by simp [ht]) hx

/-- Settles O16: register by register from what each kind of completed instruction writes. -/
theorem specialRegistersChangeOnlyByTheirInstructions :
    Obligations.SpecialRegistersChangeOnlyByTheirInstructions := by
  refine ⟨fun i s t h hi => ⟨exec_xm h hi, exec_xh h hi, exec_sp h hi, exec_mode_supStack h hi⟩,
    fun ps s t h => exec_jsv_mode_supStack h, fun ps s u h => ?_⟩
  obtain ⟨-, -, hxm, hsp, -⟩ := supervisorCall_frame h
  refine ⟨hxm, hsp, fun hx => ?_⟩
  obtain ⟨a, ha, p, hp⟩ := (pointerChanges_supervisorCall h).xh hx
  exact ⟨p, usesPointer_jsv ha hp⟩

/-- Settles O17: an instruction with an address operand keeps BP, and so does the entry of a supervisor call. -/
theorem basePointerChangesOnlyByCallsAndReturn : Obligations.BasePointerChangesOnlyByCallsAndReturn := by
  refine ⟨fun i s t h hx => ?_, fun ps s u h => ?_⟩
  · cases exec_completion h with
    | operand a ha hc hs => exact absurd hs.keeps.1 hx
    | call b a ps u hj hp ht => exact .inl ⟨b, a, ps, hj⟩
    | supervisorCall ps u r hj hu ht => exact .inr (.inr ⟨ps, hj⟩)
    | rfn hj ht => exact .inr (.inl hj)
    | pcOnly v hr hs ht => exact absurd (by simp [ht]) hx
  · obtain ⟨-, -, -, -, hbp, -⟩ := supervisorCall_frame h
    exact hbp

/-- Settles O19: only the forms with an `rx` destination or a stored operand have one, and these advance past their
words. -/
theorem writingInstructionsAdvancePastTheirWords : Obligations.WritingInstructionsAdvancePastTheirWords := by
  intro i s t h hdest
  cases exec_completion h with
  | operand a ha hc hs =>
    rcases hs.pc with hpc | ⟨hr, hs, -⟩
    · exact hpc
    · simp [hr, hs] at hdest
  | call b a ps u hj hp ht =>
    subst hj
    cases b <;> simp [callInstr, rxDestination, storesTo] at hdest
  | supervisorCall ps u r hj hu ht => simp [hj, rxDestination, storesTo] at hdest
  | rfn hj ht => simp [hj, rxDestination, storesTo] at hdest
  | pcOnly v hr hs ht => simp [hr, hs] at hdest

/-! ### MOV SP, adr and MOV adr, SP (R120, R121) -/

/-- The ignored bits 8 and 6 leave the rows of the two forms as they are (R64). -/
theorem findRow_movSp : ∀ x y : BitVec 1,
    findRow ((0b1000001#7 ++ x ++ 1#1 ++ y : BitVec 10) ++ 0#6) =
      some ⟨0xFE80, 0x8280, .adr fun _ a => .movSpAdr a⟩ ∧
    findRow ((0b1000000#7 ++ x ++ 1#1 ++ y : BitVec 10) ++ 0#6) =
      some ⟨0xFE80, 0x8080, .adr fun _ a => .movAdrSp a⟩ := by
  have bit : ∀ x : BitVec 1, x = 0 ∨ x = 1 := by decide
  intro x y
  rcases bit x with rfl | rfl <;> rcases bit y with rfl | rfl <;> exact ⟨rfl, rfl⟩

/-- MOV SP, adr where its operand is usable: phase 4, then SP, then the advance. -/
theorem exec_movSpAdr {s t : State} {a : Adr} (h : exec (.movSpAdr a) s = .next t) :
    t = { afterReads a s with sp := operandValue a s }.advance (instrWords a) :=
  (loadSpecial_next (f := fun u v => { u with sp := v }) h).2

/-- Settles O28: the rows of the table, the effects of the two forms, and the first free word by the kind of SP. -/
theorem movMovesStackPointer : Obligations.MovMovesStackPointer := by
  refine ⟨fun x y a => ⟨fun rest => ?_, fun rest => ?_⟩, fun s a hu => ⟨?_, ?_, fun t h => ?_⟩⟩
  · exact decode_encodeWith _ a rest _ _ _ (findRow_movSp x y).1
  · exact decode_encodeWith _ a rest _ _ _ (findRow_movSp x y).2
  · exact loadSpecial_writes (put := fun u v => { u with sp := v }) _ rfl hu (by simp)
  · exact storeAdr_writes _ rfl hu
  · obtain rfl := exec_movSpAdr h
    cases hsp : s.params.spRelative <;> simp [State.tos, hsp]

end Sys2Proof.Machine
end

section
/-! PROOFS. The machine with an absolute SP runs in step with the one whose SP counts from BP (R21, D6): each operation
on the state commutes with `absoluteSp`, then each shape of an instruction does. -/

namespace Sys2Proof.Machine

/-! ### Outcomes in step -/

/-- Where the first operation goes on, the second goes on to what `f` makes of its answer. -/
def RunsInStep {α : Type} (f : α → α) (x y : Result α) : Prop := ∀ t, x = .next t → y = .next (f t)

theorem next_inStep {α : Type} {f : α → α} {u v : α} (h : v = f u) : RunsInStep f (.next u) (.next v) := by
  rintro t ⟨rfl⟩
  rw [h]

theorem thenNext_inStep {α β : Type} {f : α → α} {g : β → β} {x y : Result α} {k k' : α → Result β}
    (hx : RunsInStep f x y) (hk : ∀ u, RunsInStep g (k u) (k' (f u))) :
    RunsInStep g (thenNext x k) (thenNext y k') := by
  intro t h
  obtain ⟨u, hu, h⟩ := thenNext_next h
  rw [hx u hu]
  exact hk u t h

/-- The same addresses exist on both sides (R32). -/
theorem guardAccess_inStep {α : Type} {f : α → α} {s : State} {sp : Space} {a : Word} {k k' : Result α}
    (hk : RunsInStep f k k') : RunsInStep f (guardAccess s sp a k) (guardAccess (absoluteSp s) sp a k') := by
  intro t h
  obtain ⟨hm, h⟩ := guardAccess_next h
  rw [guardAccess_mapped (absoluteSp s) sp a k' hm]
  exact hk t h

/-! ### Operations that do not look at SP -/

section Ops
variable (s : State)

@[simp] theorem absoluteSp_reg (q : Reg) : (absoluteSp s).reg q = s.reg q := rfl
@[simp] theorem absoluteSp_carry : (absoluteSp s).carry = s.carry := rfl
@[simp] theorem absoluteSp_isDevice (sp : Space) (a : Word) : (absoluteSp s).isDevice sp a = s.isDevice sp a := rfl
@[simp] theorem absoluteSp_readWord (sp : Space) (a : Word) : (absoluteSp s).readWord sp a = s.readWord sp a := rfl

@[simp] theorem absoluteSp_setReg (r : Reg) (v : Word) : absoluteSp (s.setReg r v) = (absoluteSp s).setReg r v := rfl
@[simp] theorem absoluteSp_setPc (v : Word) : absoluteSp (s.setPc v) = (absoluteSp s).setPc v := rfl
@[simp] theorem absoluteSp_advance (n : Nat) : absoluteSp (s.advance n) = (absoluteSp s).advance n := rfl

@[simp] theorem absoluteSp_writeCarry (c : Bool) (v : Word) :
    absoluteSp (s.writeCarry c v) = (absoluteSp s).writeCarry c v := by cases c <;> rfl

@[simp] theorem absoluteSp_writeWord (sp : Space) (a v : Word) :
    absoluteSp (s.writeWord sp a v) = (absoluteSp s).writeWord sp a v := by cases sp <;> rfl

@[simp] theorem absoluteSp_afterLoad (sp : Space) (a : Word) :
    absoluteSp (s.afterLoad sp a) = (absoluteSp s).afterLoad sp a := by
  unfold State.afterLoad
  rw [absoluteSp_isDevice]
  split <;> rfl

@[simp] theorem absoluteSp_store (sp : Space) (a : Word) (f : Option BitField) (v : Word) :
    absoluteSp (s.store sp a f v) = (absoluteSp s).store sp a f v := by
  unfold State.store
  rw [absoluteSp_isDevice, absoluteSp_readWord]
  split
  · rfl
  · exact absoluteSp_writeWord s sp a _

/-- No addressing mode looks at SP (R82). -/
@[simp] theorem resolve_absoluteSp (a : Adr) (bp : Word) : resolve a bp (absoluteSp s) = resolve a bp s := by
  cases a <;> rfl

variable (o : Operand)

@[simp] theorem read_absoluteSp : o.read (absoluteSp s) = o.read s := by
  unfold Operand.read
  split <;> rfl

@[simp] theorem absoluteSp_afterRead : absoluteSp (o.afterRead s) = o.afterRead (absoluteSp s) := by
  unfold Operand.afterRead
  split
  · rfl
  · rfl
  · exact absoluteSp_afterLoad s _ _

@[simp] theorem absoluteSp_postInc : absoluteSp (o.postInc s) = o.postInc (absoluteSp s) := by
  unfold Operand.postInc
  split <;> rfl

@[simp] theorem absoluteSp_write (v : Word) : absoluteSp (o.write v s) = o.write v (absoluteSp s) := by
  unfold Operand.write
  split
  · rfl
  · rfl
  · exact absoluteSp_store s _ _ _ _

end Ops

/-- What follows an operand in step makes the operation on it run in step. -/
theorem onOperand_inStep {α : Type} {f : α → α} {a : Adr} {bp : Word} {s : State} {k k' : Operand → Result α}
    (hk : RunsInStep f (k (resolve a bp s)) (k' (resolve a bp s))) :
    RunsInStep f (onOperand a bp s k) (onOperand a bp (absoluteSp s) k') := by
  intro t h
  obtain ⟨hu, h⟩ := onOperand_next h
  rw [onOperand_usable a bp (absoluteSp s) k' (by rw [resolve_absoluteSp]; exact hu), resolve_absoluteSp]
  exact hk t h

/-! ### Operations on SP: both machines have the same first free word -/

@[simp] theorem absoluteSp_tos (s : State) : (absoluteSp s).tos = s.tos := rfl

section Relative
variable {s : State} (h : s.params.spRelative = true)
include h

/-- A push raises a relative and an absolute SP alike (R186). -/
theorem absoluteSp_pushed (v : Word) : absoluteSp (pushed s v) = pushed (absoluteSp s) v := by
  have hs : s.bp + (s.sp + 1#16) = s.bp + s.sp + 1#16 := (BitVec.add_assoc _ _ _).symm
  simp [absoluteSp, pushed, State.tos, State.writeWord, h, hs]

/-- With BP moved, setting the first free word sets it on both sides (R184). -/
theorem absoluteSp_setTos_bp (b a : Word) :
    absoluteSp (({ s with bp := b }).setTos a) = ({ absoluteSp s with bp := b }).setTos a := by
  have ha : b + (a - b) = a := by rw [BitVec.add_comm, BitVec.sub_add_cancel]
  simp [absoluteSp, State.setTos, State.tos, h, ha]

/-- Both frames start at the same stack address (R186). -/
theorem absoluteSp_framed (ret : Word) : absoluteSp (framed s ret) = framed (absoluteSp s) ret :=
  absoluteSp_setTos_bp (s := (s.writeWord .stack s.tos ret).writeWord .stack (s.tos + 1) s.bp) (by simpa using h) _ _

theorem leaveFrame_inStep : RunsInStep absoluteSp (leaveFrame s) (leaveFrame (absoluteSp s)) :=
  guardAccess_inStep (guardAccess_inStep (next_inStep
    (congrArg (fun u => State.setPc u (s.readWord .stack (s.bp - 2))) (absoluteSp_setTos_bp h _ _).symm)))

end Relative

/-- A parameter list pushes the same words to the same addresses (R185). -/
theorem pushParams_inStep (ps : List Adr) (bp : Word) {s : State} (h : s.params.spRelative = true) :
    RunsInStep absoluteSp (pushParams ps bp s) (pushParams ps bp (absoluteSp s)) := by
  induction ps generalizing s with
  | nil => exact next_inStep rfl
  | cons a ps ih =>
    refine onOperand_inStep ?_
    rw [← absoluteSp_afterRead, ← absoluteSp_postInc, read_absoluteSp]
    refine guardAccess_inStep ?_
    have hread : ((resolve a bp s).postInc ((resolve a bp s).afterRead s)).params.spRelative = true := by simpa using h
    have hrest := ih (s := pushed ((resolve a bp s).postInc ((resolve a bp s).afterRead s)) ((resolve a bp s).read s))
      (by simpa [pushed] using h)
    rwa [absoluteSp_pushed hread] at hrest

/-- The supervisor call's parameters are the same words, and the state they leave differs in SP alone (R189). -/
theorem collectArgs_inStep (ps : List Adr) (bp : Word) (s : State) :
    RunsInStep (Prod.map absoluteSp id) (collectArgs ps bp s) (collectArgs ps bp (absoluteSp s)) := by
  induction ps generalizing s with
  | nil => exact next_inStep rfl
  | cons a ps ih =>
    refine onOperand_inStep ?_
    rw [← absoluteSp_afterRead, ← absoluteSp_postInc, read_absoluteSp]
    exact thenNext_inStep (ih _) fun x => next_inStep rfl

theorem supervisorCall_inStep (ps : List Adr) (s : State) :
    RunsInStep absoluteSp (supervisorCall ps s) (supervisorCall ps (absoluteSp s)) :=
  thenNext_inStep (f := Prod.map absoluteSp id) (collectArgs_inStep ps s.bp s) fun _ => next_inStep rfl

/-! ### Every shape of an instruction -/

section Shapes
variable (a : Adr) (r : Reg) (c : Bool) (s : State)

theorem opRx_inStep (f : Word → Word → Word → AluOut) :
    RunsInStep absoluteSp (opRx f c r a s) (opRx f c r a (absoluteSp s)) :=
  onOperand_inStep (next_inStep (by simp))

theorem opAdr_inStep (f : Word → Word → Word → AluOut) :
    RunsInStep absoluteSp (opAdr f c a r s) (opAdr f c a r (absoluteSp s)) :=
  onOperand_inStep (next_inStep (by simp))

theorem loadRx_inStep (f : Word → Word) : RunsInStep absoluteSp (loadRx f r a s) (loadRx f r a (absoluteSp s)) :=
  onOperand_inStep (next_inStep (by simp))

theorem storeAdr_inStep (v : Word) : RunsInStep absoluteSp (storeAdr v a s) (storeAdr v a (absoluteSp s)) :=
  onOperand_inStep (next_inStep (by simp))

theorem exchange_inStep : RunsInStep absoluteSp (exchange r a s) (exchange r a (absoluteSp s)) :=
  onOperand_inStep (next_inStep (by simp))

theorem modifyAdr_inStep (f : Word → Word) : RunsInStep absoluteSp (modifyAdr f a s) (modifyAdr f a (absoluteSp s)) :=
  onOperand_inStep (next_inStep (by simp))

theorem skipIf_inStep (f : Word → Bool) : RunsInStep absoluteSp (skipIf f a s) (skipIf f a (absoluteSp s)) :=
  onOperand_inStep (next_inStep (by simp))

theorem jumpTo_inStep (f : Word → Word) : RunsInStep absoluteSp (jumpTo f a s) (jumpTo f a (absoluteSp s)) :=
  onOperand_inStep (next_inStep (by simp))

/-- A load of a special register runs in step where its write does, on a state of the same parameters. -/
theorem loadSpecial_inStep {put : State → Word → State}
    (hput : ∀ u v, u.params = s.params → put (absoluteSp u) v = absoluteSp (put u v)) :
    RunsInStep absoluteSp (loadSpecial put a s) (loadSpecial put a (absoluteSp s)) :=
  onOperand_inStep (next_inStep (by simp [← hput]))

/-- A call enters the frame, pushes and jumps alike (R186, R187). -/
theorem callTo_inStep (f : Word → Word) (ps : List Adr) (h : s.params.spRelative = true) :
    RunsInStep absoluteSp (callTo f a ps s) (callTo f a ps (absoluteSp s)) := by
  refine onOperand_inStep ?_
  rw [← absoluteSp_afterRead, ← absoluteSp_postInc, read_absoluteSp]
  refine guardAccess_inStep (guardAccess_inStep ?_)
  refine thenNext_inStep (f := absoluteSp) ?_ fun u => next_inStep (absoluteSp_setPc u _).symm
  have hframe := pushParams_inStep ps s.bp
    (s := framed ((resolve a s.bp s).postInc ((resolve a s.bp s).afterRead s))
      (s.toPc (s.pc + BitVec.ofNat 16 (instrWords a)))) (by simpa using h)
  rwa [absoluteSp_framed (by simpa using h)] at hframe

end Shapes

/-! ### Every instruction -/

/-- Every instruction but the two that move SP as a number, and JSV, runs in step. -/
theorem exec_inStep (i : Instr) (s : State) (h : s.params.spRelative = true) (hload : ∀ a, i ≠ .movSpAdr a)
    (hstore : ∀ a, i ≠ .movAdrSp a) (hjsv : ∀ ps, i ≠ .jsv ps) :
    RunsInStep absoluteSp (exec i s) (exec i (absoluteSp s)) := by
  cases i
  case movSpAdr b => exact absurd rfl (hload b)
  case movAdrSp b => exact absurd rfl (hstore b)
  case jsv ps => exact absurd rfl (hjsv ps)
  case movAdrRx b r | movAdrXmn n b | movAdrXhn n b | notAdrRx b r | negAdrRx b r | movAdrXM b | movAdrXH b =>
    exact storeAdr_inStep b s _
  case movRxAdr r b => exact loadRx_inStep b r s fun v => v
  case notRxAdr r b | negRxAdr r b => exact loadRx_inStep b r s _
  case movXmnAdr n b =>
    exact loadSpecial_inStep b s (put := fun t v => { t with xm := setPart t.xm n (v.extractLsb' 0 4) })
      fun _ _ _ => rfl
  case movXhnAdr n b =>
    exact loadSpecial_inStep b s (put := fun t v => { t with xh := setPart t.xh n (v.extractLsb' 0 4) })
      fun _ _ _ => rfl
  case movXMAdr b => exact loadSpecial_inStep b s (put := fun t v => { t with xm := v }) fun _ _ _ => rfl
  case movXHAdr b => exact loadSpecial_inStep b s (put := fun t v => { t with xh := v }) fun _ _ _ => rfl
  case addSpAdr b =>
    refine loadSpecial_inStep b s (put := fun t v => { t with sp := t.sp + v }) fun u v hu => ?_
    simp [absoluteSp, State.tos, hu, h, BitVec.add_assoc]
  case subSpAdr b =>
    refine loadSpecial_inStep b s (put := fun t v => { t with sp := t.sp - v }) fun u v hu => ?_
    simp [absoluteSp, State.tos, hu, h, BitVec.sub_eq_add_neg, BitVec.add_assoc]
  case addAdrRx b r | addCAdrRx b r | subAdrRx b r | subCAdrRx b r | divAdrRx b r | divCAdrRx b r | adcAdrRx b r |
    adcCAdrRx b r | sbcAdrRx b r | sbcCAdrRx b r | mulAdrRx b r | mulCAdrRx b r | shlAdrRx b r | shlCAdrRx b r |
    shrAdrRx b r | shrCAdrRx b r | macAdrRx b r | macCAdrRx b r | asrAdrRx b r | asrCAdrRx b r | slcAdrRx b r |
    slcCAdrRx b r | srcAdrRx b r | srcCAdrRx b r | orAdrRx b r | andAdrRx b r | xorAdrRx b r =>
    exact opAdr_inStep b r _ s _
  case addRxAdr r b | addCRxAdr r b | subRxAdr r b | subCRxAdr r b | divRxAdr r b | divCRxAdr r b | adcRxAdr r b |
    adcCRxAdr r b | sbcRxAdr r b | sbcCRxAdr r b | mulRxAdr r b | mulCRxAdr r b | shlRxAdr r b | shlCRxAdr r b |
    shrRxAdr r b | shrCRxAdr r b | macRxAdr r b | macCRxAdr r b | asrRxAdr r b | asrCRxAdr r b | slcRxAdr r b |
    slcCRxAdr r b | srcRxAdr r b | srcCRxAdr r b | orRxAdr r b | andRxAdr r b | xorRxAdr r b =>
    exact opRx_inStep b r _ s _
  case xchAdrRx b r | xchRxAdr r b => exact exchange_inStep b r s
  case btc b k => exact modifyAdr_inStep b s fun v => v &&& ~~~(bitMask k)
  case bts b k => exact modifyAdr_inStep b s fun v => v ||| bitMask k
  case xbc b k => exact skipIf_inStep b s fun v => !v.getLsbD k.toNat
  case xbs b k => exact skipIf_inStep b s fun v => v.getLsbD k.toNat
  case xeqAdrRx b r => exact skipIf_inStep b s fun v => v == s.reg r
  case xeqRxAdr r b => exact skipIf_inStep b s fun v => s.reg r == v
  case xsgAdrRx b r => exact skipIf_inStep b s fun v => signedGreater v (s.reg r)
  case xsgRxAdr r b => exact skipIf_inStep b s fun v => signedGreater (s.reg r) v
  case xneAdrRx b r => exact skipIf_inStep b s fun v => v != s.reg r
  case xneRxAdr r b => exact skipIf_inStep b s fun v => s.reg r != v
  case xugAdrRx b r => exact skipIf_inStep b s fun v => unsignedGreater v (s.reg r)
  case xugRxAdr r b => exact skipIf_inStep b s fun v => unsignedGreater (s.reg r) v
  case jmr b => exact jumpTo_inStep b s fun v => s.pc + v
  case jma b => exact jumpTo_inStep b s fun v => v
  case jfr b ps => exact callTo_inStep b s (fun v => s.pc + v) ps h
  case jfa b ps => exact callTo_inStep b s (fun v => v) ps h
  case rfn => exact leaveFrame_inStep h
  case jms off => exact next_inStep rfl
  case nop => exact next_inStep rfl
  case supervisorArea bits => exact fun t ht => absurd ht (exec_supervisorArea_ne_next bits s t)

/-- Settles O59: `absoluteSp` commutes with every shape of an instruction, and with the entry of a supervisor call. -/
theorem absoluteStackPointerSimulates : Obligations.AbsoluteStackPointerSimulates :=
  ⟨fun i s t h hload hstore hjsv => exec_inStep i s h hload hstore hjsv t,
    fun ps s u _ => supervisorCall_inStep ps s u⟩

end Sys2Proof.Machine
end

section
/-! PROOFS. Words and instructions: each first word selects one row, what the encoder writes reads back, and from there
the step that runs the words in code space. -/

namespace Sys2Proof

/-! ### The row of a first word (R65) -/

theorem selects_iff {row : OpcodeRow} {w : Word} : row.selects w = true ↔ w &&& row.mask = row.pattern := beq_iff_eq

/-- The patterns of two rows differ on some bit that both look at. -/
abbrev OpcodeRow.Apart (x y : OpcodeRow) : Prop := x.mask &&& y.mask &&& (x.pattern ^^^ y.pattern) ≠ 0

theorem opcodeTable_apart : opcodeTable.Pairwise OpcodeRow.Apart := by decide

/-- No word selects both of two such rows. -/
theorem OpcodeRow.Apart.not_selects {x y : OpcodeRow} {w : Word} (h : x.Apart y) (hy : y.selects w = true) :
    ¬ x.selects w = true := by
  intro hx
  refine h ?_
  rw [selects_iff] at hx hy
  rw [← hx, ← hy]
  ext k
  simp only [BitVec.getElem_and, BitVec.getElem_xor]
  cases w[k] <;> cases x.mask[k] <;> cases y.mask[k] <;> simp

/-- Among rows that are apart, the one that a word selects is the first that it selects. -/
theorem find?_of_selects {l : List OpcodeRow} {row : OpcodeRow} {w : Word} (hl : l.Pairwise OpcodeRow.Apart)
    (hm : row ∈ l) (hs : row.selects w = true) : l.find? (fun r => r.selects w) = some row := by
  induction l with
  | nil => cases hm
  | cons r rest ih =>
    obtain ⟨hr, hrest⟩ := List.pairwise_cons.mp hl
    rcases List.mem_cons.mp hm with rfl | hm
    · exact List.find?_cons_of_pos hs
    · have hne : ¬ r.selects w = true := (hr row hm).not_selects hs
      exact (List.find?_cons_of_neg (p := fun r : OpcodeRow => r.selects w) hne).trans (ih hrest hm)

/-- The row that a word selects is the one `findRow` answers. -/
theorem findRow_of_selects {row : OpcodeRow} {w : Word} (hm : row ∈ opcodeTable) (hs : row.selects w = true) :
    findRow w = some row := find?_of_selects opcodeTable_apart hm hs

theorem mem_and_selects_of_findRow {row : OpcodeRow} {w : Word} (h : findRow w = some row) :
    row ∈ opcodeTable ∧ row.selects w = true :=
  ⟨List.mem_of_find?_eq_some h, List.find?_some (p := fun r : OpcodeRow => r.selects w) h⟩

/-- The row of one word is that of every word with the same bits under its mask. -/
theorem findRow_congr {row : OpcodeRow} {w w' : Word} (h : findRow w = some row)
    (hw : w' &&& row.mask = w &&& row.mask) : findRow w' = some row := by
  obtain ⟨hm, hs⟩ := mem_and_selects_of_findRow h
  exact findRow_of_selects hm (selects_iff.mpr (hw.trans (selects_iff.mp hs)))

/-- A mask of high bits hides the field below them. -/
theorem append_and_mask {n m : Nat} (x : BitVec n) (y : BitVec m) :
    (x ++ y) &&& (BitVec.allOnes n ++ 0#m) = x ++ 0#m := by
  rw [BitVec.and_append, BitVec.and_allOnes, BitVec.and_zero]

/-- A mask of high bits hides the field between them and the addressing mode. -/
theorem append_append_and_mask {n m k : Nat} (x : BitVec n) (y : BitVec m) :
    (x ++ y ++ 0#k) &&& (BitVec.allOnes n ++ 0#m ++ 0#k) = x ++ 0#m ++ 0#k := by
  rw [BitVec.and_append, append_and_mask, BitVec.and_zero]

/-- The masks of the formats RA, NA and IA, field by field (R52, R53, R57). -/
theorem mask_FE00 : (0xFE00 : Word) = (BitVec.allOnes 7 ++ 0#3 : BitVec 10) ++ 0#6 := by decide
theorem mask_FF00 : (0xFF00 : Word) = (BitVec.allOnes 8 ++ 0#2 : BitVec 10) ++ 0#6 := by decide
theorem mask_FC00 : (0xFC00 : Word) = (BitVec.allOnes 6 ++ 0#4 : BitVec 10) ++ 0#6 := by decide

/-! ### Encoded instructions read back (R52 to R60, R185) -/

/-- A first word whose ten high bits are fixed (R54, R55): the row's instruction. -/
theorem decode_encodeWith_fixed {hi : BitVec 10} {mk : Adr → Instr} {m p : Word}
    (h : findRow (hi ++ 0#6) = some ⟨m, p, .adr fun _ a => mk a⟩) (a : Adr) (rest : List Word) :
    decode (encodeWith hi a ++ rest) = .ok (mk a, rest) := decode_encodeWith hi a rest m p _ h

/-- A first word of format RA (R52): the row's instruction, the register read back. -/
theorem decode_encodeWith_rx {x : BitVec 7} {mk : Reg → Adr → Instr} {p : Word}
    (h : findRow ((x ++ 0#3 : BitVec 10) ++ 0#6) = some ⟨0xFE00, p, .adr fun w a => mk (rxField w) a⟩)
    (r : Reg) (a : Adr) (rest : List Word) :
    decode (encodeWith (x ++ r.bits) a ++ rest) = .ok (mk r a, rest) := by
  have hmask : ∀ y : BitVec 3,
      ((x ++ y : BitVec 10) ++ 0#6 : Word) &&& 0xFE00 = (x ++ 0#3 : BitVec 10) ++ 0#6 := by
    rw [mask_FE00]
    exact append_append_and_mask x
  rw [decode_encodeWith _ a rest _ p _ (findRow_congr h ((hmask _).trans (hmask 0#3).symm)), rxField_append]

/-- A first word of format NA (R53): the row's instruction, the part number read back. -/
theorem decode_encodeWith_part {x : BitVec 8} {mk : PartNo → Adr → Instr} {p : Word}
    (h : findRow ((x ++ 0#2 : BitVec 10) ++ 0#6) = some ⟨0xFF00, p, .adr fun w a => mk (partField w) a⟩)
    (n : PartNo) (a : Adr) (rest : List Word) :
    decode (encodeWith (x ++ n.bits) a ++ rest) = .ok (mk n a, rest) := by
  have hmask : ∀ y : BitVec 2,
      ((x ++ y : BitVec 10) ++ 0#6 : Word) &&& 0xFF00 = (x ++ 0#2 : BitVec 10) ++ 0#6 := by
    rw [mask_FF00]
    exact append_append_and_mask x
  rw [decode_encodeWith _ a rest _ p _ (findRow_congr h ((hmask _).trans (hmask 0#2).symm)), partField_append]

/-- A first word of format IA (R57): the row's instruction, the bit number read back. -/
theorem decode_encodeWith_bit {x : BitVec 6} {mk : Nibble → Adr → Instr} {p : Word}
    (h : findRow ((x ++ 0#4 : BitVec 10) ++ 0#6) = some ⟨0xFC00, p, .adr fun w a => mk (bitField w) a⟩)
    (b : Nibble) (a : Adr) (rest : List Word) :
    decode (encodeWith (x ++ b) a ++ rest) = .ok (mk b a, rest) := by
  have hmask : ∀ y : BitVec 4,
      ((x ++ y : BitVec 10) ++ 0#6 : Word) &&& 0xFC00 = (x ++ 0#4 : BitVec 10) ++ 0#6 := by
    rw [mask_FC00]
    exact append_append_and_mask x
  rw [decode_encodeWith _ a rest _ p _ (findRow_congr h ((hmask _).trans (hmask 0#4).symm)), bitField_append]

/-- A non-empty parameter list reads back, up to its last word or the sixteenth (R185). -/
theorem decodeParams_encodeParams {ps : List Adr} {n : Nat} (hps : ps ≠ []) (hn : ps.length ≤ n) (rest : List Word) :
    decodeParams n (encodeParams ps ++ rest) = .ok (ps, rest) := by
  induction ps generalizing n with
  | nil => exact absurd rfl hps
  | cons a ps ih =>
    obtain ⟨n, rfl⟩ : ∃ m, n = m + 1 := Nat.exists_eq_add_one.mpr (by simp at hn; omega)
    cases ps with
    | nil => exact decodeParams_encodeParam n true a rest
    | cons b ps =>
      rw [encodeParams, List.append_assoc, decodeParams_encodeParam, ih (by simp) (by simpa using hn)]

/-- A parameter list reads back under the `e` bit that announces it (R185, D24). -/
theorem decodeParamList_encodeParams {ps : List Adr} (h : paramsOk ps = true) (rest : List Word) :
    decodeParamList ps.isEmpty (encodeParams ps ++ rest) = .ok (ps, rest) := by
  cases ps with
  | nil => rfl
  | cons a ps => exact decodeParams_encodeParams (by simp) (of_decide_eq_true h) rest

/-- The words of a call read back with their parameter list (R56, R185). -/
theorem decode_encodeWith_params {x : BitVec 9} {mk : Adr → List Adr → Instr} {m p : Word}
    (h : ∀ e, findRow ((x ++ BitVec.ofBool e : BitVec 10) ++ 0#6) = some ⟨m, p, .call mk⟩) (a : Adr) {ps : List Adr}
    (hps : paramsOk ps = true) (rest : List Word) :
    decode (encodeWith (x ++ BitVec.ofBool ps.isEmpty) a ++ encodeParams ps ++ rest) = .ok (mk a ps, rest) := by
  rw [List.append_assoc, decode_encodeWith_call _ a _ m p mk (h _), eField_append, decodeParamList_encodeParams hps]

/-- Decode undoes encode, whatever words follow (R60 to R62, R65, R71, R185). -/
theorem decode_encode (i : Instr) (rest : List Word) (hw : i.wf = true) :
    decode (encode i ++ rest) = .ok (i, rest) := by
  cases i
  case movAdrXmn n a | movAdrXhn n a | movXmnAdr n a | movXhnAdr n a =>
    apply decode_encodeWith_part
    rfl
  case btc a b | xbc a b | bts a b | xbs a b =>
    apply decode_encodeWith_bit
    rfl
  case movAdrXM a | movAdrXH a | movAdrSp a | movXMAdr a | movXHAdr a | movSpAdr a | addSpAdr a | subSpAdr a | jmr a |
    jma a =>
    apply decode_encodeWith_fixed
    rfl
  case jfr a ps | jfa a ps =>
    apply decode_encodeWith_params (hps := hw)
    intro e
    cases e <;> rfl
  case jsv ps =>
    have h : ∀ e, findRow ((0b100010001#9 ++ BitVec.ofBool e : BitVec 10) ++ 0#6) =
        some ⟨0xFF80, 0x8880, .sysCall fun ps => .jsv ps⟩ := by
      intro e
      cases e <;> rfl
    simp only [encode, List.cons_append, decode, h, RowBuild.finish, eField_append, decodeParamList_encodeParams hw]
  case jms off =>
    have h : findRow (0b100001#6 ++ off) = some ⟨0xFC00, 0x8400, .word fun w => .jms (offsetField w)⟩ :=
      findRow_congr (w := 0x8400) rfl (append_and_mask 0b100001#6 off)
    simp only [encode, List.cons_append, List.nil_append, decode, h, RowBuild.finish]
    exact congrArg (fun x => Except.ok (Instr.jms x, rest)) BitVec.extractLsb'_append_eq_right
  case supervisorArea bits =>
    have h : findRow (0b1001#4 ++ bits) = some ⟨0xF000, 0x9000, .word fun w => .supervisorArea (w.extractLsb' 0 12)⟩ :=
      findRow_congr (w := 0x9000) rfl (append_and_mask 0b1001#4 bits)
    simp only [encode, List.cons_append, List.nil_append, decode, h, RowBuild.finish]
    exact congrArg (fun x => Except.ok (Instr.supervisorArea x, rest)) BitVec.extractLsb'_append_eq_right
  case rfn | nop => rfl
  all_goals
    apply decode_encodeWith_rx
    rfl

end Sys2Proof

namespace Sys2Proof.Machine

/-! ### The words a step fetches (R50, R80) -/

theorem codeWords_add (s : State) (n m : Nat) (a : Word) :
    s.codeWords (n + m) a = s.codeWords n a ++ s.codeWords m (a + BitVec.ofNat 16 n) := by
  induction n generalizing a with
  | zero => simp [State.codeWords]
  | succ n ih =>
    have ha : a + 1 + BitVec.ofNat 16 n = a + BitVec.ofNat 16 (n + 1) := by
      rw [BitVec.ofNat_add, BitVec.add_assoc, BitVec.add_comm (BitVec.ofNat 16 n)]
      rfl
    rw [Nat.succ_add_eq_add_succ, Nat.add_succ, State.codeWords, ih, ha]
    rfl

/-- Every instruction takes no more words than a step fetches (R63, R185). -/
theorem encode_length_le (i : Instr) (hw : i.wf = true) : (encode i).length ≤ maxInstrWords := by
  have h : Laws.EncodedSize.Statement i := by
    cases i
    case jms off | rfn | supervisorArea bits | nop => exact Laws.EncodedSize.ofWord _ _ rfl
    case jfr a ps | jfa a ps => exact Laws.EncodedSize.ofCall _ _ a ps rfl rfl
    case jsv ps => exact Laws.EncodedSize.jsv ps
    all_goals exact Laws.EncodedSize.ofOperand _ _ _ rfl
  exact (h hw).2

/-- The words from `pc` on that are an instruction's are the first a step fetches. -/
theorem fetch_of_codeWords {s : State} {n : Nat} (hn : n ≤ maxInstrWords) :
    ∃ rest, s.fetch = s.codeWords n s.pc ++ rest := by
  obtain ⟨m, hm⟩ := Nat.exists_eq_add_of_le hn
  exact ⟨_, by rw [State.fetch, hm, codeWords_add]⟩

/-- In user mode a step runs the instruction that the fetched words decode to (R80). -/
theorem step_of_decode {s : State} {i : Instr} {rest : List Word} (hmode : s.mode = .user)
    (h : decode s.fetch = .ok (i, rest)) : step s = exec i s := by
  simp only [step, hmode, h]

/-- Settles O9: the step fetches the instruction's words and more, and decode undoes encode whatever follows. -/
theorem stepRunsEncodedWords : Obligations.StepRunsEncodedWords := by
  intro s i hmode hw hcode
  obtain ⟨rest, hfetch⟩ := fetch_of_codeWords (s := s) (encode_length_le i hw)
  exact step_of_decode hmode ((hcode ▸ hfetch) ▸ decode_encode i rest hw)

end Sys2Proof.Machine
end

section
/-! PROOFS. What any words read as: a first word always selects a row and a step always fetches enough words, and the
first word alone says whether the instruction is a supervisor call or of the Supervisor area. -/

namespace Sys2Proof

/-! ### No illegal encoding (R65, R67) -/

/-- The rows of each class cover its first words, whose low six bits no row looks at. -/
theorem classes_cover :
    (∀ x : BitVec 8, opcodeRows00.any (fun row => row.selects ((0b00#2 ++ x : BitVec 10) ++ 0#6)) = true) ∧
      (∀ x : BitVec 8, opcodeRows01.any (fun row => row.selects ((0b01#2 ++ x : BitVec 10) ++ 0#6)) = true) ∧
      (∀ x : BitVec 8, opcodeRows10.any (fun row => row.selects ((0b10#2 ++ x : BitVec 10) ++ 0#6)) = true) ∧
      ∀ x : BitVec 8, opcodeRows11.any (fun row => row.selects ((0b11#2 ++ x : BitVec 10) ++ 0#6)) = true := by
  refine ⟨?_, ?_, ?_, ?_⟩ <;> decide

/-- Rows among which one selects a word give the word a row. -/
theorem exists_findRow_of_any {l : List OpcodeRow} {w : Word} (hl : l ⊆ opcodeTable)
    (h : l.any (fun row => row.selects w) = true) : ∃ row, findRow w = some row := by
  obtain ⟨row, hm, hs⟩ := List.any_eq_true.mp h
  exact ⟨row, findRow_of_selects (hl hm) hs⟩

/-- Every first word selects a row (R65). -/
theorem exists_findRow (w : Word) : ∃ row, findRow w = some row := by
  have hclass : ∀ c : BitVec 2, c = 0b00#2 ∨ c = 0b01#2 ∨ c = 0b10#2 ∨ c = 0b11#2 := by decide
  have key : ∀ (c : BitVec 2) (x : BitVec 8), ∃ row, findRow ((c ++ x : BitVec 10) ++ 0#6) = some row := by
    obtain ⟨h00, h01, h10, h11⟩ := classes_cover
    intro c x
    rcases hclass c with rfl | rfl | rfl | rfl
    · exact exists_findRow_of_any (fun row h => by simp [opcodeTable, h]) (h00 x)
    · exact exists_findRow_of_any (fun row h => by simp [opcodeTable, h]) (h01 x)
    · exact exists_findRow_of_any (fun row h => by simp [opcodeTable, h]) (h10 x)
    · exact exists_findRow_of_any (fun row h => by simp [opcodeTable, h]) (h11 x)
  have hw : w = (w.extractLsb' 14 2 ++ w.extractLsb' 6 8 : BitVec 10) ++ w.extractLsb' 0 6 := by
    have hhi : (w.extractLsb' 14 2 ++ w.extractLsb' 6 8 : BitVec 10) = w.extractLsb' 6 10 :=
      BitVec.extractLsb'_append_extractLsb'_eq_extractLsb' (len₁ := 8) rfl
    rw [hhi]
    exact ((BitVec.extractLsb'_append_extractLsb'_eq_extractLsb' (len₁ := 6) rfl).trans BitVec.extractLsb'_eq_self).symm
  rw [hw, findRow_append]
  exact key _ _

/-- An addressing mode reads from any field and one word more, which it may leave (R61, R62). -/
theorem decodeAdr_total (f : BitVec 6) {ws : List Word} (h : 1 ≤ ws.length) :
    ∃ a rest, decodeAdr f ws = .ok (a, rest) ∧ ws.length ≤ rest.length + 1 := by
  unfold decodeAdr
  split
  · exact ⟨_, _, rfl, by omega⟩
  · exact ⟨_, _, rfl, by omega⟩
  · cases ws with
    | nil => simp at h
    | cons w ws => exact ⟨_, _, rfl, le_rfl⟩
  · split <;> exact ⟨_, _, rfl, by omega⟩

/-- A list of at most `n` parameters reads from any `2 * n` words (R185). -/
theorem decodeParams_total {n : Nat} {ws : List Word} (h : 2 * n ≤ ws.length) :
    ∃ ps rest, decodeParams n ws = .ok (ps, rest) := by
  induction n generalizing ws with
  | zero => exact ⟨_, _, rfl⟩
  | succ n ih =>
    cases ws with
    | nil => simp at h
    | cons w ws =>
      rw [List.length_cons] at h
      obtain ⟨a, rest, ha, hlen⟩ := decodeAdr_total (adrField w) (ws := ws) (by omega)
      obtain ⟨ps, rest', hps⟩ := ih (ws := rest) (by omega)
      simp only [decodeParams, ha, hps]
      cases eField w <;> exact ⟨_, _, rfl⟩

theorem decodeParamList_total (e : Bool) {ws : List Word} (h : 2 * maxParams ≤ ws.length) :
    ∃ ps rest, decodeParamList e ws = .ok (ps, rest) := by
  cases e with
  | true => exact ⟨_, _, rfl⟩
  | false => exact decodeParams_total h

/-- Enough words read as an instruction, whatever they are (R63, R67, R185). -/
theorem decode_total {ws : List Word} (h : maxInstrWords ≤ ws.length) : ∃ i rest, decode ws = .ok (i, rest) := by
  cases ws with
  | nil => simp [maxInstrWords] at h
  | cons w ws =>
    have hlen : 33 ≤ ws.length := Nat.le_of_succ_le_succ h
    obtain ⟨row, hrow⟩ := exists_findRow w
    simp only [decode, hrow]
    unfold RowBuild.finish
    obtain ⟨a, rest, ha, hrest⟩ := decodeAdr_total (adrField w) (ws := ws) (by omega)
    split
    · exact ⟨_, _, rfl⟩
    · rw [ha]
      exact ⟨_, _, rfl⟩
    · obtain ⟨ps, rest', hps⟩ := decodeParamList_total (eField w) (ws := rest) (by rw [maxParams]; omega)
      simp only [ha, hps]
      exact ⟨_, _, rfl⟩
    · obtain ⟨ps, rest', hps⟩ := decodeParamList_total (eField w) (ws := ws) (by rw [maxParams]; omega)
      rw [hps]
      exact ⟨_, _, rfl⟩

/-! ### Supervisor calls and the Supervisor area by their first words (R189, R190) -/

/-- What a row makes of some first word, operand and parameters. -/
def RowBuild.Makes (b : RowBuild) (i : Instr) : Prop :=
  match b with
  | .word build => ∃ w, i = build w
  | .adr build => ∃ w a, i = build w a
  | .call build => ∃ a ps, i = build a ps
  | .sysCall build => ∃ ps, i = build ps

theorem makes_of_finish {b : RowBuild} {w : Word} {ws rest : List Word} {i : Instr}
    (h : b.finish w ws = .ok (i, rest)) : b.Makes i := by
  unfold RowBuild.finish at h
  unfold RowBuild.Makes
  split at h
  · cases h
    exact ⟨_, rfl⟩
  · split at h
    · cases h
    · cases h
      exact ⟨_, _, rfl⟩
  · split at h
    · cases h
    · split at h
      · cases h
      · cases h
        exact ⟨_, _, rfl⟩
  · split at h
    · cases h
    · cases h
      exact ⟨_, rfl⟩

/-- What is decoded is made by the row that the first word selects. -/
theorem row_of_decode {w : Word} {ws rest : List Word} {i : Instr} (h : decode (w :: ws) = .ok (i, rest)) :
    ∃ row, findRow w = some row ∧ row.build.Makes i := by
  obtain ⟨row, hrow⟩ := exists_findRow w
  simp only [decode, hrow] at h
  exact ⟨row, hrow, makes_of_finish h⟩

/-- One row makes the instructions of the Supervisor area, and one the supervisor calls. -/
theorem rows_of_stops : ∀ row ∈ opcodeTable,
    (∀ bits, row.build.Makes (.supervisorArea bits) → row.mask = 0xF000 ∧ row.pattern = 0x9000) ∧
      ∀ ps, row.build.Makes (.jsv ps) → row.mask = 0xFF80 ∧ row.pattern = 0x8880 := by
  simp only [opcodeTable, opcodeRows00, opcodeRows01, opcodeRows10, opcodeRows11, List.forall_mem_append,
    List.forall_mem_cons]
  simp [RowBuild.Makes]

/-- The words 0x9000 to 0x9FFF are those of the Supervisor area (R190). -/
theorem decode_supervisorArea_iff {w : Word} {ws rest : List Word} {i : Instr} (h : decode (w :: ws) = .ok (i, rest)) :
    (∃ bits, i = .supervisorArea bits) ↔ w &&& 0xF000 = 0x9000 := by
  constructor
  · rintro ⟨bits, rfl⟩
    obtain ⟨row, hrow, hmakes⟩ := row_of_decode h
    obtain ⟨hm, hs⟩ := mem_and_selects_of_findRow hrow
    obtain ⟨hmask, hpat⟩ := (rows_of_stops row hm).1 bits hmakes
    rw [selects_iff, hmask, hpat] at hs
    exact hs
  · intro hw
    have hrow : findRow w = some ⟨0xF000, 0x9000, .word fun w => .supervisorArea (w.extractLsb' 0 12)⟩ :=
      findRow_congr (w := 0x9000) rfl hw
    simp only [decode, hrow, RowBuild.finish] at h
    cases h
    exact ⟨_, rfl⟩

/-- The first word of a supervisor call (R189). -/
theorem firstWord_of_decode_jsv {w : Word} {ws rest : List Word} {ps : List Adr}
    (h : decode (w :: ws) = .ok (.jsv ps, rest)) : w &&& 0xFF80 = 0x8880 := by
  obtain ⟨row, hrow, hmakes⟩ := row_of_decode h
  obtain ⟨hm, hs⟩ := mem_and_selects_of_findRow hrow
  obtain ⟨hmask, hpat⟩ := (rows_of_stops row hm).2 ps hmakes
  rw [selects_iff, hmask, hpat] at hs
  exact hs

end Sys2Proof
end

section
/-! PROOFS. Where instructions stop: an address outside the map, the Supervisor area and the kernel are the only
reasons, and where every address exists the first is none. -/

namespace Sys2Proof.Machine

/-! ### Calls, parameter by parameter (R185, R186, R189) -/

@[simp] theorem thenNext_of_fault {α β : Type} (f : Fault) (k : α → Result β) : thenNext (.fault f) k = .fault f := rfl

theorem thenNext_pure {α : Type} (x : Result α) : thenNext x .next = x := by cases x <;> rfl

theorem thenNext_assoc {α β γ : Type} (x : Result α) (k : α → Result β) (l : β → Result γ) :
    thenNext (thenNext x k) l = thenNext x fun a => thenNext (k a) l := by cases x <;> rfl

/-- Sequencing faults where one of its parts does. -/
theorem thenNext_fault {α β : Type} {x : Result α} {k : α → Result β} {f : Fault} (h : thenNext x k = .fault f) :
    x = .fault f ∨ ∃ a, x = .next a ∧ k a = .fault f := by
  cases x with
  | next a => exact .inr ⟨a, rfl, h⟩
  | fault g =>
    cases h
    exact .inl rfl
  | refused r => cases h

/-- Both calls have one meaning, up to where they jump. -/
theorem exec_callInstr (b : Bool) (a : Adr) (s : State) :
    ∃ g, ∀ ps, exec (callInstr b a ps) s = callTo g a ps s := by
  cases b
  · exact ⟨fun v => s.pc + v, fun _ => rfl⟩
  · exact ⟨fun v => v, fun _ => rfl⟩

theorem operandOf_callInstr (b : Bool) (a : Adr) (ps : List Adr) : operandOf (callInstr b a ps) = some a := by
  cases b <;> rfl

/-- Where its operand is usable a call goes on with its frame. -/
theorem callTo_usable (g : Word → Word) {a : Adr} (ps : List Adr) {s : State} (hu : Usable a s) :
    callTo g a ps s = enterFrame (afterReads a s) (nextPc s a 0) fun u =>
      thenNext (pushParams ps s.bp u) fun t => .next (t.setPc (g (operandValue a s))) := onOperand_usable a s.bp s _ hu

@[simp] theorem afterReads_tos (a : Adr) (s : State) : (afterReads a s).tos = s.tos := by simp [State.tos]

@[simp] theorem afterReads_isMapped (a : Adr) (s : State) (sp : Space) (x : Word) :
    (afterReads a s).isMapped sp x = s.isMapped sp x := isMapped_congr _ _ (afterReads_params a s) sp x

/-- Where its frame can be written as well it goes on with its parameters. -/
theorem callTo_mapped (g : Word → Word) {a : Adr} (ps : List Adr) {s : State} (hu : Usable a s)
    (h1 : s.isMapped .stack s.tos = true) (h2 : s.isMapped .stack (s.tos + 1) = true) :
    callTo g a ps s = thenNext (pushParams ps s.bp (framed (afterReads a s) (nextPc s a 0))) fun t =>
      .next (t.setPc (g (operandValue a s))) := by
  rw [callTo_usable g ps hu, enterFrame_mapped _ _ _ (by simpa using h1) (by simpa using h2)]

/-- The state a parameter leaves before it is pushed has the same first free word. -/
theorem evaluated_tos (p : Adr) (bp : Word) (s : State) :
    ((resolve p bp s).postInc ((resolve p bp s).afterRead s)).tos = s.tos := by simp [State.tos]

theorem evaluated_isMapped (p : Adr) (bp : Word) (s : State) (sp : Space) (x : Word) :
    ((resolve p bp s).postInc ((resolve p bp s).afterRead s)).isMapped sp x = s.isMapped sp x :=
  isMapped_congr _ _ (by simp) sp x

/-- A parameter that can be read and pushed, and those after it. -/
theorem pushParams_cons_mapped {p : Adr} (ps : List Adr) {bp : Word} {s : State} (hu : (resolve p bp s).usable s = true)
    (hm : s.isMapped .stack s.tos = true) :
    pushParams (p :: ps) bp s =
      pushParams ps bp (pushed ((resolve p bp s).postInc ((resolve p bp s).afterRead s)) ((resolve p bp s).read s)) := by
  rw [pushParams, onOperand_usable _ _ _ _ hu, pushWord_mapped]
  rwa [evaluated_tos, evaluated_isMapped]

/-- More parameters are pushed after the first ones (R185). -/
theorem pushParams_append {pre : List Adr} (post : List Adr) {bp : Word} {s u : State}
    (h : pushParams pre bp s = .next u) : pushParams (pre ++ post) bp s = pushParams post bp u := by
  induction pre generalizing s with
  | nil =>
    cases h
    rfl
  | cons p pre ih =>
    obtain ⟨hu, hm, h⟩ := pushParams_cons h
    rw [List.cons_append, pushParams_cons_mapped _ hu hm, ih h]

/-- More parameters of a supervisor call are evaluated after the first ones (R189). -/
theorem collectArgs_append {pre : List Adr} (post : List Adr) {bp : Word} {s : State} {x : State × List Word}
    (h : collectArgs pre bp s = .next x) :
    collectArgs (pre ++ post) bp s = thenNext (collectArgs post bp x.1) fun y => .next (y.1, x.2 ++ y.2) := by
  induction pre generalizing s x with
  | nil =>
    cases h
    exact (thenNext_pure _).symm
  | cons p pre ih =>
    obtain ⟨hu, y, hy, rfl⟩ := collectArgs_cons h
    rw [List.cons_append, collectArgs, onOperand_usable _ _ _ _ hu, ih hy, thenNext_assoc]
    rfl

/-- A call with more parameters goes on from the state the shorter call leaves, the jump apart (R185). -/
theorem callInstr_append {b : Bool} {a : Adr} {pre : List Adr} {s u : State}
    (h : exec (callInstr b a pre) s = .next u) (post : List Adr) :
    ∃ v w x, u = v.setPc w ∧
      exec (callInstr b a (pre ++ post)) s = thenNext (pushParams post s.bp v) fun t => .next (t.setPc x) := by
  obtain ⟨g, hg⟩ := exec_callInstr b a s
  obtain ⟨hu, h1, h2, v, hv, ht⟩ := callInstr_next h
  exact ⟨v, _, _, ht, by rw [hg, callTo_mapped g _ hu h1 h2, pushParams_append post hv]⟩

/-! ### Faults of an instruction (R41, R202, R203) -/

/-- The fault of an access outside the map. -/
def UnmappedFault (s : State) (f : Fault) : Prop := ∃ sp a, f = .unmapped sp a ∧ s.kindAt sp a = none

/-- An access outside the map is all that stops the operation. -/
def StopsOnlyUnmapped {α : Type} (s : State) (x : Result α) : Prop := ∀ f, x = .fault f → UnmappedFault s f

section Stops
variable {α β : Type} {s u : State}

theorem stops_next (x : α) : StopsOnlyUnmapped s (.next x) := nofun

theorem stops_congr {x : Result α} (hp : u.params = s.params) (h : StopsOnlyUnmapped u x) : StopsOnlyUnmapped s x := by
  intro f hf
  obtain ⟨sp, a, rfl, hk⟩ := h f hf
  exact ⟨sp, a, rfl, (kindAt_congr s u hp sp a).symm.trans hk⟩

theorem stops_guardAccess {sp : Space} {a : Word} {k : Result α} (h : StopsOnlyUnmapped s k) :
    StopsOnlyUnmapped s (guardAccess s sp a k) := by
  intro f hf
  unfold guardAccess at hf
  split at hf
  · exact h f hf
  · rename_i hk
    cases hf
    exact ⟨sp, a, rfl, hk⟩

theorem stops_onOperand {a : Adr} {bp : Word} {k : Operand → Result α} (h : ∀ o, StopsOnlyUnmapped s (k o)) :
    StopsOnlyUnmapped s (onOperand a bp s k) := by
  unfold onOperand
  split
  · exact h _
  · exact h _
  · exact stops_guardAccess (h _)

theorem stops_thenNext {x : Result α} {k : α → Result β} (hx : StopsOnlyUnmapped s x)
    (hk : ∀ a, x = .next a → StopsOnlyUnmapped s (k a)) : StopsOnlyUnmapped s (thenNext x k) := by
  intro f hf
  rcases thenNext_fault hf with hf | ⟨a, ha, hf⟩
  · exact hx f hf
  · exact hk a ha f hf

theorem stops_pushParams (ps : List Adr) (bp : Word) (s : State) : StopsOnlyUnmapped s (pushParams ps bp s) := by
  induction ps generalizing s with
  | nil => exact stops_next s
  | cons p ps ih =>
    refine stops_onOperand fun o => ?_
    exact stops_congr (by simp) (stops_guardAccess (stops_congr (by simp) (ih _)))

theorem stops_collectArgs (ps : List Adr) (bp : Word) (s : State) : StopsOnlyUnmapped s (collectArgs ps bp s) := by
  induction ps generalizing s with
  | nil => exact stops_next _
  | cons p ps ih =>
    exact stops_onOperand fun o => stops_thenNext (stops_congr (by simp) (ih _)) fun _ _ => stops_next _

theorem stops_supervisorCall (ps : List Adr) (s : State) : StopsOnlyUnmapped s (supervisorCall ps s) :=
  stops_thenNext (stops_collectArgs ps s.bp s) fun _ _ => stops_next _

theorem stops_callTo (g : Word → Word) (a : Adr) (ps : List Adr) (s : State) :
    StopsOnlyUnmapped s (callTo g a ps s) := by
  refine stops_onOperand fun o => stops_congr (by simp) (stops_guardAccess (stops_guardAccess ?_))
  exact stops_thenNext (stops_congr (by simp) (stops_pushParams _ _ _)) fun _ _ => stops_next _

theorem stops_leaveFrame (s : State) : StopsOnlyUnmapped s (leaveFrame s) :=
  stops_guardAccess (stops_guardAccess (stops_next _))

end Stops

/-- All the faults of an instruction (R41, R201, R203). -/
theorem exec_fault {i : Instr} {s : State} {f : Fault} (h : exec i s = .fault f) :
    ((∃ bits, i = .supervisorArea bits) ∧ f = .terminated .supervisorTrap) ∨
      ((∃ ps, i = .jsv ps) ∧ f = .terminated .kernelExit) ∨ UnmappedFault s f := by
  rcases ho : operandOf i with _ | a
  · cases i
    case jms off | nop => cases h
    case rfn => exact .inr (.inr (stops_leaveFrame s f h))
    case jsv ps =>
      rcases thenNext_fault h with h | ⟨u, -, h⟩
      · exact .inr (.inr (stops_supervisorCall ps s f h))
      · rcases kernelOutcome_cases u with ⟨-, e⟩ | ⟨r, -, e⟩
        · exact .inr (.inl ⟨⟨ps, rfl⟩, (Host.Outcome.fault.inj (e.symm.trans h)).symm⟩)
        · cases e.symm.trans h
    case supervisorArea bits =>
      change execSupervisorArea bits s = .fault f at h
      unfold execSupervisorArea at h
      split at h
      · exact .inl ⟨⟨bits, rfl⟩, (Host.Outcome.fault.inj h).symm⟩
      · cases h
    all_goals exact absurd ho nofun
  · by_cases hc : ∃ b c ps, i = callInstr b c ps
    · obtain ⟨b, c, ps, rfl⟩ := hc
      obtain ⟨g, hg⟩ := exec_callInstr b c s
      exact .inr (.inr (stops_callTo g c ps s f ((hg ps).symm.trans h)))
    · obtain ⟨g, hg⟩ := exec_onOperand i a s ho fun b c ps e => hc ⟨b, c, ps, e⟩
      exact .inr (.inr (stops_onOperand (fun o => stops_next (g o)) f (hg.symm.trans h)))

/-! ### Steps in user mode (R80) -/

theorem codeWords_length (s : State) (n : Nat) (a : Word) : (s.codeWords n a).length = n := by
  induction n generalizing a with
  | zero => rfl
  | succ n ih => rw [State.codeWords, List.length_cons, ih]

/-- A step in user mode is an instruction read from the word at `pc` and those after it: some words always are one
(R67). -/
theorem step_user {s : State} (hmode : s.mode = .user) :
    ∃ i ws rest, decode (s.codeWord s.pc :: ws) = .ok (i, rest) ∧ step s = exec i s := by
  obtain ⟨i, rest, h⟩ := decode_total (codeWords_length s maxInstrWords s.pc).ge
  exact ⟨i, _, rest, h, step_of_decode hmode h⟩

/-- In the Supervisor area user mode traps (R201). -/
theorem exec_supervisorArea_user (bits : BitVec 12) {s : State} (hmode : s.mode = .user) :
    exec (.supervisorArea bits) s = .fault (.terminated .supervisorTrap) := by
  change execSupervisorArea bits s = _
  rw [execSupervisorArea, hmode]
  rfl

/-- Settles O20: the faults of an instruction, and the word at `pc` that it is read from. -/
theorem supervisorTrapExactlyInSupervisorArea : Obligations.SupervisorTrapExactlyInSupervisorArea := by
  refine ⟨fun s => ⟨fun h => ?_, fun ⟨hmode, hw⟩ => ?_⟩, fun s f hmode h => ?_⟩
  · cases hmode : s.mode with
    | supervisor =>
      simp only [step, hmode] at h
      rcases kernelOutcome_cases s with ⟨-, e⟩ | ⟨r, -, e⟩ <;> cases e.symm.trans h
    | user =>
      obtain ⟨i, ws, rest, hd, hstep⟩ := step_user hmode
      rcases exec_fault (hstep.symm.trans h) with ⟨hi, -⟩ | ⟨-, hf⟩ | ⟨sp, a, hf, -⟩
      · exact ⟨rfl, (decode_supervisorArea_iff hd).mp hi⟩
      · cases hf
      · cases hf
  · obtain ⟨i, ws, rest, hd, hstep⟩ := step_user hmode
    obtain ⟨bits, rfl⟩ := (decode_supervisorArea_iff hd).mpr hw
    exact hstep.trans (exec_supervisorArea_user bits hmode)
  · obtain ⟨i, ws, rest, hd, hstep⟩ := step_user hmode
    rcases exec_fault (hstep.symm.trans h) with ⟨-, hf⟩ | ⟨⟨ps, rfl⟩, hf⟩ | hf
    · exact .inl hf
    · exact .inr (.inl ⟨hf, firstWord_of_decode_jsv hd⟩)
    · exact .inr (.inr hf)

/-! ### Completion where every address exists (R39, R41, R202) -/

/-- A supervisor call ends as the kernel answers the state it is handed (R189). -/
theorem exec_jsv_of_supervisorCall {ps : List Adr} {s u : State} (h : supervisorCall ps s = .next u) :
    exec (.jsv ps) s = kernelOutcome u := by
  change thenNext (supervisorCall ps s) kernelOutcome = _
  rw [h, thenNext_of_next]

/-- Every instruction but JSV and those of the Supervisor area completes. -/
theorem exec_completes {i : Instr} {s : State} (hs : AllMapped s) (harea : ∀ bits, i ≠ .supervisorArea bits)
    (hjsv : ∀ ps, i ≠ .jsv ps) : ∃ t, exec i s = .next t := by
  rcases ho : operandOf i with _ | a
  · cases i
    case jms off | nop => exact ⟨_, rfl⟩
    case rfn => exact ⟨_, leaveFrame_mapped s (hs _ _) (hs _ _)⟩
    case jsv ps => exact absurd rfl (hjsv ps)
    case supervisorArea bits => exact absurd rfl (harea bits)
    all_goals exact absurd ho nofun
  · by_cases hc : ∃ b c ps, i = callInstr b c ps
    · obtain ⟨b, c, ps, rfl⟩ := hc
      obtain ⟨g, hg⟩ := exec_callInstr b c s
      obtain ⟨t, ht⟩ := pushParams_mapped ps s.bp (framed (afterReads c s) (nextPc s c 0))
        (allMapped_congr (by simp) hs)
      rw [hg, callTo_mapped g ps (usable_of_allMapped _ s hs) (hs _ _) (hs _ _), ht]
      exact ⟨_, rfl⟩
    · obtain ⟨g, hg⟩ := exec_onOperand i a s ho fun b c ps e => hc ⟨b, c, ps, e⟩
      exact ⟨_, hg.trans (onOperand_usable a s.bp s _ (usable_of_allMapped _ s hs))⟩

/-- A supervisor call hands a state to the kernel, which decides how it ends. -/
theorem exec_jsv_mapped (ps : List Adr) {s : State} (hs : AllMapped s) : ∃ u, supervisorCall ps s = .next u ∧
    ((u.kernelReply = .terminate ∧ exec (.jsv ps) s = .fault (.terminated .kernelExit)) ∨
      ∃ r, u.kernelReply = .resume r ∧ exec (.jsv ps) s = .next (u.resumeUser r)) := by
  obtain ⟨u, hu⟩ := supervisorCall_mapped ps s hs
  refine ⟨u, hu, ?_⟩
  rw [exec_jsv_of_supervisorCall hu]
  exact kernelOutcome_cases u

/-- A kernel that simply resumes the application never ends it. -/
theorem kernel_of_terminate {s u : State} (hp : u.params = s.params) (h : u.kernelReply = .terminate) :
    s.params.kernel = .platform := by
  rw [State.kernelReply, hp] at h
  split at h
  · assumption
  · cases h

/-- Settles O22: where every address exists no access stops, and JSV ends as the kernel answers. -/
theorem instructionsCompleteOnPlainMemory : Obligations.InstructionsCompleteOnPlainMemory := by
  refine ⟨fun i s hs harea hkernel => ?_, fun ps s hs => exec_jsv_mapped ps hs⟩
  by_cases hjsv : ∃ ps, i = .jsv ps
  · have hk := hkernel hjsv
    obtain ⟨ps, rfl⟩ := hjsv
    obtain ⟨u, hu, ⟨hr, -⟩ | ⟨r, -, ht⟩⟩ := exec_jsv_mapped ps hs
    · obtain ⟨-, -, -, -, -, -, -, -, -, hp⟩ := supervisorCall_frame hu
      cases (kernel_of_terminate hp hr).symm.trans hk
    · exact ⟨_, ht⟩
  · exact exec_completes hs harea fun ps e => hjsv ⟨ps, e⟩

/-- Settles O23: the instruction at `pc` is outside the Supervisor area, so it completes, or it is a supervisor call and
the platform's kernel ends the application. -/
theorem stepsGoOnOnPlainMemory : Obligations.StepsGoOnOnPlainMemory := by
  intro s hs hmode hw
  obtain ⟨i, ws, rest, hd, hstep⟩ := step_user hmode
  by_cases hjsv : ∃ ps, i = .jsv ps
  · obtain ⟨ps, rfl⟩ := hjsv
    obtain ⟨u, hu, ⟨hr, ht⟩ | ⟨r, -, ht⟩⟩ := exec_jsv_mapped ps hs
    · obtain ⟨-, -, -, -, -, -, -, -, -, hp⟩ := supervisorCall_frame hu
      exact .inr ⟨firstWord_of_decode_jsv hd, kernel_of_terminate hp hr, hstep.trans ht⟩
    · exact .inl ⟨_, hstep.trans ht⟩
  · have harea : ∀ bits, i ≠ .supervisorArea bits := fun bits e => hw ((decode_supervisorArea_iff hd).mp ⟨bits, e⟩)
    obtain ⟨t, ht⟩ := exec_completes hs harea fun ps e => hjsv ⟨ps, e⟩
    exact .inl ⟨t, hstep.trans ht⟩

/-! ### Accesses outside the map (R41) -/

/-- An instruction whose operand does not exist stops there, a call too (R81, R186). -/
theorem exec_operand_unmapped {i : Instr} {s : State} {a : Adr} {sp : Space} {x : Word} {f : Option BitField}
    (ha : operandOf i = some a) (hl : (operand a s).loc = .mem sp x f) (hm : s.isMapped sp x = false) :
    exec i s = .fault (.unmapped sp x) := by
  by_cases hc : ∃ b c ps, i = callInstr b c ps
  · obtain ⟨b, c, ps, rfl⟩ := hc
    obtain rfl : c = a := Option.some.inj ((operandOf_callInstr b c ps).symm.trans ha)
    obtain ⟨k, hk⟩ := callInstr_onOperand b c ps s
    exact hk.trans (onOperand_unmapped c s.bp s k sp x f hl hm)
  · obtain ⟨g, hg⟩ := exec_onOperand i a s ha fun b c ps e => hc ⟨b, c, ps, e⟩
    exact hg.trans (onOperand_unmapped a s.bp s _ sp x f hl hm)

theorem enterFrame_unmapped_first {α : Type} {s : State} (ret : Word) (k : State → Result α)
    (h : s.isMapped .stack s.tos = false) : enterFrame s ret k = .fault (.unmapped .stack s.tos) :=
  guardAccess_unmapped _ _ _ _ h

theorem enterFrame_unmapped_second {α : Type} {s : State} (ret : Word) (k : State → Result α)
    (h1 : s.isMapped .stack s.tos = true) (h2 : s.isMapped .stack (s.tos + 1) = false) :
    enterFrame s ret k = .fault (.unmapped .stack (s.tos + 1)) := by
  rw [enterFrame, guardAccess_mapped _ _ _ _ h1, guardAccess_unmapped _ _ _ _ h2]

/-- A parameter that does not exist stops the call (R185). -/
theorem pushParams_unmapped {p : Adr} {ps : List Adr} {bp : Word} {s : State} {sp : Space} {x : Word}
    {f : Option BitField} (hl : (resolve p bp s).loc = .mem sp x f) (hm : s.isMapped sp x = false) :
    pushParams (p :: ps) bp s = .fault (.unmapped sp x) := onOperand_unmapped p bp s _ sp x f hl hm

/-- A parameter with no word to be pushed to stops the call (R185). -/
theorem pushParams_unmapped_tos {p : Adr} {ps : List Adr} {bp : Word} {s : State}
    (hu : (resolve p bp s).usable s = true) (hm : s.isMapped .stack s.tos = false) :
    pushParams (p :: ps) bp s = .fault (.unmapped .stack s.tos) := by
  rw [pushParams, onOperand_usable _ _ _ _ hu, pushWord, evaluated_tos, guardAccess_unmapped]
  rwa [evaluated_isMapped]

/-- Where an operand is does not depend on the program counter. -/
theorem resolve_setPc (p : Adr) (bp : Word) (s : State) (v : Word) : resolve p bp (s.setPc v) = resolve p bp s := by
  cases p <;> rfl

/-- Nor on the entry of a supervisor call. -/
theorem resolve_enterSupervisor (p : Adr) (bp : Word) (s : State) (args : List Word) :
    resolve p bp (s.enterSupervisor args) = resolve p bp s := by
  cases p <;> rfl

/-- A supervisor call one of whose parameters does not exist stops there, those before it evaluated (R189). -/
theorem exec_jsv_unmapped {p : Adr} {pre post : List Adr} {s : State} {y : State × List Word} {sp : Space} {x : Word}
    {f : Option BitField} (hy : collectArgs pre s.bp s = .next y) (hl : (resolve p s.bp y.1).loc = .mem sp x f)
    (hm : y.1.isMapped sp x = false) : exec (.jsv (pre ++ p :: post)) s = .fault (.unmapped sp x) := by
  change thenNext (supervisorCall (pre ++ p :: post) s) kernelOutcome = _
  rw [supervisorCall, collectArgs_append _ hy, collectArgs, onOperand_unmapped p s.bp y.1 _ sp x f hl hm]
  rfl

/-- Settles O24: each access in the order of the instruction's phases, after those before it have succeeded. -/
theorem operandOutsideTheMapStops : Obligations.OperandOutsideTheMapStops := by
  refine ⟨fun i s a sp x f => exec_operand_unmapped, fun s b a ps hu => ⟨fun h => ?_, fun h1 h2 => ?_⟩,
    fun s u b a p pre post h => ⟨fun sp x f hl hm => ?_, fun hu hm => ?_⟩,
    fun s u p pre post sp x f h hl hm => ?_, fun s => ⟨fun h => ?_, fun h1 h2 => ?_⟩⟩
  · obtain ⟨g, hg⟩ := exec_callInstr b a s
    rw [hg, callTo_usable g ps hu, enterFrame_unmapped_first _ _ (by simpa using h), afterReads_tos]
  · obtain ⟨g, hg⟩ := exec_callInstr b a s
    rw [hg, callTo_usable g ps hu, enterFrame_unmapped_second _ _ (by simpa using h1) (by simpa using h2),
      afterReads_tos]
  · obtain ⟨v, w, y, rfl, hexec⟩ := callInstr_append h (p :: post)
    rw [resolve_setPc] at hl
    rw [hexec, pushParams_unmapped hl hm, thenNext_of_fault]
  · obtain ⟨v, w, y, rfl, hexec⟩ := callInstr_append h (p :: post)
    rw [resolve_setPc] at hu
    rw [hexec, pushParams_unmapped_tos hu hm, thenNext_of_fault]
    rfl
  · obtain ⟨y, hy, rfl⟩ := supervisorCall_next h
    rw [resolve_enterSupervisor] at hl
    exact exec_jsv_unmapped hy hl hm
  · exact guardAccess_unmapped _ _ _ _ h
  · change leaveFrame s = _
    rw [leaveFrame, guardAccess_mapped _ _ _ _ h1, guardAccess_unmapped _ _ _ _ h2]

end Sys2Proof.Machine
end

section
/-! PROOFS. The frame of memory, and what the devices see of an instruction. -/

namespace Sys2Proof.Machine

/-! ### The first free word, and what the stack operations store (R184, R186) -/

theorem pushed_tos (s : State) (v : Word) : (pushed s v).tos = s.tos + 1 := by
  cases hsp : s.params.spRelative <;> simp [pushed, State.tos, hsp, BitVec.add_assoc]

theorem framed_tos (s : State) (ret : Word) : (framed s ret).tos = s.tos + 2 := by
  cases hsp : s.params.spRelative <;> simp [framed, State.tos, State.setTos, hsp]

theorem pushed_readWord (s : State) (v : Word) (k : Space) (x : Word) :
    (pushed s v).readWord k x = if k = .stack ∧ x = s.tos then v else s.readWord k x :=
  (readWord_congr (s.writeWord .stack s.tos v) _ rfl rfl k x).trans (readWord_writeWord s .stack k s.tos x v)

theorem framed_readWord (s : State) (ret : Word) (k : Space) (x : Word) :
    (framed s ret).readWord k x =
      if k = .stack ∧ x = s.tos + 1 then s.bp else if k = .stack ∧ x = s.tos then ret else s.readWord k x := by
  rw [framed, readWord_setTos, ← readWord_writeWord, ← readWord_writeWord]
  exact readWord_congr _ _ rfl rfl k x

theorem framed_devices (s : State) (ret : Word) : (framed s ret).devices = s.devices := by simp [framed]

/-- The words a call may store: `n` of them from the first free one on (R184). -/
def InFrame (s : State) (n : Nat) (k : Space) (x : Word) : Prop :=
  k = .stack ∧ ∃ j, j < n ∧ x = s.tos + BitVec.ofNat 16 j

/-- The words from a later first free word on are among those from an earlier one. -/
theorem InFrame.shift {s u : State} {m n : Nat} {k : Space} {x : Word} (h : InFrame u n k x)
    (htos : u.tos = s.tos + BitVec.ofNat 16 m) : InFrame s (n + m) k x := by
  obtain ⟨hk, j, hj, rfl⟩ := h
  refine ⟨hk, m + j, by omega, ?_⟩
  rw [htos, BitVec.ofNat_add, BitVec.add_assoc]

/-- Pushing parameters changes one word each, from the first free one on (R185). -/
theorem pushParams_readWord {ps : List Adr} {bp : Word} {s t : State} (h : pushParams ps bp s = .next t) {k : Space}
    {x : Word} (hx : t.readWord k x ≠ s.readWord k x) : InFrame s ps.length k x := by
  induction ps generalizing s with
  | nil =>
    cases h
    exact absurd rfl hx
  | cons p ps ih =>
    obtain ⟨-, -, h⟩ := pushParams_cons h
    by_cases hrest : t.readWord k x = (pushed ((resolve p bp s).postInc ((resolve p bp s).afterRead s))
        ((resolve p bp s).read s)).readWord k x
    · rw [hrest, pushed_readWord, evaluated_tos] at hx
      by_cases hk : k = .stack ∧ x = s.tos
      · exact ⟨hk.1, 0, by simp, by simp [hk.2]⟩
      · exact absurd ((if_neg hk).trans (by simp)) hx
    · exact (ih h hrest).shift (m := 1) (by rw [pushed_tos, evaluated_tos]; rfl)

/-- A call changes the two saved words and one word for each parameter (R184, R194). -/
theorem call_readWord {a : Adr} {ps : List Adr} {ret dest : Word} {s u : State}
    (h : pushParams ps s.bp (framed (afterReads a s) ret) = .next u) {k : Space} {x : Word}
    (hx : (u.setPc dest).readWord k x ≠ s.readWord k x) : InFrame s (ps.length + 2) k x := by
  by_cases hrest : u.readWord k x = (framed (afterReads a s) ret).readWord k x
  · rw [readWord_setPc, hrest, framed_readWord, afterReads_tos, afterReads_readWord] at hx
    by_cases h1 : k = .stack ∧ x = s.tos + 1
    · exact ⟨h1.1, 1, by omega, h1.2⟩
    · by_cases h0 : k = .stack ∧ x = s.tos
      · exact ⟨h0.1, 0, by omega, by simp [h0.2]⟩
      · exact absurd ((if_neg h1).trans (if_neg h0)) hx
  · exact (pushParams_readWord h hrest).shift (m := 2) (by rw [framed_tos, afterReads_tos]; rfl)

/-! ### The frame of memory (R37, R94) -/

/-- A write to an operand changes no word but the operand. -/
theorem loc_of_wordAfter_ne {s : State} {l : Loc} {v : Word} {k : Space} {x : Word}
    (h : wordAfter s l v k x ≠ s.readWord k x) : ∃ f, l = .mem k x f := by
  cases l with
  | imm w => exact absurd rfl h
  | reg r => exact absurd rfl h
  | mem sp a f =>
    by_cases hk : k = sp ∧ x = a ∧ s.isDevice sp a = false
    · obtain ⟨rfl, rfl, -⟩ := hk
      exact ⟨f, rfl⟩
    · exact absurd (if_neg hk) h

/-- An instruction with an address operand that is no call changes no word but the operand it stores to. -/
theorem ExecShape.readWord {i : Instr} {a : Adr} {s t : State} (h : ExecShape i a s t) {k : Space} {x : Word}
    (hx : t.readWord k x ≠ s.readWord k x) : storesTo i = some a ∧ ∃ f, (Machine.operand a s).loc = .mem k x f := by
  cases h with
  | register r v c cv n hn hr hc hs ht => subst ht; simp at hx
  | operand base v c cv n hb hn hs hc ht =>
    obtain ⟨hm, -⟩ := write_frame a v s base (by subst hb; split <;> simp) (by subst hb; split <;> simp)
    subst ht
    rw [readWord_advance, readWord_writeCarry, hm] at hx
    exact ⟨hs, loc_of_wordAfter_ne hx⟩
  | exchange r v w n hb hn hr hs ht =>
    obtain ⟨hm, -⟩ := write_frame a w s ((afterReads a s).setReg r v) (by simp) (by simp)
    subst ht
    rw [readWord_advance, hm] at hx
    exact ⟨hs, loc_of_wordAfter_ne hx⟩
  | special xm xh sp n hn hm hh hp hr hs ht =>
    subst ht
    exact absurd (afterReads_readWord a s k x) hx
  | jump v hr hs ht => subst ht; simp at hx

/-- Settles O18: by how the instruction completed, it changes its operand, its frame or nothing. -/
theorem memoryChangesOnlyWhereStored : Obligations.MemoryChangesOnlyWhereStored := by
  refine ⟨fun i s t h k x hx => ?_, fun ps s u h k x => ?_⟩
  · cases exec_completion h with
    | operand a ha hc hs =>
      obtain ⟨hstore, f, hl⟩ := hs.readWord hx
      exact .inl ⟨a, f, hstore, hl⟩
    | call b a ps u hi hp ht =>
      subst ht
      obtain ⟨hk, hj⟩ := call_readWord hp hx
      exact .inr (.inl ⟨hk, b, a, ps, hi, hj⟩)
    | supervisorCall ps u r hi hu ht => exact .inr (.inr ⟨ps, hi⟩)
    | rfn hi ht =>
      subst ht
      rw [readWord_setPc, readWord_setTos] at hx
      exact absurd (readWord_congr _ _ rfl rfl k x) hx
    | pcOnly v hr hs ht =>
      subst ht
      exact absurd rfl hx
  · obtain ⟨-, -, -, -, -, -, hdata, hstack, -, -⟩ := supervisorCall_frame h
    exact readWord_congr s u hdata hstack k x

/-! ### What the devices see (R39, R211) -/

/-- What a device word gives, whole or the field of it that the access is narrowed to (R92). -/
theorem operandValue_device {s : State} {a : Adr} {x : Word} {f : Option BitField}
    (hl : (operand a s).loc = .mem .data x f) (hd : s.isDevice .data x = true) :
    operandValue a s = narrowGet f (Config.deviceRead s.devices x) := by
  simp [operandValue, Operand.read, hl, State.load, hd]

/-- An instruction that does not store shows the devices the read of its operand. -/
theorem ExecShape.devices_of_load {i : Instr} {a : Adr} {s t : State} (h : ExecShape i a s t)
    (hs : storesTo i = none) : t.devices = readLog s (Machine.operand a s).loc := by
  cases h with
  | register r v c cv n hn hr hc hs' ht => subst ht; simp
  | operand base v c cv n hb hn hs' hc ht => cases hs.symm.trans hs'
  | exchange r v w n hb hn hr hs' ht => cases hs.symm.trans hs'
  | special xm xh sp n hn hm hh hp hr hs' ht => subst ht; simp
  | jump v hr hs' ht => subst ht; simp

/-- One that stores shows them the read, where it makes one, and then the write. -/
theorem ExecShape.devices_of_store {i : Instr} {a b : Adr} {s t : State} (h : ExecShape i a s t)
    (hs : storesTo i = some b) : ∃ v, t.devices = writeLog s (Machine.operand a s).loc v
      (if storesWithoutReading i then s.devices else readLog s (Machine.operand a s).loc) := by
  cases h with
  | register r v c cv n hn hr hc hs' ht => cases hs.symm.trans hs'
  | operand base v c cv n hb hn hs' hc ht =>
    obtain ⟨-, hd⟩ := write_frame a v s base (by subst hb; split <;> simp) (by subst hb; split <;> simp)
    subst ht
    refine ⟨v, ?_⟩
    rw [advance_devices, writeCarry_devices, hd, hb]
    split <;> simp
  | exchange r v w n hb hn hr hs' ht =>
    obtain ⟨-, hd⟩ := write_frame a w s ((afterReads a s).setReg r v) (by simp) (by simp)
    subst ht
    exact ⟨w, by simp [hd, hb]⟩
  | special xm xh sp n hn hm hh hp hr hs' ht => cases hs.symm.trans hs'
  | jump v hr hs' ht => cases hs.symm.trans hs'

/-- From the accesses `before` to those of `after` the devices have seen at most `n` reads and no write. -/
def ReadsAtMost (n : Nat) (before after : List DeviceAccess) : Prop :=
  ∃ seen, after = seen ++ before ∧ seen.length ≤ n ∧ ∀ x ∈ seen, ∃ y, x = .read y

theorem readsAtMost_refl (n : Nat) (l : List DeviceAccess) : ReadsAtMost n l l := ⟨[], rfl, Nat.zero_le n, nofun⟩

theorem ReadsAtMost.trans {n m : Nat} {l l' l'' : List DeviceAccess} (h : ReadsAtMost n l l')
    (h' : ReadsAtMost m l' l'') : ReadsAtMost (m + n) l l'' := by
  obtain ⟨seen, rfl, hn, hr⟩ := h
  obtain ⟨seen', rfl, hm, hr'⟩ := h'
  refine ⟨seen' ++ seen, (List.append_assoc _ _ _).symm, by rw [List.length_append]; omega, fun x hx => ?_⟩
  exact (List.mem_append.mp hx).elim (hr' x) (hr x)

/-- The read of an operand is at most one read of a device (R39, D16). -/
theorem readsAtMost_readLog (s : State) (l : Loc) : ReadsAtMost 1 s.devices (readLog s l) := by
  unfold readLog
  split
  · exact readsAtMost_refl 1 _
  · exact readsAtMost_refl 1 _
  · split
    · exact ⟨[_], rfl, le_rfl, fun x hx => ⟨_, List.mem_singleton.mp hx⟩⟩
    · exact readsAtMost_refl 1 _

theorem readsAtMost_pushParams {ps : List Adr} {bp : Word} {s t : State} (h : pushParams ps bp s = .next t) :
    ReadsAtMost ps.length s.devices t.devices := by
  induction ps generalizing s with
  | nil =>
    cases h
    exact readsAtMost_refl 0 _
  | cons p ps ih =>
    obtain ⟨-, -, h⟩ := pushParams_cons h
    have hrest := ih h
    rw [pushed, writeWord_devices, postInc_devices, afterRead_devices] at hrest
    exact (readsAtMost_readLog s _).trans hrest

theorem readsAtMost_collectArgs {ps : List Adr} {bp : Word} {s : State} {x : State × List Word}
    (h : collectArgs ps bp s = .next x) : ReadsAtMost ps.length s.devices x.1.devices := by
  induction ps generalizing s x with
  | nil =>
    cases h
    exact readsAtMost_refl 0 _
  | cons p ps ih =>
    obtain ⟨-, y, hy, rfl⟩ := collectArgs_cons h
    have hrest := ih hy
    rw [postInc_devices, afterRead_devices] at hrest
    exact (readsAtMost_readLog s _).trans hrest

/-- Settles O60: the devices see of an instruction what its shape does to them, of a call the reads of its
parameters after that of its target. -/
theorem deviceAccessesAreCounted : Obligations.DeviceAccessesAreCounted := by
  refine ⟨fun s a x f hl hd => ?_, fun i s t a ha hc h => ?_, fun i s t ho hjsv h => ?_, fun b a ps s t h => ?_,
    fun ps s u h => ?_⟩
  · rw [operandValue_device hl hd]
    cases f <;> rfl
  · obtain ⟨-, hshape⟩ := exec_shape i a s t ha hc h
    cases hs : storesTo i with
    | none => exact ⟨0, hshape.devices_of_load hs⟩
    | some c => exact hshape.devices_of_store hs
  · cases exec_completion h with
    | operand a ha hc hs => cases ho.symm.trans ha
    | call b a ps u hi hp ht =>
      subst hi
      cases ho.symm.trans (operandOf_callInstr b a ps)
    | supervisorCall ps u r hi hu ht => exact absurd hi (hjsv ps)
    | rfn hi ht => subst ht; simp
    | pcOnly v hr hs ht => subst ht; rfl
  · obtain ⟨-, -, -, u, hp, rfl⟩ := callInstr_next h
    have hreads := readsAtMost_pushParams hp
    rwa [framed_devices, afterReads_devices] at hreads
  · obtain ⟨x, hx, rfl⟩ := supervisorCall_next h
    exact readsAtMost_collectArgs hx

end Sys2Proof.Machine
end

section
/-! PROOFS. The encoding: all a decoded instruction can be, the bits the decoder does not look at, and the full
parameter list. -/

namespace Sys2Proof
open Sys2Proof.Machine

/-- Settles O1: the encoder writes every field where the decoder reads it. -/
theorem decodeInvertsEncode : Obligations.DecodeInvertsEncode := decode_encode

/-! ### One row for each first word (R65, R67) -/

/-- Among rows that are apart, no other row is selected with the one a word selects. -/
theorem filter_of_selects {l : List OpcodeRow} {row : OpcodeRow} {w : Word} (hl : l.Pairwise OpcodeRow.Apart)
    (hm : row ∈ l) (hs : row.selects w = true) : l.filter (fun r => r.selects w) = [row] := by
  induction l with
  | nil => cases hm
  | cons r rest ih =>
    obtain ⟨hr, hrest⟩ := List.pairwise_cons.mp hl
    rcases List.mem_cons.mp hm with rfl | hm
    · have hnone : rest.filter (fun r => r.selects w) = [] :=
        List.filter_eq_nil_iff.mpr fun r' hr' hs' => (hr r' hr').not_selects hs' hs
      rw [List.filter_cons_of_pos (p := fun r : OpcodeRow => r.selects w) hs, hnone]
    · have hne : ¬ r.selects w = true := (hr row hm).not_selects hs
      rw [List.filter_cons_of_neg (p := fun r : OpcodeRow => r.selects w) hne, ih hrest hm]

/-- Settles O2: every word has a row, and the rows are pairwise apart. -/
theorem everyFirstWordSelectsOneRow : Obligations.EveryFirstWordSelectsOneRow := by
  refine ⟨rfl, fun w => ?_⟩
  obtain ⟨row, hrow⟩ := exists_findRow w
  obtain ⟨hm, hs⟩ := mem_and_selects_of_findRow hrow
  exact ⟨row, filter_of_selects opcodeTable_apart hm hs, hrow⟩

/-! ### All a decoded instruction can be (R63, R185) -/

/-- The kind of a row is that of the instructions it makes: what is read after the first word is the operand, or the
operand and the parameters, of the instruction. -/
def RowBuild.Fits (b : RowBuild) : Prop :=
  match b with
  | .word build => ∀ w, (build w).wf = true ∧ operandOf (build w) = none
  | .adr build => ∀ w a, (build w a).wf = true ∧ operandOf (build w a) = some a
  | .call build => ∃ b, ∀ a ps, build a ps = callInstr b a ps
  | .sysCall build => ∀ ps, build ps = .jsv ps

theorem opcodeTable_fits : ∀ row ∈ opcodeTable, row.build.Fits := by
  have hjfr : (RowBuild.call fun a ps => .jfr a ps).Fits := ⟨false, fun _ _ => rfl⟩
  have hjfa : (RowBuild.call fun a ps => .jfa a ps).Fits := ⟨true, fun _ _ => rfl⟩
  simp only [opcodeTable, opcodeRows00, opcodeRows01, opcodeRows10, opcodeRows11, List.forall_mem_append,
    List.forall_mem_cons, hjfr, hjfa]
  simp [RowBuild.Fits, Instr.wf, operandOf]

/-- How the words `ws` after the first word `w` were read for instruction `i`, leaving `rest`. -/
inductive ReadAs (w : Word) (ws rest : List Word) (i : Instr) : Prop where
  /-- The first word is the whole instruction. -/
  | word (hw : i.wf = true) (ho : operandOf i = none) (hrest : rest = ws)
  /-- The addressing mode of the first word is the operand (R61). -/
  | adr (a : Adr) (hw : i.wf = true) (ho : operandOf i = some a) (ha : decodeAdr (adrField w) ws = .ok (a, rest))
  /-- A call: the target operand, then the parameters (R185). -/
  | call (b : Bool) (a : Adr) (ps : List Adr) (mid : List Word) (hi : i = callInstr b a ps)
      (ha : decodeAdr (adrField w) ws = .ok (a, mid)) (hp : decodeParamList (eField w) mid = .ok (ps, rest))
  /-- A supervisor call: the parameters (R189). -/
  | sysCall (ps : List Adr) (hi : i = .jsv ps) (hp : decodeParamList (eField w) ws = .ok (ps, rest))

/-- What a row makes of the words it reads. -/
theorem readAs_of_finish {b : RowBuild} {w : Word} {ws rest : List Word} {i : Instr} (hb : b.Fits)
    (h : b.finish w ws = .ok (i, rest)) : ReadAs w ws rest i := by
  unfold RowBuild.finish at h
  unfold RowBuild.Fits at hb
  split at h
  · cases h
    obtain ⟨hw, ho⟩ := hb w
    exact .word hw ho rfl
  · split at h
    · cases h
    · rename_i a rest' ha
      cases h
      obtain ⟨hw, ho⟩ := hb w a
      exact .adr a hw ho ha
  · split at h
    · cases h
    · split at h
      · cases h
      · rename_i a mid ha _ ps rest' hp
        cases h
        obtain ⟨b, hb⟩ := hb
        exact .call b a ps mid (hb a ps) ha hp
  · split at h
    · cases h
    · rename_i ps rest' hp
      cases h
      exact .sysCall ps (hb ps) hp

/-- Every decoded instruction was read in one of these ways. -/
theorem readAs_of_decode {w : Word} {ws rest : List Word} {i : Instr} (h : decode (w :: ws) = .ok (i, rest)) :
    ReadAs w ws rest i := by
  obtain ⟨row, hrow⟩ := exists_findRow w
  simp only [decode, hrow] at h
  exact readAs_of_finish (opcodeTable_fits row (mem_and_selects_of_findRow hrow).1) h

/-- No more parameters are read than are asked for (R185). -/
theorem decodeParams_length_le {n : Nat} {ws rest : List Word} {ps : List Adr}
    (h : decodeParams n ws = .ok (ps, rest)) : ps.length ≤ n := by
  induction n generalizing ws ps with
  | zero =>
    cases h
    exact le_rfl
  | succ n ih =>
    unfold decodeParams at h
    split at h
    · cases h
    · split at h
      · cases h
      · split at h
        · cases h
          simp
        · split at h
          · cases h
          · rename_i hps
            cases h
            exact Nat.succ_le_succ (ih hps)

/-- What is read as a parameter list is one (R185). -/
theorem paramsOk_of_decodeParamList {e : Bool} {ws rest : List Word} {ps : List Adr}
    (h : decodeParamList e ws = .ok (ps, rest)) : paramsOk ps = true := by
  cases e with
  | true =>
    cases h
    rfl
  | false => exact decide_eq_true (decodeParams_length_le h)

theorem wf_callInstr (b : Bool) (a : Adr) (ps : List Adr) : (callInstr b a ps).wf = paramsOk ps := by
  cases b <;> rfl

/-- What decodes is well formed. -/
theorem wf_of_decode {ws rest : List Word} {i : Instr} (h : decode ws = .ok (i, rest)) : i.wf = true := by
  cases ws with
  | nil => cases h
  | cons w ws =>
    cases readAs_of_decode h with
    | word hw ho hrest => exact hw
    | adr a hw ho ha => exact hw
    | call b a ps mid hi ha hp => rw [hi, wf_callInstr, paramsOk_of_decodeParamList hp]
    | sysCall ps hi hp =>
      rw [hi]
      exact paramsOk_of_decodeParamList hp

/-- Settles O3: enough words decode, and what decodes is well formed. -/
theorem enoughWordsDecode : Obligations.EnoughWordsDecode := by
  intro ws hlen
  obtain ⟨i, rest, h⟩ := decode_total hlen
  exact ⟨i, rest, h, wf_of_decode h⟩

/-! ### The length of an instruction (R50, R61, R63) -/

theorem modeBits_iff : ∀ f : BitVec 6,
    f.extractLsb' 4 2 = 0b10#2 ↔ f.getLsbD 5 = true ∧ f.getLsbD 4 = false := by decide

/-- The mode bits of the addressing-mode field are those of the first word. -/
theorem modeBits_adrField (w : Word) : (adrField w).extractLsb' 4 2 = w.extractLsb' 4 2 := by
  simp [adrField, BitVec.extractLsb'_extractLsb'_of_le]

/-- An addressing mode takes a word after the first exactly where its mode bits are 10. -/
theorem decodeAdr_length {f : BitVec 6} {ws rest : List Word} {a : Adr} (h : decodeAdr f ws = .ok (a, rest)) :
    ws.length = rest.length + if f.extractLsb' 4 2 = 0b10#2 then 1 else 0 := by
  unfold decodeAdr at h
  rw [if_congr (modeBits_iff f) rfl rfl]
  split at h <;> rename_i h5 h4 <;> rw [h5, h4]
  · cases h
    rfl
  · cases h
    rfl
  · split at h <;> cases h
    rfl
  · split at h <;> cases h <;> rfl

/-- Settles O5: only the addressing mode of an operand takes a word, calls apart. -/
theorem secondWordOnlyWhereTheModeNeedsIt : Obligations.SecondWordOnlyWhereTheModeNeedsIt := by
  intro w ws rest i h hjsv hcall
  cases readAs_of_decode h with
  | word hw ho hrest => simp [ho, hrest]
  | adr a hw ho ha =>
    have hlen := decodeAdr_length ha
    rw [modeBits_adrField] at hlen
    simpa [ho] using hlen
  | call b a ps mid hi ha hp => exact absurd hi (hcall b a ps)
  | sysCall ps hi hp => exact absurd hi (hjsv ps)

/-! ### Ignored bits (R54 to R56, R59, R60, R62, R64) -/

/-- Bits inverted outside a mask do not show under it. -/
theorem dashes_and_mask {m d : Word} (h : d &&& m = 0) (w x : Word) : (w ^^^ (x &&& d)) &&& m = w &&& m := by
  ext k hk
  have hdm : (d[k] && m[k]) = false := by simpa using congrArg (·[k]) h
  simp only [BitVec.getElem_and, BitVec.getElem_xor]
  rw [Bool.and_xor_distrib_right, Bool.and_assoc, hdm, Bool.and_false, Bool.xor_false]

/-- Bits inverted outside a field leave it as it is. -/
theorem dashes_extract {k n : Nat} {d : Word} (h : d.extractLsb' k n = 0#n) (w x : Word) :
    (w ^^^ (x &&& d)).extractLsb' k n = w.extractLsb' k n := by
  rw [BitVec.extractLsb'_xor, BitVec.extractLsb'_and, h, BitVec.and_zero, BitVec.xor_zero]

theorem dashes_adrField {d : Word} (h : d.extractLsb' 0 6 = 0#6) (w x : Word) :
    adrField (w ^^^ (x &&& d)) = adrField w := dashes_extract h w x

theorem dashes_eField {d : Word} (h : d.getLsbD 6 = false) (w x : Word) : eField (w ^^^ (x &&& d)) = eField w := by
  rw [eField, eField, BitVec.getLsbD_xor, BitVec.getLsbD_and, h, Bool.and_false, Bool.xor_false]

/-- Bits that neither the row nor what it builds looks at do not change what a word reads as. -/
theorem decode_dashes {m p d : Word} {b : RowBuild} (hrow : findRow p = some ⟨m, p, b⟩) (hd : d &&& m = 0)
    (hb : ∀ w x rest, b.finish (w ^^^ (x &&& d)) rest = b.finish w rest) (w x : Word) (rest : List Word)
    (hw : w &&& m = p) : decode ((w ^^^ (x &&& d)) :: rest) = decode (w :: rest) := by
  have hp : p &&& m = p := selects_iff.mp (mem_and_selects_of_findRow hrow).2
  have hfind : findRow w = some ⟨m, p, b⟩ := findRow_congr hrow (hw.trans hp.symm)
  have hfind' : findRow (w ^^^ (x &&& d)) = some ⟨m, p, b⟩ := findRow_congr hfind (dashes_and_mask hd w x)
  simp only [decode, hfind, hfind', hb]

theorem finish_adr_dashes {mk : Adr → Instr} {d : Word} (h : d.extractLsb' 0 6 = 0#6) (w x : Word) (rest : List Word) :
    (RowBuild.adr fun _ a => mk a).finish (w ^^^ (x &&& d)) rest = (RowBuild.adr fun _ a => mk a).finish w rest := by
  simp only [RowBuild.finish, dashes_adrField h]

theorem finish_sysCall_dashes {mk : List Adr → Instr} {d : Word} (h : d.getLsbD 6 = false) (w x : Word)
    (rest : List Word) : (RowBuild.sysCall mk).finish (w ^^^ (x &&& d)) rest = (RowBuild.sysCall mk).finish w rest := by
  simp only [RowBuild.finish, dashes_eField h]

/-- Dashes above the addressing mode of a row without other fields (R54, R55). -/
theorem decode_dashes_fixed {m p d : Word} {mk : Adr → Instr} (hrow : findRow p = some ⟨m, p, .adr fun _ a => mk a⟩)
    (hd : d &&& m = 0) (hf : d.extractLsb' 0 6 = 0#6) (w x : Word) (rest : List Word) (hw : w &&& m = p) :
    decode ((w ^^^ (x &&& d)) :: rest) = decode (w :: rest) :=
  decode_dashes hrow hd (finish_adr_dashes hf) w x rest hw

/-- A second word gives its low fourteen bits (R62). -/
theorem decodeAdr_dashes {f : BitVec 6} (hf : f.extractLsb' 4 2 = 0b10#2) (w x : Word) (rest : List Word) :
    decodeAdr f ((w ^^^ (x &&& 0xC000)) :: rest) = decodeAdr f (w :: rest) := by
  obtain ⟨h5, h4⟩ := (modeBits_iff f).mp hf
  have himm : ∀ hi, joinImm16 hi (w ^^^ (x &&& 0xC000)) = joinImm16 hi w := fun hi =>
    congrArg (hi ++ ·) (dashes_extract (by decide) w x)
  unfold decodeAdr
  simp only [h5, h4, himm]

/-- A parameter word gives its addressing mode and its `e` bit (R60). -/
theorem decodeParams_dashes (n : Nat) (w x : Word) (rest : List Word) :
    decodeParams (n + 1) ((w ^^^ (x &&& 0xFF80)) :: rest) = decodeParams (n + 1) (w :: rest) := by
  have ha : adrField (w ^^^ (x &&& 0xFF80)) = adrField w := dashes_adrField (by decide) w x
  have he : eField (w ^^^ (x &&& 0xFF80)) = eField w := dashes_eField (by decide) w x
  simp only [decodeParams, ha, he]

/-- Settles O4: each row with dashes, the second word, the parameter word, and the one meaning of the Supervisor
area. -/
theorem spareBitsAreIgnored : Obligations.SpareBitsAreIgnored := by
  refine ⟨?_, fun f w x rest hf => decodeAdr_dashes hf w x rest, fun n w x rest => ?_, fun x y s => rfl⟩
  · simp only [List.forall_mem_cons]
    refine ⟨?movAdrXM, ?movAdrXH, ?movAdrSp, ?movXMAdr, ?movXHAdr, ?movSpAdr, ?jsv, ?rfn, ?addSpAdr, ?jmr, ?jma,
      ?subSpAdr, ?nop, nofun⟩
    case jsv => exact decode_dashes (b := .sysCall fun ps => .jsv ps) rfl (by decide) (finish_sysCall_dashes (by decide))
    case rfn => exact decode_dashes (b := .word fun _ => .rfn) rfl (by decide) fun _ _ _ => rfl
    case nop => exact decode_dashes (b := .word fun _ => .nop) rfl (by decide) fun _ _ _ => rfl
    all_goals exact decode_dashes_fixed rfl (by decide) (by decide)
  · cases n with
    | zero => rfl
    | succ n => exact decodeParams_dashes n w x rest

/-! ### A full parameter list (R60, R185) -/

/-- Where `n + 1` parameters are asked for, the last of as many ends the list under either `e` bit. -/
theorem decodeParams_full (ps : List Adr) (p : Adr) (last : Bool) (rest : List Word) :
    decodeParams (ps.length + 1) (ps.flatMap (encodeParam false) ++ (encodeParam last p ++ rest)) =
      .ok (ps ++ [p], rest) := by
  induction ps with
  | nil =>
    rw [List.flatMap_nil, List.nil_append, decodeParams_encodeParam]
    cases last <;> rfl
  | cons q ps ih =>
    rw [List.flatMap_cons, List.append_assoc, List.length_cons, decodeParams_encodeParam]
    simp only [ih, List.cons_append]

/-- After a call word with `e` = 0, sixteen parameters are the list (R185). -/
theorem decodeParamList_full {ps : List Adr} (hps : ps.length = 15) (p : Adr) (last : Bool) (rest : List Word) :
    decodeParamList false (ps.flatMap (encodeParam false) ++ (encodeParam last p ++ rest)) = .ok (ps ++ [p], rest) := by
  have h := decodeParams_full ps p last rest
  rwa [hps] at h

/-- The words of a call and of a parameter list read as the call with these parameters (R56). -/
theorem decode_encodeWith_of_params {x : BitVec 9} {e : Bool} {mk : Adr → List Adr → Instr} {m p : Word} {a : Adr}
    {ps : List Adr} {ws rest : List Word}
    (h : findRow ((x ++ BitVec.ofBool e : BitVec 10) ++ 0#6) = some ⟨m, p, .call mk⟩)
    (hps : decodeParamList e ws = .ok (ps, rest)) :
    decode (encodeWith (x ++ BitVec.ofBool e) a ++ ws) = .ok (mk a ps, rest) := by
  rw [decode_encodeWith_call _ a _ m p mk h, eField_append, hps]

/-- Settles O6: the sixteenth parameter ends the list whatever its `e` bit. -/
theorem sixteenthParameterEndsTheList : Obligations.SixteenthParameterEndsTheList := by
  intro a p ps last rest hlen
  have hps := decodeParamList_full hlen p last rest
  refine ⟨?_, ?_, ?_⟩
  · exact decode_encodeWith_of_params (x := 0b100010000#9) (e := false) (mk := .jfr) rfl hps
  · exact decode_encodeWith_of_params (x := 0b100010010#9) (e := false) (mk := .jfa) rfl hps
  · have hrow : findRow 0x8880 = some ⟨0xFF80, 0x8880, .sysCall fun ps => .jsv ps⟩ := rfl
    have he : eField 0x8880 = false := rfl
    simp only [decode, hrow, RowBuild.finish, he, hps]

/-! ### Words of the spec (R193) -/

/-- Settles O7: but for NOP's ignored bits, the words are those the encoder writes. -/
theorem knownWordsDecode : Obligations.KnownWordsDecode := by
  have known : ∀ {i : Instr} {ws : List Word}, i.wf = true → encode i = ws → decode ws = .ok (i, []) := by
    rintro i _ hw rfl
    simpa using decode_encode i [] hw
  refine ⟨?jfr, ?movXM, ?add, ?xch, ?xor, ?src, ?btc, ?xsg, ?jms, ?rfn, ?nop⟩
  case nop => rfl
  all_goals exact known rfl rfl

end Sys2Proof
end

section
/-! PROOFS. What decoded words do: no step refuses user-mode words, the compare skips read either way round, and the
frame a call enters and a return leaves. -/

namespace Sys2Proof.Machine

/-! ### Steps refuse nothing (R65, R67, R80) -/

/-- The operation answers a state or a fault. -/
def NeverRefuses {α : Type} (x : Result α) : Prop := ∀ r, x ≠ .refused r

section Refusals
variable {α β : Type}

theorem neverRefuses_next (x : α) : NeverRefuses (.next x : Result α) := nofun

theorem neverRefuses_guardAccess {s : State} {sp : Space} {a : Word} {k : Result α} (h : NeverRefuses k) :
    NeverRefuses (guardAccess s sp a k) := by
  unfold guardAccess
  split
  · exact h
  · exact nofun

theorem neverRefuses_onOperand {a : Adr} {bp : Word} {s : State} {k : Operand → Result α}
    (h : ∀ o, NeverRefuses (k o)) : NeverRefuses (onOperand a bp s k) := by
  unfold onOperand
  split
  · exact h _
  · exact h _
  · exact neverRefuses_guardAccess (h _)

theorem neverRefuses_thenNext {x : Result α} {k : α → Result β} (hx : NeverRefuses x) (hk : ∀ a, NeverRefuses (k a)) :
    NeverRefuses (thenNext x k) := by
  cases x with
  | next a => exact hk a
  | fault f => exact nofun
  | refused r => exact absurd rfl (hx r)

theorem neverRefuses_pushParams (ps : List Adr) (bp : Word) (s : State) : NeverRefuses (pushParams ps bp s) := by
  induction ps generalizing s with
  | nil => exact neverRefuses_next s
  | cons p ps ih => exact neverRefuses_onOperand fun o => neverRefuses_guardAccess (ih _)

theorem neverRefuses_collectArgs (ps : List Adr) (bp : Word) (s : State) : NeverRefuses (collectArgs ps bp s) := by
  induction ps generalizing s with
  | nil => exact neverRefuses_next _
  | cons p ps ih => exact neverRefuses_onOperand fun o => neverRefuses_thenNext (ih _) fun x => neverRefuses_next _

theorem neverRefuses_kernelOutcome (s : State) : NeverRefuses (kernelOutcome s) := by
  rcases kernelOutcome_cases s with ⟨-, e⟩ | ⟨r, -, e⟩ <;> rw [e] <;> exact nofun

theorem neverRefuses_callTo (g : Word → Word) (a : Adr) (ps : List Adr) (s : State) :
    NeverRefuses (callTo g a ps s) := by
  refine neverRefuses_onOperand fun o => neverRefuses_guardAccess (neverRefuses_guardAccess ?_)
  exact neverRefuses_thenNext (neverRefuses_pushParams _ _ _) fun t => neverRefuses_next _

theorem neverRefuses_leaveFrame (s : State) : NeverRefuses (leaveFrame s) :=
  neverRefuses_guardAccess (neverRefuses_guardAccess (neverRefuses_next _))

end Refusals

/-- In user mode every instruction has a meaning; the Supervisor area's is the trap (R201). -/
theorem neverRefuses_exec (i : Instr) {s : State} (hmode : s.mode = .user) : NeverRefuses (exec i s) := by
  rcases ho : operandOf i with _ | a
  · cases i
    case jms off | nop => exact neverRefuses_next _
    case rfn => exact neverRefuses_leaveFrame s
    case jsv ps =>
      have hcall : NeverRefuses (supervisorCall ps s) :=
        neverRefuses_thenNext (neverRefuses_collectArgs ps s.bp s) fun x => neverRefuses_next _
      exact neverRefuses_thenNext hcall neverRefuses_kernelOutcome
    case supervisorArea bits =>
      rw [exec_supervisorArea_user bits hmode]
      exact nofun
    all_goals exact absurd ho nofun
  · by_cases hc : ∃ b c ps, i = callInstr b c ps
    · obtain ⟨b, c, ps, rfl⟩ := hc
      obtain ⟨g, hg⟩ := exec_callInstr b c s
      rw [hg]
      exact neverRefuses_callTo g c ps s
    · obtain ⟨g, hg⟩ := exec_onOperand i a s ho fun b c ps e => hc ⟨b, c, ps, e⟩
      rw [hg]
      exact neverRefuses_onOperand fun o => neverRefuses_next _

/-- No step is refused: the kernel answers in supervisor mode, and in user mode some instruction is read and run. -/
theorem neverRefuses_step (s : State) : NeverRefuses (step s) := by
  cases hmode : s.mode with
  | supervisor =>
    have hstep : step s = kernelOutcome s := by simp only [step, hmode]
    rw [hstep]
    exact neverRefuses_kernelOutcome s
  | user =>
    obtain ⟨i, ws, rest, -, hstep⟩ := step_user hmode
    rw [hstep]
    exact neverRefuses_exec i hmode

/-- Settles O10: a step is never refused at all. -/
theorem stepNeverFindsUndecodableWords : Obligations.StepNeverFindsUndecodableWords :=
  fun s => ⟨neverRefuses_step s _, fun m => neverRefuses_step s (.notModelled m)⟩

/-! ### The compare skips, either way round (R70, R177) -/

theorem signedValue_eq_toInt (v : Word) : signedValue v = v.toInt := by
  rw [signedValue, BitVec.toInt_eq_toNat_cond]
  split <;> split <;> omega

theorem signedGreater_eq (x y : Word) : signedGreater x y = decide (signedValue y < signedValue x) := by
  rw [signedValue_eq_toInt, signedValue_eq_toInt]
  rfl

/-- Words read as one instruction at most. -/
theorem formReads_unique {hi : BitVec 10} {a : Adr} {i j : Instr} (h : FormReads hi a i) (h' : FormReads hi a j) :
    i = j :=
  congrArg Prod.fst (Except.ok.inj ((h []).symm.trans (h' [])))

/-- A skip of format RA under the only instruction its words read as. -/
theorem skips_of_formReads {x : BitVec 7} {mk : Reg → Adr → Instr} {p : Word} {r : Reg} {a : Adr} {s : State}
    {cond : Word → Bool} {taken : Bool}
    (hrow : findRow ((x ++ 0#3 : BitVec 10) ++ 0#6) = some ⟨0xFE00, p, .adr fun w a => mk (rxField w) a⟩)
    (hexec : exec (mk r a) s = skipIf cond a s) (hu : Usable a s) (hcond : cond (operandValue a s) = taken)
    (i : Instr) (hi : FormReads (x ++ r.bits) a i) : Skips i s a taken := by
  obtain rfl := formReads_unique hi (decode_encodeWith_rx hrow r a)
  rw [← hcond]
  exact skipIf_skips _ hexec hu

/-- A skip on a register reads it and changes `pc` alone. -/
theorem skipIf_reg (cond : Word → Bool) (q : Reg) (s : State) :
    skipIf cond (.reg q) s = .next (s.advance (if cond (s.reg q) then 2 else 1)) := rfl

/-- Two registers compared as `rx, adr` or as `adr, rx`. -/
theorem skipIf_reg_swap (f : Word → Word → Bool) (p q : Reg) (s : State) :
    skipIf (fun v => f (s.reg p) v) (.reg q) s = skipIf (fun v => f v (s.reg q)) (.reg p) s := by
  rw [skipIf_reg, skipIf_reg]

/-- Settles O43: the four rows of the two comparisons, and the two encodings of a comparison of registers. -/
theorem lessThanBySwappedOperands : Obligations.LessThanBySwappedOperands := by
  refine ⟨fun s r a hu => ⟨?xsgAdrRx, ?xsgRxAdr, ?xugAdrRx, ?xugRxAdr⟩, fun s p q => ⟨?_, ?_⟩⟩
  case xsgAdrRx =>
    exact skips_of_formReads (mk := fun r a => .xsgAdrRx a r) (cond := fun v => signedGreater v (s.reg r)) rfl rfl hu
      (signedGreater_eq _ _)
  case xsgRxAdr =>
    exact skips_of_formReads (mk := .xsgRxAdr) (cond := fun v => signedGreater (s.reg r) v) rfl rfl hu
      (signedGreater_eq _ _)
  case xugAdrRx =>
    exact skips_of_formReads (mk := fun r a => .xugAdrRx a r) (cond := fun v => unsignedGreater v (s.reg r)) rfl rfl hu
      rfl
  case xugRxAdr =>
    exact skips_of_formReads (mk := .xugRxAdr) (cond := fun v => unsignedGreater (s.reg r) v) rfl rfl hu rfl
  · exact skipIf_reg_swap signedGreater p q s
  · exact skipIf_reg_swap unsignedGreater p q s

/-! ### Entering and leaving a frame (R184, R186 to R188) -/

/-- A call without parameters, where its operand and the two words of its frame exist: the frame, then the jump. -/
theorem exec_callInstr_nil {b : Bool} {a : Adr} {s : State} (hu : Usable a s) (h1 : s.isMapped .stack s.tos = true)
    (h2 : s.isMapped .stack (s.tos + 1) = true) :
    exec (callInstr b a []) s = .next ((framed (afterReads a s) (nextPc s a 0)).setPc (callTarget b a s)) := by
  obtain ⟨g, hg⟩ := exec_callInstr b a s
  have hnext : exec (callInstr b a []) s = .next _ := (hg []).trans (callTo_mapped g [] hu h1 h2)
  obtain ⟨-, -, -, u, hpush, ht⟩ := callInstr_next hnext
  cases hpush
  rw [hnext, ht]

theorem toPc_callTarget (b : Bool) (a : Adr) (s : State) : s.toPc (callTarget b a s) = callTarget b a s := by
  cases b <;> exact toPc_toPc _ _

theorem framed_bp (s : State) (ret : Word) : (framed s ret).bp = s.tos + 2 := by simp [framed]

theorem framed_sp (s : State) (ret : Word) :
    (framed s ret).sp = if s.params.spRelative then 0 else s.tos + 2 := by simp [framed]

/-- Settles O48: the words of both calls with `e` = 1, and the frame entered by either. -/
theorem callEntersFrame : Obligations.CallEntersFrame := by
  refine ⟨fun a => ⟨fun rest => ?_, fun rest => ?_⟩, fun s b a hu h1 h2 => ⟨_, exec_callInstr_nil hu h1 h2, ?_⟩⟩
  · exact decode_encodeWith_of_params (x := 0b100010000#9) (e := true) (mk := .jfr) rfl rfl
  · exact decode_encodeWith_of_params (x := 0b100010010#9) (e := true) (mk := .jfa) rfl rfl
  · refine ⟨fun q => ?regs, ?xm, ?xh, ?sp, ?bp, fun k x => ?mem, ?devices, ?pc, ?mode, ?supStack, ?code, ?params⟩
    case regs => exact (reg_congr (afterReads a s) _ (framed_regs _ _) q).trans (afterReads_reg a s q)
    case mem =>
      rw [readWord_setPc, framed_readWord, afterReads_tos, afterReads_bp, afterReads_readWord]
      by_cases h0 : k = .stack ∧ x = s.tos
      · have hne : ¬ (k = .stack ∧ x = s.tos + 1) := by
          rintro ⟨-, h⟩
          have := h0.2.symm.trans h
          bv_omega
        rw [if_neg hne, if_pos h0, if_pos h0]
      · rw [if_neg h0, if_neg h0]
    case pc => rw [setPc_pc, toPc_congr s _ (by simp), toPc_callTarget]
    all_goals simp [framed_bp, framed_sp, framed_devices]

/-- `TOS` is where it is set (R184). -/
theorem setTos_tos (s : State) (a : Word) : (s.setTos a).tos = a := by
  cases hsp : s.params.spRelative <;> simp [State.tos, State.setTos, hsp]

/-- Every word of the row of RFN reads as RFN (R59). -/
theorem decode_rfn (x : BitVec 7) (rest : List Word) : decode ((0b100010011#9 ++ x) :: rest) = .ok (.rfn, rest) := by
  have hrow : findRow (0b100010011#9 ++ x) = some ⟨0xFF80, 0x8980, .word fun _ => .rfn⟩ :=
    findRow_congr (w := 0x8980) rfl (append_and_mask 0b100010011#9 x)
  simp only [decode, hrow, RowBuild.finish]

/-- Settles O51: the words of RFN, and the state a return leaves. -/
theorem returnRestoresTheFrame : Obligations.ReturnRestoresTheFrame := by
  refine ⟨decode_rfn, fun s h1 h2 => ⟨_, leaveFrame_mapped s h1 h2, setTos_tos _ _, ?_⟩⟩
  refine ⟨fun q => ?regs, ?xm, ?xh, ?sp, ?bp, fun k x => ?mem, ?devices, ?pc, ?mode, ?supStack, ?code, ?params⟩
  case regs => exact reg_congr s _ (by simp) q
  case mem => exact readWord_congr s _ (by simp) (by simp) k x
  case pc => rw [setPc_pc, toPc_congr s _ (by simp)]
  all_goals simp

end Sys2Proof.Machine
end

section
/-! PROOFS. Operands and execution: the pointer modes and their clashes, and how a call and a supervisor call go on
with one parameter more. -/

namespace Sys2Proof.Machine

/-- Settles O8: the fetched words decode, so the step is the execution of what they decode to. -/
theorem stepRunsDecodedInstruction : Obligations.StepRunsDecodedInstruction := fun _ _ _ hmode h =>
  step_of_decode hmode h

/-! ### Parts of XM and XH (R20) -/

theorem partLow_le (n : PartNo) : partLow n ≤ 12 := by cases n <;> decide

/-- The four bits of a part take the new value, the other twelve are kept (R112, R114). -/
theorem getLsbD_setPart (r : Word) (n : PartNo) (v : Nibble) {k : Nat} (hk : k < 16) :
    (setPart r n v).getLsbD k =
      if partLow n ≤ k ∧ k < partLow n + 4 then v.getLsbD (k - partLow n) else r.getLsbD k := by
  have hmask : (0x000F : Word) = (BitVec.allOnes 4).zeroExtend 16 := by decide
  have hlt : k - partLow n < 4 ↔ k < partLow n + 4 := by omega
  have hout : 4 ≤ k - partLow n → v.getLsbD (k - partLow n) = false := BitVec.getLsbD_of_ge v _
  simp only [setPart, hmask, BitVec.getLsbD_or, BitVec.getLsbD_and, BitVec.getLsbD_not, BitVec.getLsbD_shiftLeft,
    BitVec.getLsbD_setWidth, BitVec.getLsbD_allOnes]
  grind

/-- A part reads back what it was set to (R112, R114). -/
theorem part_setPart (r : Word) (n : PartNo) (v : Nibble) : part (setPart r n v) n = v := by
  refine BitVec.eq_of_getLsbD_eq fun k hk => ?_
  have hlow := partLow_le n
  rw [part, BitVec.getLsbD_extractLsb', getLsbD_setPart r n v (by omega), if_pos (by omega), Nat.add_sub_cancel_left,
    decide_eq_true hk, Bool.true_and]

/-- A part set to what it holds changes nothing. -/
theorem setPart_part (r : Word) (n : PartNo) : setPart r n (part r n) = r := by
  refine BitVec.eq_of_getLsbD_eq fun k hk => ?_
  rw [getLsbD_setPart r n _ hk]
  split
  next hin =>
    obtain ⟨hlow, hhigh⟩ := hin
    rw [part, BitVec.getLsbD_extractLsb', Nat.add_sub_cancel' hlow, decide_eq_true (by omega), Bool.true_and]
  next => rfl

/-! ### The pointer modes (R90 to R92) -/

/-- A register set to what it holds changes nothing. -/
theorem setReg_reg (s : State) (r : Reg) : s.setReg r (s.reg r) = s := by
  cases r <;> rfl

/-- Under both instances the pointer is the address, the access takes the whole word, and the part of XH is kept
(D5). -/
theorem ptrAccess_of_not_platform {s : State} (h : s.params.ptrMode ≠ .platform) (sp : Space) (p : Ptr) :
    ptrAccess s sp p = ⟨s.reg (ptrReg p), none,
      if s.params.ptrMode = .plain then s.reg (ptrReg p) else s.reg (ptrReg p) + 1, part s.xh (ptrPart p)⟩ := by
  unfold ptrAccess
  cases hm : s.params.ptrMode with
  | plain => rfl
  | postInc1 => rfl
  | platform => exact absurd hm h

/-- Phase 4 of a pointer mode gives the pointer and its part of XH what `PTRMODE` answers (R92). -/
theorem afterPost_ptr (s : State) (p : Ptr) :
    afterPost (.ptr p) s = { s.setReg (ptrReg p) (ptrAccess s .data p).ptr' with
      xh := setPart s.xh (ptrPart p) (ptrAccess s .data p).part' } := rfl

theorem afterPost_ptr_reg (s : State) (p : Ptr) :
    (afterPost (.ptr p) s).reg (ptrReg p) = (ptrAccess s .data p).ptr' := by
  rw [afterPost_ptr]
  exact (reg_setReg s (ptrReg p) (ptrReg p) _).trans (if_pos rfl)

theorem afterPost_stackPtr (s : State) (p : Ptr) :
    afterPost (.stackPtr p) s = { s.setReg (ptrReg p) (ptrAccess s .stack p).ptr' with
      xh := setPart s.xh (ptrPart p) (ptrAccess s .stack p).part' } := rfl

/-- Phase 4 of both pointer modes under the two instances: the pointer alone changes. -/
theorem afterPost_of_not_platform {s : State} (h : s.params.ptrMode ≠ .platform) {a : Adr} {p : Ptr}
    (ha : PointerMode a p) : afterPost a s = s.setReg (ptrReg p)
      (if s.params.ptrMode = .plain then s.reg (ptrReg p) else s.reg (ptrReg p) + 1) := by
  rcases ha with rfl | rfl
  · rw [afterPost_ptr, ptrAccess_of_not_platform h, setPart_part]
    rfl
  · rw [afterPost_stackPtr, ptrAccess_of_not_platform h, setPart_part]
    rfl

/-- Settles O57: both instances by what `PTRMODE` answers under them. -/
theorem pointerModeInstances : Obligations.PointerModeInstances := by
  refine fun s p a ha => ⟨fun h => ?_, fun h => ?_, fun h => ?_⟩
  · rcases ha with rfl | rfl <;> simp [operand, resolve, ptrAccess_of_not_platform h]
  · rw [afterPost_of_not_platform (by simp [h]) ha, if_pos h, setReg_reg]
  · rw [afterPost_of_not_platform (by simp [h]) ha, if_neg (by simp [h])]

/-! ### Clashes of the phases 4 to 6 (R81, R97) -/

theorem operand_ptr_loc (s : State) (p : Ptr) :
    (operand (.ptr p) s).loc = .mem .data (ptrAccess s .data p).addr (ptrAccess s .data p).field := rfl

/-- The carry value of a sum tells whether it reaches 2^16 (R130, R141). -/
theorem aluAdd_carry (dv v cin : Word) :
    (aluAdd dv v cin).carry = if dv.toNat + v.toNat < 65536 then 0 else 1 := by
  have hsum : (dv.toNat + v.toNat) >>> 16 = if dv.toNat + v.toNat < 65536 then 0 else 1 := by
    rw [Nat.shiftRight_eq_div_pow]
    split <;> omega
  simp only [aluAdd, splitLow, hsum]
  split <;> rfl

/-- Settles O58: what each of the four instructions writes, and that phase 4 comes before it. -/
theorem clashesFavourTheLaterPhase : Obligations.ClashesFavourTheLaterPhase := by
  refine fun s p hu => ⟨?load, ?store, ?carry, ?part⟩
  case load =>
    obtain ⟨t, ht, hl⟩ := loadRx_writes (f := fun v => v) (.movRxAdr (ptrReg p) (.ptr p)) rfl hu
    exact ⟨t, ht, by simp [hl.regs, regAfter]⟩
  case store =>
    obtain ⟨t, ht, hl⟩ := storeAdr_writes (v := s.reg (ptrReg p)) (.movAdrRx (.ptr p) (ptrReg p)) rfl hu
    refine ⟨t, ht, ?_, fun hfield hram => ?_⟩
    · exact (hl.regs (ptrReg p)).trans (afterPost_ptr_reg s p)
    · rw [hl.mem, operand_ptr_loc, hfield]
      exact if_pos ⟨rfl, rfl, hram⟩
  case carry =>
    obtain ⟨t, ht, hl⟩ := opRx_writes (f := aluAdd) (c := true) (r := .c) (.addCRxAdr .c (.ptr p)) rfl hu
    refine ⟨t, ht, (hl.regs .c).trans ?_⟩
    exact aluAdd_carry s.carry _ _
  case part =>
    obtain ⟨t, ht, hl⟩ := loadSpecial_writes (.movXhnAdr (ptrPart p) (.ptr p)) (rfl : _ = loadSpecial
      (fun t v => { t with xh := setPart t.xh (ptrPart p) (v.extractLsb' 0 4) }) (.ptr p) s) hu rfl
    exact ⟨t, ht, by rw [hl.xh, part_setPart]⟩

/-! ### What no operand looks at: the program counter, the mode and the supervisor stack -/

/-- The state with another program counter, mode and supervisor stack. -/
def State.withControl (s : State) (pc : Word) (m : Mode) (args : List Word) : State :=
  { s with pc := pc, mode := m, supStack := args }

theorem setPc_eq_withControl (s : State) (v : Word) : s.setPc v = s.withControl (s.toPc v) s.mode s.supStack := rfl

theorem enterSupervisor_eq_withControl (s : State) (args : List Word) :
    s.enterSupervisor args = s.withControl (s.toPc (s.pc + 1)) .supervisor args := rfl

section WithControl
variable (s : State) (pc : Word) (m : Mode) (args : List Word)

theorem resolve_withControl (p : Adr) (bp : Word) : resolve p bp (s.withControl pc m args) = resolve p bp s := by
  cases p <;> rfl

theorem usable_withControl (o : Operand) : o.usable (s.withControl pc m args) = o.usable s := rfl

theorem read_withControl (o : Operand) : o.read (s.withControl pc m args) = o.read s := rfl

theorem isDevice_withControl (sp : Space) (a : Word) : (s.withControl pc m args).isDevice sp a = s.isDevice sp a := rfl

theorem afterLoad_withControl (sp : Space) (a : Word) :
    (s.withControl pc m args).afterLoad sp a = (s.afterLoad sp a).withControl pc m args := by
  unfold State.afterLoad
  rw [isDevice_withControl]
  split <;> rfl

theorem afterRead_withControl (o : Operand) :
    o.afterRead (s.withControl pc m args) = (o.afterRead s).withControl pc m args := by
  unfold Operand.afterRead
  split
  · rfl
  · rfl
  · exact afterLoad_withControl s pc m args _ _

theorem postInc_withControl (o : Operand) :
    o.postInc (s.withControl pc m args) = (o.postInc s).withControl pc m args := by
  unfold Operand.postInc
  split <;> rfl

theorem pushedParam_withControl (bp : Word) (p : Adr) :
    pushedParam bp p (s.withControl pc m args) = (pushedParam bp p s).withControl pc m args := by
  simp only [pushedParam, resolve_withControl, afterRead_withControl, postInc_withControl, read_withControl]
  rfl

end WithControl

/-! ### One parameter more (R185, R186, R189) -/

/-- The state a parameter leaves is a push of its value (R186). -/
theorem pushedParam_eq_pushed (bp : Word) (p : Adr) (s : State) :
    pushedParam bp p s =
      pushed ((resolve p bp s).postInc ((resolve p bp s).afterRead s)) ((resolve p bp s).read s) := by
  simp only [pushedParam, pushed, evaluated_tos, postInc_sp, afterRead_sp]

/-- A parameter that can be read and pushed leaves its state. -/
theorem pushParams_singleton {p : Adr} {bp : Word} {s : State} (hu : (resolve p bp s).usable s = true)
    (hm : s.isMapped .stack s.tos = true) : pushParams [p] bp s = .next (pushedParam bp p s) := by
  rw [pushParams_cons_mapped [] hu hm, pushedParam_eq_pushed]
  rfl

/-- It makes no difference to a parameter whether the jump of the call is made before or after it. -/
theorem pushedParam_setPc (bp : Word) (p : Adr) (s : State) (v : Word) :
    pushedParam bp p (s.setPc v) = (pushedParam bp p s).setPc v := by
  rw [setPc_eq_withControl, pushedParam_withControl, setPc_eq_withControl,
    toPc_congr s (pushedParam bp p s) (by simp [pushedParam])]
  simp [pushedParam]

/-- A call completes where its operand and its frame exist and its parameters are pushed: with `callInstr_next`, all a
call can do (R186, R187). -/
theorem exec_callInstr_of_pushParams {b : Bool} {a : Adr} {ps : List Adr} {s v : State} (hu : Usable a s)
    (h1 : s.isMapped .stack s.tos = true) (h2 : s.isMapped .stack (s.tos + 1) = true)
    (hv : pushParams ps s.bp (framed (afterReads a s) (nextPc s a 0)) = .next v) :
    exec (callInstr b a ps) s = .next (v.setPc (callTarget b a s)) := by
  obtain ⟨g, hg⟩ := exec_callInstr b a s
  have hnext : exec (callInstr b a ps) s = .next (v.setPc (g (operandValue a s))) := by
    rw [hg, callTo_mapped g ps hu h1 h2, hv, thenNext_of_next]
  obtain ⟨-, -, -, u, hu', ht⟩ := callInstr_next hnext
  obtain rfl : u = v := Host.Outcome.next.inj (hu'.symm.trans hv)
  rw [hnext, ht]

/-- Settles O49: the shorter call's parameters are pushed, the last one after them, and the jump commutes with it. -/
theorem callPushesEachParameter : Obligations.CallPushesEachParameter := by
  intro s u b a p ps _ h husable hmapped
  obtain ⟨hu, h1, h2, v, hv, rfl⟩ := callInstr_next h
  have hlast : pushParams [p] s.bp v = .next (pushedParam s.bp p v) := by
    refine pushParams_singleton ?_ hmapped
    rwa [resolve_setPc] at husable
  rw [exec_callInstr_of_pushParams hu h1 h2 ((pushParams_append [p] hv).trans hlast), pushedParam_setPc]

/-- A parameter of a supervisor call that can be read leaves its state and its value. -/
theorem collectArgs_singleton {p : Adr} {bp : Word} {s : State} (hu : (resolve p bp s).usable s = true) :
    collectArgs [p] bp s =
      .next ((resolve p bp s).postInc ((resolve p bp s).afterRead s), [(resolve p bp s).read s]) := by
  rw [collectArgs, onOperand_usable _ _ _ _ hu]
  rfl

/-- One parameter more is evaluated after those before it, its value last on the supervisor stack (R189, D25). -/
theorem supervisorCall_append_singleton {ps : List Adr} {p : Adr} {s u : State} (h : supervisorCall ps s = .next u)
    (hu : (resolve p s.bp u).usable u = true) :
    supervisorCall (ps ++ [p]) s = .next { (resolve p s.bp u).postInc ((resolve p s.bp u).afterRead u) with
      supStack := u.supStack ++ [(resolve p s.bp u).read u] } := by
  obtain ⟨⟨v, args⟩, hv, rfl⟩ := supervisorCall_next h
  rw [enterSupervisor_eq_withControl, resolve_withControl, usable_withControl] at hu
  rw [supervisorCall, collectArgs_append [p] hv, collectArgs_singleton hu, enterSupervisor_eq_withControl]
  simp only [thenNext_of_next, resolve_withControl, afterRead_withControl, postInc_withControl, read_withControl,
    enterSupervisor_eq_withControl, postInc_pc, afterRead_pc,
    toPc_congr v _ ((postInc_params _ _).trans (afterRead_params _ v))]
  rfl

/-- A call word of JSV with `e` = 1 takes no parameter, whatever its six low bits (R56, R185, D24). -/
theorem decode_jsv_nil (x : BitVec 6) (rest : List Word) :
    decode ((0b1000100011#10 ++ x) :: rest) = .ok (.jsv [], rest) := by
  have hrow : findRow (0b1000100011#10 ++ x) = some ⟨0xFF80, 0x8880, .sysCall fun ps => .jsv ps⟩ :=
    (findRow_append 0b1000100011#10 x).trans rfl
  have he : eField (0b1000100011#10 ++ x) = true := eField_append 0b100010001#9 true x
  simp only [decode, hrow, RowBuild.finish, he, decodeParamList]

/-- The state handed to the kernel has a code address in `pc`. -/
theorem supervisorCall_toPc {ps : List Adr} {s u : State} (h : supervisorCall ps s = .next u) : u.toPc u.pc = u.pc := by
  obtain ⟨-, hpc, -, -, -, -, -, -, -, hparams⟩ := supervisorCall_frame h
  rw [toPc_congr s u hparams, hpc, toPc_toPc]

/-- Settles O53: the word of JSV, its parameters one by one, its frame, and the kernel's reply. -/
theorem supervisorCallCollectsParameters : Obligations.SupervisorCallCollectsParameters := by
  refine ⟨decode_jsv_nil, fun s => rfl, fun s u p ps _ => supervisorCall_append_singleton, fun s ps hs => ?frame,
    fun s u ps h => ⟨?reply, fun hk => ?resumes⟩⟩
  case frame =>
    obtain ⟨u, hu⟩ := supervisorCall_mapped ps s hs
    obtain ⟨hlen, hpc, hxm, hsp, hbp, hmode, hdata, hstack, hcode, hparams⟩ := supervisorCall_frame hu
    exact ⟨u, hu, hmode, hpc, hlen, hxm, hsp, hbp, hdata, hstack, hcode, hparams⟩
  case reply => exact (exec_jsv_of_supervisorCall h).trans rfl
  case resumes =>
    obtain ⟨-, -, -, -, -, -, -, -, -, hparams⟩ := supervisorCall_frame h
    rw [exec_jsv_of_supervisorCall h, kernelOutcome_resumesAtOnce u (hparams ▸ hk), supervisorCall_toPc h]

end Sys2Proof.Machine
end

section
/-! PROOFS. The data movement instructions (`41_move.md`): their words, the parts of XM and XH, and the exchange. -/

namespace Sys2Proof.Machine

/-! ### MOV rx, adr and MOV adr, rx (R110, R111) -/

/-- Settles O25: the two rows of the table, and the effects of a load into a register and of a store. -/
theorem movMovesRegisterAndOperand : Obligations.MovMovesRegisterAndOperand := by
  refine ⟨fun r a => ⟨?_, ?_⟩, fun s r a hu => ⟨?_, ?_⟩⟩
  · exact decode_encodeWith_rx (mk := .movRxAdr) rfl r a
  · exact decode_encodeWith_rx (mk := fun r a => .movAdrRx a r) rfl r a
  · exact loadRx_writes (f := fun v => v) _ rfl hu
  · exact storeAdr_writes _ rfl hu

/-! ### MOV to and from the parts of XM and XH (R112 to R115) -/

/-- The four bits of two different parts have none in common (R20). -/
theorem partLow_disjoint {m n : PartNo} (h : m ≠ n) : partLow m + 4 ≤ partLow n ∨ partLow n + 4 ≤ partLow m := by
  revert h
  cases m <;> cases n <;> decide

/-- Setting a part keeps the other three (R112, R114). -/
theorem part_setPart_of_ne (r : Word) {m n : PartNo} (v : Nibble) (h : m ≠ n) :
    part (setPart r n v) m = part r m := by
  refine BitVec.eq_of_getLsbD_eq fun k hk => ?_
  have hlow := partLow_le m
  have hout : ¬ (partLow n ≤ partLow m + k ∧ partLow m + k < partLow n + 4) := by
    have := partLow_disjoint h
    omega
  rw [part, part, BitVec.getLsbD_extractLsb', BitVec.getLsbD_extractLsb', getLsbD_setPart r n v (by omega), if_neg hout]

/-- Every part after one is set. -/
theorem part_setPart_eq_ite (r : Word) (n : PartNo) (v : Nibble) (m : PartNo) :
    part (setPart r n v) m = if m = n then v else part r m := by
  split
  next h => rw [h, part_setPart]
  next h => exact part_setPart_of_ne r v h

/-- A part stored to an operand stands in its low four bits, the others zero (R113, R115). -/
theorem toNat_zeroExtend_part (r : Word) (n : PartNo) : ((part r n).zeroExtend 16).toNat = (part r n).toNat :=
  BitVec.toNat_setWidth_of_le (by decide)

/-- Settles O26: the four rows of format NA, a load of a special register that sets one part, and a store of a part. -/
theorem movMovesPointerParts : Obligations.MovMovesPointerParts := by
  refine ⟨fun n a => ⟨?_, ?_, ?_, ?_⟩, fun s n a hu => ⟨?toXm, ?toXh, ?fromXm, ?fromXh⟩⟩
  · exact decode_encodeWith_part (mk := .movXmnAdr) rfl n a
  · exact decode_encodeWith_part (mk := .movAdrXmn) rfl n a
  · exact decode_encodeWith_part (mk := .movXhnAdr) rfl n a
  · exact decode_encodeWith_part (mk := .movAdrXhn) rfl n a
  case toXm =>
    refine ⟨setPart s.xm n _, part_setPart_eq_ite s.xm n _, ?_⟩
    exact loadSpecial_writes (put := fun t v => { t with xm := setPart t.xm n (v.extractLsb' 0 4) }) _ rfl hu (by simp)
  case toXh =>
    refine ⟨setPart (afterPost a s).xh n _, part_setPart_eq_ite (afterPost a s).xh n _, ?_⟩
    exact loadSpecial_writes (put := fun t v => { t with xh := setPart t.xh n (v.extractLsb' 0 4) }) _ rfl hu (by simp)
  case fromXm => exact ⟨_, toNat_zeroExtend_part s.xm n, storeAdr_writes _ rfl hu⟩
  case fromXh => exact ⟨_, toNat_zeroExtend_part s.xh n, storeAdr_writes _ rfl hu⟩

/-! ### MOV to and from XM and XH, whole (R116 to R119) -/

/-- The ignored bit 8 leaves the rows of the four forms as they are (R64). -/
theorem findRow_movXmXh : ∀ x : BitVec 1,
    findRow ((0b1000001#7 ++ x ++ 0b00#2 : BitVec 10) ++ 0#6) =
      some ⟨0xFEC0, 0x8200, .adr fun _ a => .movXMAdr a⟩ ∧
    findRow ((0b1000000#7 ++ x ++ 0b00#2 : BitVec 10) ++ 0#6) =
      some ⟨0xFEC0, 0x8000, .adr fun _ a => .movAdrXM a⟩ ∧
    findRow ((0b1000001#7 ++ x ++ 0b01#2 : BitVec 10) ++ 0#6) =
      some ⟨0xFEC0, 0x8240, .adr fun _ a => .movXHAdr a⟩ ∧
    findRow ((0b1000000#7 ++ x ++ 0b01#2 : BitVec 10) ++ 0#6) =
      some ⟨0xFEC0, 0x8040, .adr fun _ a => .movAdrXH a⟩ := by
  have bit : ∀ x : BitVec 1, x = 0 ∨ x = 1 := by decide
  intro x
  rcases bit x with rfl | rfl <;> exact ⟨rfl, rfl, rfl, rfl⟩

/-- Settles O27: the four rows for either value of bit 8, and the loads and stores of a whole special register. -/
theorem movMovesWholeXmAndXh : Obligations.MovMovesWholeXmAndXh := by
  refine ⟨fun x a => ?words, fun s a hu => ⟨?toXm, ?toXh, ?fromXm, ?fromXh⟩⟩
  case words =>
    obtain ⟨htoXm, hfromXm, htoXh, hfromXh⟩ := findRow_movXmXh x
    exact ⟨decode_encodeWith_fixed htoXm a, decode_encodeWith_fixed hfromXm a, decode_encodeWith_fixed htoXh a,
      decode_encodeWith_fixed hfromXh a⟩
  case toXm => exact loadSpecial_writes (put := fun t v => { t with xm := v }) _ rfl hu (by simp)
  case toXh => exact loadSpecial_writes (put := fun t v => { t with xh := v }) _ rfl hu (by simp)
  case fromXm => exact storeAdr_writes _ rfl hu
  case fromXh => exact storeAdr_writes _ rfl hu

/-! ### XCH (R122, R123) -/

/-- An exchange leaves the old register value in the operand, which comes last, and the old operand value in the
register. -/
theorem exchange_leaves {r : Reg} {a : Adr} {s : State} (h : Usable a s) :
    ∃ t, exchange r a s = .next t ∧
      Leaves s t
        (fun q => if locReg (operand a s).loc = some q then s.reg r
          else if q = r then operandValue a s else (afterPost a s).reg q)
        s.xm (afterPost a s).xh s.sp s.bp (wordAfter s (operand a s).loc (s.reg r))
        (writeLog s (operand a s).loc (s.reg r) (readLog s (operand a s).loc)) (nextPc s a 0) := by
  obtain ⟨hm, hd⟩ := write_frame a (s.reg r) s ((afterReads a s).setReg r (operandValue a s)) (by simp) (by simp)
  refine ⟨_, exchange_usable r a s h, leaves_advance _ 0 rfl ?_ ?_ ?_ ?_ ?_ ?_ ?_ ?_ ?_ ?_ ?_ ?_⟩
  · intro q
    simp [write_reg, eq_comm]
  all_goals simp [hm, hd]

/-- Settles O30: the two rows of the matrix, and that either form is the one exchange. -/
theorem xchExchangesOperands : Obligations.XchExchangesOperands := by
  refine ⟨fun r a => ⟨?_, ?_⟩, fun s r a hu => ?_⟩
  · exact decode_encodeWith_rx (mk := .xchRxAdr) rfl r a
  · exact decode_encodeWith_rx (mk := fun r a => .xchAdrRx a r) rfl r a
  · obtain ⟨t, ht, hl⟩ := exchange_leaves (r := r) hu
    exact ⟨t, ht, ht, hl⟩

section Immediate
variable {a : Adr} {s : State} {v : Word}

theorem usable_of_imm (h : (operand a s).loc = .imm v) : Usable a s := by
  rw [Usable, Operand.usable, h]

theorem operandValue_of_imm (h : (operand a s).loc = .imm v) : operandValue a s = v := by
  rw [operandValue, Operand.read, h]

/-- A write to an immediate is dropped (R94). -/
theorem write_of_imm {o : Operand} (h : o.loc = .imm v) (x : Word) (t : State) : o.write x t = t := by
  rw [Operand.write, h]

/-- With an immediate only the write to the register is left of an exchange (R123). -/
theorem exchange_of_imm (h : (operand a s).loc = .imm v) (r : Reg) :
    exchange r a s = loadRx (fun v => v) r a s := by
  rw [exchange_usable r a s (usable_of_imm h), loadRx_usable _ r a s (usable_of_imm h), write_of_imm h]

end Immediate

/-- Settles O31: with an immediate either form of XCH is the load that MOV rx, adr is. -/
theorem xchWithImmediateIsMov : Obligations.XchWithImmediateIsMov := by
  intro s r a v himm
  have hxch : exchange r a s = loadRx (fun v => v) r a s := exchange_of_imm himm r
  have hwrites : ∀ i, exec i s = exchange r a s → WritesRegister i s a r v none := fun i hi => by
    simpa only [operandValue_of_imm himm] using loadRx_writes i (hi.trans hxch) (usable_of_imm himm)
  exact ⟨hwrites _ rfl, hwrites _ rfl, hxch, hxch⟩

end Sys2Proof.Machine
end

section
/-! PROOFS. The arithmetic instructions (`42_arithmetic.md`): the exact values behind a result and its carry value, the
forms of an operation over any row of the table, and two operations chained through C. -/

namespace Sys2Proof.Machine

/-! ### The exact value of a result and its carry value (R141) -/

/-- A value below 2^32 is its two halves. -/
theorem splitLow_exact {t : Nat} (h : t < 65536 * 65536) :
    (splitLow t).result.toNat + 65536 * (splitLow t).carry.toNat = t := by
  simp only [splitLow, BitVec.toNat_ofNat, Nat.shiftRight_eq_div_pow]
  omega

/-- What a difference tells: itself where it does not borrow, else itself plus 2^16 and the borrow (R133, R135). -/
def BorrowsTo (t : Int) (v cv : Word) : Prop :=
  (cv = 0 ∧ (v.toNat : Int) = t) ∨ (cv = 0xFFFF ∧ (v.toNat : Int) = t + 65536)

/-- A difference from -2^16 to below 2^16 borrows at most once. -/
theorem splitBorrow_exact {t : Int} (hlo : -65536 ≤ t) (hhi : t < 65536) :
    BorrowsTo t (splitBorrow t).result (splitBorrow t).carry := by
  have hresult : ((splitBorrow t).result.toNat : Int) = t % 65536 := by
    simp only [splitBorrow, BitVec.toNat_ofInt]
    omega
  by_cases hneg : t < 0
  · exact .inr ⟨if_pos hneg, by omega⟩
  · exact .inl ⟨if_neg hneg, by omega⟩

/-- Bit 0 of the borrow value counts the 2^16 that a difference borrowed (R135, R141). -/
theorem BorrowsTo.borrowed {t : Int} {v cv : Word} (h : BorrowsTo t v cv) :
    (v.toNat : Int) = t + 65536 * (cv.toNat % 2 : Nat) := by
  rcases h with ⟨rfl, hv⟩ | ⟨rfl, hv⟩
  · exact hv.trans (add_zero t).symm
  · exact hv

section Operations
variable (dv x cin : Word)

theorem aluAdd_exact :
    (aluAdd dv x cin).result.toNat + 65536 * (aluAdd dv x cin).carry.toNat = dv.toNat + x.toNat :=
  splitLow_exact (by omega)

theorem aluAdc_exact :
    (aluAdc dv x cin).result.toNat + 65536 * (aluAdc dv x cin).carry.toNat =
      dv.toNat + x.toNat + cin.toNat % 2 :=
  splitLow_exact (by omega)

theorem aluSub_exact :
    BorrowsTo (dv.toNat - x.toNat) (aluSub dv x cin).result (aluSub dv x cin).carry :=
  splitBorrow_exact (by omega) (by omega)

theorem aluSbc_exact :
    BorrowsTo (dv.toNat - x.toNat - (cin.toNat % 2 : Nat)) (aluSbc dv x cin).result (aluSbc dv x cin).carry :=
  splitBorrow_exact (by omega) (by omega)

/-- A product of two words leaves room for a third word added to it (R138). -/
theorem toNat_mul_toNat_add_lt : dv.toNat * x.toNat + cin.toNat < 65536 * 65536 := by
  have hprod : dv.toNat * x.toNat ≤ 65535 * 65535 := Nat.mul_le_mul (by omega) (by omega)
  omega

theorem aluMul_exact :
    (aluMul dv x cin).result.toNat + 65536 * (aluMul dv x cin).carry.toNat = dv.toNat * x.toNat :=
  splitLow_exact ((Nat.le_add_right _ _).trans_lt (toNat_mul_toNat_add_lt dv x cin))

theorem aluMac_exact :
    (aluMac dv x cin).result.toNat + 65536 * (aluMac dv x cin).carry.toNat =
      dv.toNat * x.toNat + cin.toNat :=
  splitLow_exact (toNat_mul_toNat_add_lt dv x cin)

/-- Division by zero zeroes both words (R143). -/
theorem aluDiv_zero : aluDiv dv 0 cin = ⟨0, 0⟩ := rfl

/-- Quotient and remainder of a divisor that is not zero (R139). -/
theorem aluDiv_exact {x : Word} (hx : x ≠ 0) :
    dv.toNat = (aluDiv dv x cin).result.toNat * x.toNat + (aluDiv dv x cin).carry.toNat ∧
      (aluDiv dv x cin).carry.toNat < x.toNat := by
  have hdivisor : 0 < x.toNat := Nat.pos_of_ne_zero fun h => hx (BitVec.eq_of_toNat_eq h)
  have hquot : (aluDiv dv x cin).result.toNat = dv.toNat / x.toNat := by
    simp only [aluDiv, if_neg hx, BitVec.toNat_ofNat]
    exact Nat.mod_eq_of_lt ((Nat.div_le_self _ _).trans_lt dv.isLt)
  have hrem : (aluDiv dv x cin).carry.toNat = dv.toNat % x.toNat := by
    simp only [aluDiv, if_neg hx, BitVec.toNat_ofNat]
    exact Nat.mod_eq_of_lt ((Nat.mod_le _ _).trans_lt dv.isLt)
  rw [hquot, hrem]
  exact ⟨(Nat.div_add_mod' _ _).symm, Nat.mod_lt _ hdivisor⟩

end Operations

/-- NOT complements every bit (R153). -/
theorem aluNot_exact (x : Word) : (aluNot x).toNat + x.toNat = 0xFFFF := by
  have hnot : aluNot x = ~~~x := BitVec.xor_allOnes
  rw [hnot, BitVec.toNat_not]
  omega

/-- NEG is the negative modulo 2^16 (R140). -/
theorem aluNeg_exact (x : Word) : ((aluNeg x).toNat + x.toNat) % 65536 = 0 := by
  simp only [aluNeg, BitVec.toNat_ofInt]
  omega

/-! ### The forms of an operation, row by row (R52, R95, R96) -/

/-- The seven high bits `x` of a first word select a row of format RA, which builds `mk` (R52, R65). -/
def SelectsRow (x : BitVec 7) (mk : Reg → Adr → Instr) : Prop :=
  ∃ p, findRow ((x ++ 0#3 : BitVec 10) ++ 0#6) = some ⟨0xFE00, p, .adr fun w a => mk (rxField w) a⟩

theorem SelectsRow.formReads {x : BitVec 7} {mk : Reg → Adr → Instr} (h : SelectsRow x mk) (r : Reg) (a : Adr) :
    FormReads (x ++ r.bits) a (mk r a) := by
  obtain ⟨p, hp⟩ := h
  exact decode_encodeWith_rx hp r a

/-- The four rows of an operation with a carry write: class 00 without it, class 01 with it. -/
structure FourRows (row : BitVec 4) (rx : Reg → Adr → Instr) (ad : Adr → Reg → Instr) (rxC : Reg → Adr → Instr)
    (adC : Adr → Reg → Instr) : Prop where
  rx : SelectsRow (0b00#2 ++ row ++ 1#1) rx
  ad : SelectsRow (0b00#2 ++ row ++ 0#1) fun r a => ad a r
  rxC : SelectsRow (0b01#2 ++ row ++ 1#1) rxC
  adC : SelectsRow (0b01#2 ++ row ++ 0#1) fun r a => adC a r

/-- The four instructions are the one operation `f`, by destination and by whether they write C. -/
structure FourMeanings (f : Word → Word → Word → AluOut) (rx : Reg → Adr → Instr) (ad : Adr → Reg → Instr)
    (rxC : Reg → Adr → Instr) (adC : Adr → Reg → Instr) : Prop where
  rx : ∀ r a s, exec (rx r a) s = opRx f false r a s
  ad : ∀ r a s, exec (ad a r) s = opAdr f false a r s
  rxC : ∀ r a s, exec (rxC r a) s = opRx f true r a s
  adC : ∀ r a s, exec (adC a r) s = opAdr f true a r s

section Forms
variable {row : BitVec 4} {rx rxC : Reg → Adr → Instr} {ad adC : Adr → Reg → Instr}

/-- All four forms of an operation compute what the operation does. -/
theorem fourForms_of_operation {f : Word → Word → Word → AluOut} {P : Computes} (hrows : FourRows row rx ad rxC adC)
    (hmeans : FourMeanings f rx ad rxC adC) (hP : ∀ dv x cin, P dv x cin (f dv x cin).result (f dv x cin).carry) :
    FourForms row rx ad rxC adC P := by
  refine ⟨fun r a => ⟨?_, ?_, ?_, ?_⟩, fun s r a hu => ⟨⟨_, _, hP _ _ _, ?_, ?_⟩, _, _, hP _ _ _, ?_, ?_⟩⟩
  · exact hrows.rx.formReads r a
  · exact hrows.ad.formReads r a
  · exact hrows.rxC.formReads r a
  · exact hrows.adC.formReads r a
  · exact opRx_writes _ (hmeans.rx r a s) hu
  · exact opRx_writes _ (hmeans.rxC r a s) hu
  · exact opAdr_writes _ (hmeans.ad r a s) hu
  · exact opAdr_writes _ (hmeans.adC r a s) hu

/-- Both forms of an operation on the source alone compute what the operation does. -/
theorem twoForms_of_source {cls : BitVec 2} {f : Word → Word} {P : Word → Word → Word → Prop}
    (hrx : SelectsRow (cls ++ row ++ 1#1) rx) (had : SelectsRow (cls ++ row ++ 0#1) fun r a => ad a r)
    (hload : ∀ r a s, exec (rx r a) s = loadRx f r a s) (hstore : ∀ r a s, exec (ad a r) s = storeAdr (f (s.reg r)) a s)
    (hP : ∀ dv x, P dv x (f x)) : TwoForms false cls row rx ad P := by
  refine ⟨fun r a => ⟨hrx.formReads r a, had.formReads r a⟩, fun s r a hu => ⟨⟨_, hP _ _, ?_⟩, _, hP _ _, ?_⟩⟩
  · exact loadRx_writes _ (hload r a s) hu
  · exact storeAdr_writes _ (hstore r a s) hu

end Forms

/-! ### ADD SP and SUB SP (R131, R134) -/

theorem exists_reg_bits : ∀ x : BitVec 3, ∃ r : Reg, r.bits = x := fun x => ⟨Reg.ofBits x, by revert x; decide⟩

/-- Settles O29: the rows ignore their `rx` field, and SP is loaded with a sum or a difference modulo 2^16. -/
theorem stackPointerAddsAndSubtracts : Obligations.StackPointerAddsAndSubtracts := by
  refine ⟨fun x a => ?words, fun s a hu => ⟨⟨s.sp + operandValue a s, ?_, ?add⟩, s.sp - operandValue a s, ?_, ?sub⟩⟩
  case words =>
    obtain ⟨r, rfl⟩ := exists_reg_bits x
    exact ⟨decode_encodeWith_rx (mk := fun _ a => .addSpAdr a) rfl r a,
      decode_encodeWith_rx (mk := fun _ a => .subSpAdr a) rfl r a⟩
  · exact BitVec.toNat_add _ _
  case add => exact loadSpecial_writes (put := fun t v => { t with sp := t.sp + v }) _ rfl hu (by simp)
  · rw [← BitVec.toNat_add, BitVec.sub_add_cancel]
  case sub => exact loadSpecial_writes (put := fun t v => { t with sp := t.sp - v }) _ rfl hu (by simp)

/-! ### The operations with a carry write (R130 to R139) -/

/-- Settles O32: the exact sums behind ADD and ADC, in all their forms. -/
theorem addAndAdcSum : Obligations.AddAndAdcSum := by
  refine ⟨fourForms_of_operation (f := aluAdd) ?addRows ?add aluAdd_exact,
    fourForms_of_operation (f := aluAdc) ?adcRows ?adc aluAdc_exact⟩
  case addRows | adcRows => exact ⟨⟨_, rfl⟩, ⟨_, rfl⟩, ⟨_, rfl⟩, ⟨_, rfl⟩⟩
  case add | adc => exact ⟨fun _ _ _ => rfl, fun _ _ _ => rfl, fun _ _ _ => rfl, fun _ _ _ => rfl⟩

/-- Settles O33: the exact differences behind SUB and SBC, in all their forms. -/
theorem subAndSbcDifference : Obligations.SubAndSbcDifference := by
  refine ⟨fourForms_of_operation (f := aluSub) ?subRows ?sub fun dv x cin => ?subExact,
    fourForms_of_operation (f := aluSbc) ?sbcRows ?sbc fun dv x cin => ?sbcExact⟩
  case subRows | sbcRows => exact ⟨⟨_, rfl⟩, ⟨_, rfl⟩, ⟨_, rfl⟩, ⟨_, rfl⟩⟩
  case sub | sbc => exact ⟨fun _ _ _ => rfl, fun _ _ _ => rfl, fun _ _ _ => rfl, fun _ _ _ => rfl⟩
  case subExact => exact (aluSub_exact dv x cin).imp (And.imp_right (by omega)) (And.imp_right (by omega))
  case sbcExact => exact (aluSbc_exact dv x cin).imp (And.imp_right (by omega)) (And.imp_right (by omega))

/-- Settles O34: the exact products behind MUL and MAC, in all their forms. -/
theorem mulAndMacProduct : Obligations.MulAndMacProduct := by
  refine ⟨fourForms_of_operation (f := aluMul) ?mulRows ?mul aluMul_exact,
    fourForms_of_operation (f := aluMac) ?macRows ?mac aluMac_exact⟩
  case mulRows | macRows => exact ⟨⟨_, rfl⟩, ⟨_, rfl⟩, ⟨_, rfl⟩, ⟨_, rfl⟩⟩
  case mul | mac => exact ⟨fun _ _ _ => rfl, fun _ _ _ => rfl, fun _ _ _ => rfl, fun _ _ _ => rfl⟩

/-- Settles O35: quotient and remainder in all the forms of DIV, by whether the divisor is zero. -/
theorem divQuotientAndRemainder : Obligations.DivQuotientAndRemainder := by
  refine fourForms_of_operation (f := aluDiv) ?rows ?meanings fun dv x cin => ?value
  case rows => exact ⟨⟨_, rfl⟩, ⟨_, rfl⟩, ⟨_, rfl⟩, ⟨_, rfl⟩⟩
  case meanings => exact ⟨fun _ _ _ => rfl, fun _ _ _ => rfl, fun _ _ _ => rfl, fun _ _ _ => rfl⟩
  case value =>
    rcases eq_or_ne x 0 with rfl | hx
    · rw [aluDiv_zero]
      exact .inl ⟨rfl, rfl, rfl⟩
    · exact .inr ⟨hx, aluDiv_exact dv cin hx⟩

/-! ### NOT and NEG (R140, R153) -/

/-- Settles O36: NOT and NEG in both their forms, the old destination no input. -/
theorem notAndNegOfTheSource : Obligations.NotAndNegOfTheSource := by
  refine ⟨twoForms_of_source (f := aluNot) ⟨_, rfl⟩ ⟨_, rfl⟩ (fun _ _ _ => rfl) (fun _ _ _ => rfl) ?not,
    twoForms_of_source (f := aluNeg) ⟨_, rfl⟩ ⟨_, rfl⟩ (fun _ _ _ => rfl) (fun _ _ _ => rfl) ?neg⟩
  case not => exact fun _ x => aluNot_exact x
  case neg => exact fun _ x => aluNeg_exact x

/-! ### Two operations chained through C (R96, R138, R141) -/

theorem operandValue_reg (q : Reg) (s : State) : operandValue (.reg q) s = s.reg q := rfl

theorem afterPost_regOperand (q : Reg) (s : State) : afterPost (.reg q) s = s := rfl

/-- What `OP C:r, x` on two registers leaves in the registers: the carry value in C, over the result in its
destination (R97). -/
theorem opRx_reg_regs {f : Word → Word → Word → AluOut} {r x : Reg} {i : Instr} {s : State}
    (hi : exec i s = opRx f true r (.reg x) s) :
    ∃ t, exec i s = .next t ∧ ∀ q, t.reg q =
      if q = .c then (f (s.reg r) (s.reg x) s.carry).carry
      else if q = r then (f (s.reg r) (s.reg x) s.carry).result else s.reg q := by
  obtain ⟨t, ht, hl⟩ := opRx_writes i hi rfl
  refine ⟨t, ht, fun q => (hl.regs q).trans ?_⟩
  simp only [regAfter, if_true, Option.some.injEq, eq_comm (a := r), operandValue_reg, afterPost_regOperand]

/-- An operation on the low words, then one on the high words: the second takes as its old C the carry value of the
first, and finds its operands as they were. -/
theorem opRx_chain {f g : Word → Word → Word → AluOut} {lo hi x y : Reg} {i j : Instr} {s : State}
    (hf : exec i s = opRx f true lo (.reg x) s) (hg : ∀ t, exec j t = opRx g true hi (.reg y) t) (hne : lo ≠ hi)
    (hlo : lo ≠ .c) (hhi : hi ≠ .c) (hyc : y ≠ .c) (hylo : y ≠ lo) {low high : AluOut}
    (hlow : f (s.reg lo) (s.reg x) s.carry = low) (hhigh : g (s.reg hi) (s.reg y) low.carry = high) :
    ∃ t u, exec i s = .next t ∧ exec j t = .next u ∧
      u.reg lo = low.result ∧ u.reg hi = high.result ∧ u.carry = high.carry := by
  subst hlow hhigh
  obtain ⟨t, ht, htreg⟩ := opRx_reg_regs hf
  obtain ⟨u, hu, hureg⟩ := opRx_reg_regs (hg t)
  have htcarry : t.carry = (f (s.reg lo) (s.reg x) s.carry).carry := (htreg .c).trans (if_pos rfl)
  have hthi : t.reg hi = s.reg hi := by rw [htreg, if_neg hhi, if_neg hne.symm]
  have hty : t.reg y = s.reg y := by rw [htreg, if_neg hyc, if_neg hylo]
  rw [hthi, hty, htcarry] at hureg
  refine ⟨t, u, ht, hu, ?_, ?_, (hureg .c).trans (if_pos rfl)⟩
  · rw [hureg, if_neg hlo, if_neg hne, htreg, if_neg hlo, if_pos rfl]
  · rw [hureg, if_neg hhi, if_pos rfl]

/-- Settles O55: the sum of the high words takes up the carry of the low ones, their difference the borrow. -/
theorem twoWordSumsThroughCarry : Obligations.TwoWordSumsThroughCarry := by
  intro s lo hi x y hne hlo hhi hyc hylo
  constructor
  · obtain ⟨t, u, ht, hu, hul, huh, huc⟩ := opRx_chain (f := aluAdd) (g := aluAdc) (i := .addCRxAdr lo (.reg x))
      (j := .adcCRxAdr hi (.reg y)) rfl (fun _ => rfl) hne hlo hhi hyc hylo rfl rfl
    refine ⟨t, u, ht, hu, ?_⟩
    have hlow := aluAdd_exact (s.reg lo) (s.reg x) s.carry
    have hhigh := aluAdc_exact (s.reg hi) (s.reg y) (aluAdd (s.reg lo) (s.reg x) s.carry).carry
    rw [hul, huh, huc]
    omega
  · obtain ⟨t, u, ht, hu, hul, huh, huc⟩ := opRx_chain (f := aluSub) (g := aluSbc) (i := .subCRxAdr lo (.reg x))
      (j := .sbcCRxAdr hi (.reg y)) rfl (fun _ => rfl) hne hlo hhi hyc hylo rfl rfl
    refine ⟨t, u, ht, hu, ?_⟩
    have hlow := (aluSub_exact (s.reg lo) (s.reg x) s.carry).borrowed
    have hhigh := aluSbc_exact (s.reg hi) (s.reg y) (aluSub (s.reg lo) (s.reg x) s.carry).carry
    rw [hul, huh, huc]
    exact hhigh.imp (And.imp_right (by omega)) (And.imp_right (by omega))

/-- Settles O56: the product of the high word takes up the high half of the product of the low word. -/
theorem twoWordProductThroughCarry : Obligations.TwoWordProductThroughCarry := by
  intro s lo hi m hne hlo hhi hmc hmlo
  obtain ⟨t, u, ht, hu, hul, huh, huc⟩ := opRx_chain (f := aluMul) (g := aluMac) (i := .mulCRxAdr lo (.reg m))
    (j := .macCRxAdr hi (.reg m)) rfl (fun _ => rfl) hne hlo hhi hmc hmlo rfl rfl
  refine ⟨t, u, ht, hu, ?_⟩
  have hlow := aluMul_exact (s.reg lo) (s.reg m) s.carry
  have hhigh := aluMac_exact (s.reg hi) (s.reg m) (aluMul (s.reg lo) (s.reg m) s.carry).carry
  rw [hul, huh, huc]
  linear_combination hlow + 65536 * hhigh

end Sys2Proof.Machine
end

section
/-! PROOFS. The logic, shift and bit instructions (`43_logic_shift_bit.md`): results bit by bit, a shifted word and the
bits moved out of it as one exact number, and two shifts chained through C. -/

namespace Sys2Proof.Machine

/-! ### AND, OR and XOR (R150 to R152) -/

/-- Both forms of an operation that has no carry write compute what the operation does. -/
theorem twoForms_of_operation {cls : BitVec 2} {row : BitVec 4} {rx : Reg → Adr → Instr} {ad : Adr → Reg → Instr}
    {f : Word → Word → Word → AluOut} {P : Word → Word → Word → Prop} (hrx : SelectsRow (cls ++ row ++ 1#1) rx)
    (had : SelectsRow (cls ++ row ++ 0#1) fun r a => ad a r) (hexecRx : ∀ r a s, exec (rx r a) s = opRx f false r a s)
    (hexecAd : ∀ r a s, exec (ad a r) s = opAdr f false a r s) (hP : ∀ dv x cin, P dv x (f dv x cin).result) :
    TwoForms true cls row rx ad P := by
  refine ⟨fun r a => ⟨hrx.formReads r a, had.formReads r a⟩, fun s r a hu =>
    ⟨⟨_, hP _ _ s.carry, ?_⟩, _, hP _ _ s.carry, ?_⟩⟩
  · exact opRx_writes _ (hexecRx r a s) hu
  · exact opAdr_writes _ (hexecAd r a s) hu

/-- Settles O37: each operation acts on the two words bit by bit. -/
theorem andOrXorBitByBit : Obligations.AndOrXorBitByBit := by
  refine ⟨twoForms_of_operation (f := aluAnd) ⟨_, rfl⟩ ⟨_, rfl⟩ (fun _ _ _ => rfl) (fun _ _ _ => rfl) ?and,
    twoForms_of_operation (f := aluOr) ⟨_, rfl⟩ ⟨_, rfl⟩ (fun _ _ _ => rfl) (fun _ _ _ => rfl) ?or,
    twoForms_of_operation (f := aluXor) ⟨_, rfl⟩ ⟨_, rfl⟩ (fun _ _ _ => rfl) (fun _ _ _ => rfl) ?xor⟩
  case and => exact fun _ _ _ _ => BitVec.getLsbD_and
  case or => exact fun _ _ _ _ => BitVec.getLsbD_or
  case xor => exact fun _ _ _ _ => BitVec.getLsbD_xor

/-! ### BTC and BTS (R159, R160) -/

theorem getLsbD_bitMask (b : Nibble) (k : Nat) : (bitMask b).getLsbD k = decide (k = b.toNat) := by
  rw [bitMask, BitVec.getLsbD_ofNat, Nat.one_shiftLeft, Nat.testBit_two_pow, Bool.eq_iff_iff]
  simp only [Bool.and_eq_true, decide_eq_true_eq]
  omega

theorem getLsbD_and_not_bitMask (v : Word) (b : Nibble) (k : Nat) :
    (v &&& ~~~(bitMask b)).getLsbD k = if k = b.toNat then false else v.getLsbD k := by
  rw [BitVec.getLsbD_and, BitVec.getLsbD_not, getLsbD_bitMask]
  rcases Nat.lt_or_ge k 16 with hk | hk
  · simp [hk, Bool.and_comm]
  · simp [BitVec.getLsbD_of_ge v k hk]

theorem getLsbD_or_bitMask (v : Word) (b : Nibble) (k : Nat) :
    (v ||| bitMask b).getLsbD k = if k = b.toNat then true else v.getLsbD k := by
  rw [BitVec.getLsbD_or, getLsbD_bitMask]
  split <;> simp [*]

/-- Settles O40: the two rows of format IA, and modifications in place that change the one bit. -/
theorem bitsClearedAndSet : Obligations.BitsClearedAndSet := by
  refine ⟨fun b a => ⟨?_, ?_⟩, fun s a b hu => ⟨⟨_, getLsbD_and_not_bitMask _ b, ?_⟩, _, getLsbD_or_bitMask _ b, ?_⟩⟩
  · exact decode_encodeWith_bit (mk := fun b a => .btc a b) rfl b a
  · exact decode_encodeWith_bit (mk := fun b a => .bts a b) rfl b a
  · exact modifyAdr_writes (f := fun v => v &&& ~~~(bitMask b)) _ rfl hu
  · exact modifyAdr_writes (f := fun v => v ||| bitMask b) _ rfl hu

/-! ### A shifted word and the bits moved out of it (R154 to R158) -/

/-- `v` with `cv` above it is `dv` shifted left by `n` (R154). -/
def ShiftsLeft (dv : Word) (n : Nat) (v cv : Word) : Prop := v.toNat + 65536 * cv.toNat = dv.toNat * 2 ^ n

/-- `v` with `cv` below it is `dv` shifted right by `n` (R155). -/
def ShiftsRight (dv : Word) (n : Nat) (v cv : Word) : Prop := 65536 * v.toNat + cv.toNat = dv.toNat * 2 ^ (16 - n)

section Shifts
variable (dv x cin : Word)

theorem shiftCount_lt : shiftCount x < 16 := Nat.mod_lt _ (by decide)

theorem two_pow_mul_two_pow_sub {n : Nat} (h : n ≤ 16) : 2 ^ n * 2 ^ (16 - n) = 65536 := by
  rw [← pow_add, Nat.add_sub_cancel' h]
  rfl

theorem aluShl_exact : ShiftsLeft dv (shiftCount x) (aluShl dv x cin).result (aluShl dv x cin).carry := by
  have hpow : 2 ^ shiftCount x < 65536 := Nat.pow_lt_pow_right (by decide) (shiftCount_lt x)
  have hlt : dv.toNat * 2 ^ shiftCount x < 65536 * 65536 := Nat.mul_lt_mul'' dv.isLt hpow
  rw [← Nat.shiftLeft_eq] at hlt
  exact (splitLow_exact hlt).trans (Nat.shiftLeft_eq _ _)

/-- The result of a left shift with all of the old C ORed in (R157). -/
theorem aluSlc_exact :
    ∃ w, ShiftsLeft dv (shiftCount x) w (aluSlc dv x cin).carry ∧ (aluSlc dv x cin).result = w ||| cin :=
  ⟨_, aluShl_exact dv x cin, rfl⟩

/-- The bits moved out are the remainder of the division by `2 ^ n`, left-aligned (R155). -/
theorem toNat_shiftedOutRight {n : Nat} (h : n ≤ 16) :
    (shiftedOutRight dv n).toNat = dv.toNat % 2 ^ n * 2 ^ (16 - n) := by
  have hwide : dv.toNat * 2 ^ 16 / 2 ^ n = dv.toNat * 2 ^ (16 - n) := by
    rw [Nat.mul_div_assoc _ (pow_dvd_pow 2 h), Nat.pow_div h (by decide)]
  calc (shiftedOutRight dv n).toNat
    _ = dv.toNat * 2 ^ (16 - n) % (2 ^ n * 2 ^ (16 - n)) := by
      rw [shiftedOutRight, BitVec.toNat_ofNat, Nat.shiftLeft_eq, Nat.shiftRight_eq_div_pow, hwide,
        two_pow_mul_two_pow_sub h]
    _ = dv.toNat % 2 ^ n * 2 ^ (16 - n) := Nat.mul_mod_mul_right _ _ _

theorem aluShr_exact : ShiftsRight dv (shiftCount x) (aluShr dv x cin).result (aluShr dv x cin).carry := by
  have hn : shiftCount x ≤ 16 := (shiftCount_lt x).le
  have hresult : (aluShr dv x cin).result.toNat = dv.toNat / 2 ^ shiftCount x := by
    rw [aluShr, BitVec.toNat_ofNat, Nat.shiftRight_eq_div_pow]
    exact Nat.mod_eq_of_lt ((Nat.div_le_self _ _).trans_lt dv.isLt)
  have hcarry : (aluShr dv x cin).carry.toNat = dv.toNat % 2 ^ shiftCount x * 2 ^ (16 - shiftCount x) :=
    toNat_shiftedOutRight dv hn
  have hsplit := Nat.div_add_mod dv.toNat (2 ^ shiftCount x)
  rw [ShiftsRight, hresult, hcarry, ← two_pow_mul_two_pow_sub hn]
  linear_combination 2 ^ (16 - shiftCount x) * hsplit

/-- The result of a right shift with all of the old C ORed in (R158). -/
theorem aluSrc_exact :
    ∃ w, ShiftsRight dv (shiftCount x) w (aluSrc dv x cin).carry ∧ (aluSrc dv x cin).result = w ||| cin :=
  ⟨_, aluShr_exact dv x cin, rfl⟩

/-- The carry value of ASR is that of SHR (R156). -/
theorem aluAsr_carry : ∃ q, ShiftsRight dv (shiftCount x) q (aluAsr dv x cin).carry := ⟨_, aluShr_exact dv x cin⟩

/-- The result of ASR is the quotient by `2 ^ n`, rounded down (R156). -/
theorem signedValue_aluAsr : signedValue (aluAsr dv x cin).result = signedValue dv / 2 ^ shiftCount x := by
  rw [signedValue_eq_toInt, signedValue_eq_toInt]
  exact (BitVec.toInt_sshiftRight (x := dv)).trans (Int.shiftRight_eq_div_pow _ _)

theorem signedValue_aluAsr_mul_le :
    signedValue (aluAsr dv x cin).result * 2 ^ shiftCount x ≤ signedValue dv := by
  rw [signedValue_aluAsr]
  exact Int.ediv_mul_le _ (by positivity)

theorem lt_signedValue_aluAsr_add_one_mul :
    signedValue dv < (signedValue (aluAsr dv x cin).result + 1) * 2 ^ shiftCount x := by
  rw [signedValue_aluAsr]
  exact Int.lt_ediv_add_one_mul_self _ (by positivity)

end Shifts

/-- Settles O38: the exact number behind result and carry value of SHL and SLC, in all their forms. -/
theorem leftShiftsAndCarry : Obligations.LeftShiftsAndCarry := by
  refine ⟨fourForms_of_operation (f := aluShl) ?shlRows ?shl aluShl_exact,
    fourForms_of_operation (f := aluSlc) ?slcRows ?slc aluSlc_exact⟩
  case shlRows | slcRows => exact ⟨⟨_, rfl⟩, ⟨_, rfl⟩, ⟨_, rfl⟩, ⟨_, rfl⟩⟩
  case shl | slc => exact ⟨fun _ _ _ => rfl, fun _ _ _ => rfl, fun _ _ _ => rfl, fun _ _ _ => rfl⟩

/-- Settles O39: the exact number behind result and carry value of SHR and SRC, and the quotient that ASR computes, in
all their forms. -/
theorem rightShiftsAndCarry : Obligations.RightShiftsAndCarry := by
  refine ⟨fourForms_of_operation (f := aluShr) ?shrRows ?shr aluShr_exact,
    fourForms_of_operation (f := aluAsr) ?asrRows ?asr fun dv x cin => ?asrValue,
    fourForms_of_operation (f := aluSrc) ?srcRows ?src aluSrc_exact⟩
  case shrRows | asrRows | srcRows => exact ⟨⟨_, rfl⟩, ⟨_, rfl⟩, ⟨_, rfl⟩, ⟨_, rfl⟩⟩
  case shr | asr | src => exact ⟨fun _ _ _ => rfl, fun _ _ _ => rfl, fun _ _ _ => rfl, fun _ _ _ => rfl⟩
  case asrValue =>
    exact ⟨aluAsr_carry dv x cin, signedValue_aluAsr_mul_le dv x cin, lt_signedValue_aluAsr_add_one_mul dv x cin⟩

/-! ### Two shifts chained through C (R162) -/

/-- Where the low `k` bits of one word are zero and the other has no bit above them, OR is the sum. -/
theorem toNat_or_of_dvd_of_lt {v w : Word} {k : Nat} (hv : 2 ^ k ∣ v.toNat) (hw : w.toNat < 2 ^ k) :
    (v ||| w).toNat = v.toNat + w.toNat := by
  obtain ⟨q, hq⟩ := hv
  rw [BitVec.toNat_or, hq, Nat.two_pow_add_eq_or_of_lt hw]

section Joined
variable {dv v cv : Word} {n : Nat}

/-- A left shift frees the low `n` bits of the result. -/
theorem ShiftsLeft.dvd_result (h : ShiftsLeft dv n v cv) (hn : n ≤ 16) : 2 ^ n ∣ v.toNat := by
  have hcarry : 2 ^ n ∣ 65536 * cv.toNat := (pow_dvd_pow 2 hn).mul_right _
  exact (Nat.dvd_add_left hcarry).mp ⟨dv.toNat, h.trans (mul_comm _ _)⟩

/-- A left shift moves out `n` bits. -/
theorem ShiftsLeft.carry_lt (h : ShiftsLeft dv n v cv) : cv.toNat < 2 ^ n := by
  have hprod : dv.toNat * 2 ^ n < 65536 * 2 ^ n := Nat.mul_lt_mul_of_pos_right dv.isLt (by positivity)
  unfold ShiftsLeft at h
  omega

/-- A right shift frees the high `n` bits of the result. -/
theorem ShiftsRight.result_lt (h : ShiftsRight dv n v cv) : v.toNat < 2 ^ (16 - n) := by
  have hprod : dv.toNat * 2 ^ (16 - n) < 65536 * 2 ^ (16 - n) := Nat.mul_lt_mul_of_pos_right dv.isLt (by positivity)
  unfold ShiftsRight at h
  omega

/-- The bits a right shift moves out stand above `16 - n` zeros. -/
theorem ShiftsRight.dvd_carry (h : ShiftsRight dv n v cv) : 2 ^ (16 - n) ∣ cv.toNat := by
  have hresult : 2 ^ (16 - n) ∣ 65536 * v.toNat := (pow_dvd_pow 2 (Nat.sub_le 16 n)).mul_right _
  exact (Nat.dvd_add_right hresult).mp ⟨dv.toNat, h.trans (mul_comm _ _)⟩

end Joined

/-- The bits moved out of the low word fill the free bits of the high one: a two-word number shifted left. -/
theorem ShiftsLeft.joined {lo hi vlo vhi c c' : Word} {n : Nat} (hn : n ≤ 16) (hlow : ShiftsLeft lo n vlo c)
    (hhigh : ShiftsLeft hi n vhi c') :
    vlo.toNat + 65536 * (vhi ||| c).toNat + 65536 * 65536 * c'.toNat = (lo.toNat + 65536 * hi.toNat) * 2 ^ n := by
  rw [toNat_or_of_dvd_of_lt (hhigh.dvd_result hn) hlow.carry_lt]
  unfold ShiftsLeft at hlow hhigh
  linear_combination hlow + 65536 * hhigh

/-- The bits moved out of the high word fill the free bits of the low one: a two-word number shifted right. -/
theorem ShiftsRight.joined {lo hi vlo vhi c c' : Word} {n : Nat} (hhigh : ShiftsRight hi n vhi c)
    (hlow : ShiftsRight lo n vlo c') :
    65536 * ((vlo ||| c).toNat + 65536 * vhi.toNat) + c'.toNat = (lo.toNat + 65536 * hi.toNat) * 2 ^ (16 - n) := by
  rw [BitVec.or_comm, toNat_or_of_dvd_of_lt hhigh.dvd_carry hlow.result_lt]
  unfold ShiftsRight at hlow hhigh
  linear_combination hlow + 65536 * hhigh

theorem shiftCount_zeroExtend (n : Nibble) : shiftCount (n.zeroExtend 16) = n.toNat := by
  rw [shiftCount, BitVec.toNat_setWidth_of_le (by decide), Nat.mod_eq_of_lt n.isLt]

theorem operandValue_imm4 (n : Nibble) (s : State) : operandValue (.imm4 n) s = n.zeroExtend 16 := rfl

theorem afterPost_imm4 (n : Nibble) (s : State) : afterPost (.imm4 n) s = s := rfl

/-- What `OP C:r, imm4` leaves in the registers: the carry value in C, over the result in its destination (R97). -/
theorem opRx_imm4_regs {f : Word → Word → Word → AluOut} {r : Reg} {n : Nibble} {i : Instr} {s : State}
    (hi : exec i s = opRx f true r (.imm4 n) s) :
    ∃ t, exec i s = .next t ∧ ∀ q, t.reg q =
      if q = .c then (f (s.reg r) (n.zeroExtend 16) s.carry).carry
      else if q = r then (f (s.reg r) (n.zeroExtend 16) s.carry).result else s.reg q := by
  obtain ⟨t, ht, hl⟩ := opRx_writes i hi rfl
  refine ⟨t, ht, fun q => (hl.regs q).trans ?_⟩
  simp only [regAfter, if_true, Option.some.injEq, eq_comm (a := r), operandValue_imm4, afterPost_imm4]

/-- An operation on one word, then one on another, by the same immediate: the second takes as its old C the carry value
of the first. -/
theorem opRx_imm4_chain {f g : Word → Word → Word → AluOut} {p q : Reg} {n : Nibble} {i j : Instr} {s : State}
    (hf : exec i s = opRx f true p (.imm4 n) s) (hg : ∀ t, exec j t = opRx g true q (.imm4 n) t) (hne : p ≠ q)
    (hp : p ≠ .c) (hq : q ≠ .c) {first second : AluOut} (hfirst : f (s.reg p) (n.zeroExtend 16) s.carry = first)
    (hsecond : g (s.reg q) (n.zeroExtend 16) first.carry = second) :
    ∃ t u, exec i s = .next t ∧ exec j t = .next u ∧
      u.reg p = first.result ∧ u.reg q = second.result ∧ u.carry = second.carry := by
  obtain ⟨t, ht, htreg⟩ := opRx_imm4_regs hf
  obtain ⟨u, hu, hureg⟩ := opRx_imm4_regs (hg t)
  rw [hfirst] at htreg
  have htcarry : t.carry = first.carry := (htreg .c).trans (if_pos rfl)
  have htq : t.reg q = s.reg q := by rw [htreg, if_neg hq, if_neg hne.symm]
  rw [htq, htcarry, hsecond] at hureg
  refine ⟨t, u, ht, hu, ?_, ?_, (hureg .c).trans (if_pos rfl)⟩
  · rw [hureg, if_neg hp, if_neg hne, htreg, if_neg hp, if_pos rfl]
  · rw [hureg, if_neg hq, if_pos rfl]

/-- Settles O54: the second shift ORs the bits moved out of the first word into the bits it frees in the other. -/
theorem twoWordShiftsThroughCarry : Obligations.TwoWordShiftsThroughCarry := by
  intro s lo hi n hne hlo hhi
  constructor
  · obtain ⟨t, u, ht, hu, hul, huh, huc⟩ := opRx_imm4_chain (f := aluShl) (g := aluSlc) (i := .shlCRxAdr lo (.imm4 n))
      (j := .slcCRxAdr hi (.imm4 n)) rfl (fun _ => rfl) hne hlo hhi rfl rfl
    refine ⟨t, u, ht, hu, ?_⟩
    have hlow := aluShl_exact (s.reg lo) (n.zeroExtend 16) s.carry
    obtain ⟨w, hhigh, hor⟩ :=
      aluSlc_exact (s.reg hi) (n.zeroExtend 16) (aluShl (s.reg lo) (n.zeroExtend 16) s.carry).carry
    rw [hul, huh, huc, hor, ← shiftCount_zeroExtend n]
    exact hlow.joined (shiftCount_lt _).le hhigh
  · obtain ⟨t, u, ht, hu, huh, hul, huc⟩ := opRx_imm4_chain (f := aluShr) (g := aluSrc) (i := .shrCRxAdr hi (.imm4 n))
      (j := .srcCRxAdr lo (.imm4 n)) rfl (fun _ => rfl) hne.symm hhi hlo rfl rfl
    refine ⟨t, u, ht, hu, ?_⟩
    have hhigh := aluShr_exact (s.reg hi) (n.zeroExtend 16) s.carry
    obtain ⟨w, hlow, hor⟩ :=
      aluSrc_exact (s.reg lo) (n.zeroExtend 16) (aluShr (s.reg hi) (n.zeroExtend 16) s.carry).carry
    rw [hul, huh, huc, hor, ← shiftCount_zeroExtend n]
    exact hhigh.joined hlow

end Sys2Proof.Machine
end

section
/-! PROOFS. The conditional skips (`44_skip.md`): the words after an instruction's first are NOPs where the encoder forms
them, what decides each skip, and where a taken skip over two words lands. -/

namespace Sys2Proof

/-! ### NOP words (R62, R64, R68) -/

/-- The word has bits 15..14 set: as a first word it is NOP (R68). -/
def NopBits (w : Word) : Prop := w.extractLsb' 14 2 = 0b11#2

theorem nopBits_append (x : BitVec 14) : NopBits (0b11#2 ++ x) := BitVec.extractLsb'_append_eq_left

/-- A first word is a NOP by the two highest of its ten high bits. -/
theorem nopBits_firstWord {hi : BitVec 10} {f : BitVec 6} (h : hi.extractLsb' 8 2 = 0b11#2) : NopBits (hi ++ f) :=
  (BitVec.extractLsb'_append_eq_of_le (by decide)).trans h

/-- NOP is read from its first word alone, whatever words follow (R63, R68). -/
theorem decode_of_nopBits {w : Word} (h : NopBits w) (rest : List Word) : decode (w :: rest) = .ok (.nop, rest) := by
  unfold NopBits at h
  have hw : w = 0b11#2 ++ w.extractLsb' 0 14 := by
    rw [← h]
    exact ((BitVec.extractLsb'_append_extractLsb'_eq_extractLsb' (len₁ := 14) rfl).trans BitVec.extractLsb'_eq_self).symm
  have hmask : w &&& 0xC000 = 0xC000 := by
    rw [hw]
    exact append_and_mask 0b11#2 _
  have hrow : findRow w = some ⟨0xC000, 0xC000, .word fun _ => .nop⟩ := findRow_congr (w := 0xC000) rfl hmask
  simp only [decode, hrow, RowBuild.finish]

/-- The second word of an operand is a NOP (R62, R64). -/
theorem nopBits_of_mem_encodeAdr {a : Adr} {w : Word} (h : w ∈ (encodeAdr a).2) : NopBits w := by
  cases a
  case imm4 v | stack4 v | reg r | ptr p | stackPtr p => cases h
  case imm16 v | bpImm16 v | data16 v | stack16 v =>
    rw [List.mem_singleton.mp h]
    exact nopBits_append _

/-- Every word of a parameter is a NOP (R60, R64). -/
theorem nopBits_of_mem_encodeParam {last : Bool} {a : Adr} {w : Word} (h : w ∈ encodeParam last a) : NopBits w := by
  rcases List.mem_cons.mp h with rfl | h
  · exact nopBits_firstWord (by cases last <;> decide)
  · exact nopBits_of_mem_encodeAdr h

/-- Every word of a parameter list is a NOP (R60, R64). -/
theorem nopBits_of_mem_encodeParams {ps : List Adr} {w : Word} (h : w ∈ encodeParams ps) : NopBits w := by
  induction ps with
  | nil => cases h
  | cons a ps ih =>
    cases ps with
    | nil => exact nopBits_of_mem_encodeParam h
    | cons b ps => exact (List.mem_append.mp h).elim nopBits_of_mem_encodeParam ih

/-- Every word of an instruction after its first is a NOP, as the encoder forms it (R178, R225). -/
theorem nopBits_of_mem_tail_encode {i : Instr} {w : Word} (h : w ∈ (encode i).tail) : NopBits w := by
  cases i
  case jms off | rfn | supervisorArea bits | nop => cases h
  case jfr a ps | jfa a ps =>
    exact (List.mem_append.mp h).elim nopBits_of_mem_encodeAdr nopBits_of_mem_encodeParams
  case jsv ps => exact nopBits_of_mem_encodeParams h
  all_goals exact nopBits_of_mem_encodeAdr h

end Sys2Proof

namespace Sys2Proof.Machine

/-! ### Skips on a bit (R171, R172) -/

theorem getLsbD_eq_decide (v : Word) (k : Nat) : v.getLsbD k = decide (v.toNat / 2 ^ k % 2 = 1) :=
  Nat.testBit_eq_decide_div_mod_eq

theorem not_getLsbD_eq_decide (v : Word) (k : Nat) : (!v.getLsbD k) = decide (v.toNat / 2 ^ k % 2 = 0) := by
  rw [getLsbD_eq_decide, ← decide_not, decide_eq_decide]
  omega

/-- Settles O41: the two rows of format IA, and skips that the one bit decides. -/
theorem bitTestSkips : Obligations.BitTestSkips := by
  refine ⟨fun b a => ⟨?_, ?_⟩, fun s a b hu => ⟨?xbc, ?xbs⟩⟩
  · exact decode_encodeWith_bit (mk := fun b a => .xbc a b) rfl b a
  · exact decode_encodeWith_bit (mk := fun b a => .xbs a b) rfl b a
  case xbc =>
    rw [← not_getLsbD_eq_decide]
    exact skipIf_skips (f := fun v => !v.getLsbD b.toNat) _ rfl hu
  case xbs =>
    rw [← getLsbD_eq_decide]
    exact skipIf_skips (f := fun v => v.getLsbD b.toNat) _ rfl hu

/-! ### Skips on a comparison (R173 to R176) -/

/-- Both forms of a skip on `f` of its first and its second operand, where `f` is the comparison `P`. -/
theorem compareForms_of_skipIf {row : BitVec 4} {rx : Reg → Adr → Instr} {ad : Adr → Reg → Instr}
    {f P : Word → Word → Bool} (hrx : SelectsRow (0b10#2 ++ row ++ 1#1) rx)
    (had : SelectsRow (0b10#2 ++ row ++ 0#1) fun r a => ad a r)
    (hexecRx : ∀ r a s, exec (rx r a) s = skipIf (fun v => f (s.reg r) v) a s)
    (hexecAd : ∀ r a s, exec (ad a r) s = skipIf (fun v => f v (s.reg r)) a s) (hP : ∀ x y, f x y = P x y) :
    CompareForms row rx ad P := by
  refine ⟨fun r a => ⟨hrx.formReads r a, had.formReads r a⟩, fun s r a hu => ?_⟩
  rw [← hP, ← hP]
  exact ⟨skipIf_skips (f := fun v => f (s.reg r) v) _ (hexecRx r a s) hu,
    skipIf_skips (f := fun v => f v (s.reg r)) _ (hexecAd r a s) hu⟩

/-- Settles O42: four comparisons, each in its row. -/
theorem compareSkips : Obligations.CompareSkips := by
  refine ⟨compareForms_of_skipIf (f := (· == ·)) ⟨_, rfl⟩ ⟨_, rfl⟩ (fun _ _ _ => rfl) (fun _ _ _ => rfl) ?xeq,
    compareForms_of_skipIf (f := (· != ·)) ⟨_, rfl⟩ ⟨_, rfl⟩ (fun _ _ _ => rfl) (fun _ _ _ => rfl) ?xne,
    compareForms_of_skipIf (f := signedGreater) ⟨_, rfl⟩ ⟨_, rfl⟩ (fun _ _ _ => rfl) (fun _ _ _ => rfl) ?xsg,
    compareForms_of_skipIf (f := unsignedGreater) ⟨_, rfl⟩ ⟨_, rfl⟩ (fun _ _ _ => rfl) (fun _ _ _ => rfl) ?xug⟩
  case xeq => exact fun _ _ => beq_eq_decide _ _
  case xne => exact fun x y => by rw [bne, beq_eq_decide, decide_not]
  case xsg => exact signedGreater_eq
  case xug => exact fun _ _ => rfl

/-! ### Where a taken skip lands (R170, R178) -/

/-- Counting on from a reduced code address reduces to the same as counting on from the address (R4, R16). -/
theorem toPc_toPc_add (s : State) (v w : Word) : s.toPc (s.toPc v + w) = s.toPc (v + w) := by
  rcases Nat.le_total s.params.pcw 16 with h | h
  · have hdvd : 2 ^ s.params.pcw ∣ 2 ^ 16 := Nat.pow_dvd_pow 2 h
    simp only [State.toPc, BitVec.toNat_add, BitVec.toNat_ofNat, Nat.mod_mod_of_dvd _ hdvd]
    rw [Nat.add_mod, Nat.mod_mod_of_dvd _ hdvd, Nat.mod_mod, ← Nat.add_mod]
  · rw [toPc_of_lt s v (v.isLt.trans_le (Nat.pow_le_pow_right (by decide) h))]

theorem codeWord_congr {s t : State} (hc : t.code = s.code) (hp : t.params = s.params) (v : Word) :
    t.codeWord v = s.codeWord v := by simp only [State.codeWord, hc, toPc_congr s t hp]

theorem codeWord_toPc (s : State) (v : Word) : s.codeWord (s.toPc v) = s.codeWord v := by
  simp only [State.codeWord, toPc_toPc]

/-- A step in user mode from a NOP word only advances `pc` (R80, R180). -/
theorem step_of_nopBits {s : State} (hmode : s.mode = .user) (h : NopBits (s.codeWord s.pc)) :
    step s = .next (s.advance 1) :=
  step_of_decode hmode (decode_of_nopBits h _)

/-- The word a taken skip lands on is the second of the two it was to pass over. -/
theorem codeWord_pc_of_skipped {s t : State} {a : Adr} {w1 w2 : Word} (hpc : t.pc = nextPc s a 1)
    (hc : t.code = s.code) (hp : t.params = s.params)
    (hcode : s.codeWords 2 (s.pc + BitVec.ofNat 16 (instrWords a)) = [w1, w2]) : t.codeWord t.pc = w2 := by
  have hsecond : s.codeWord (s.pc + BitVec.ofNat 16 (instrWords a) + 1) = w2 := by
    simp only [State.codeWords, List.cons.injEq, and_true] at hcode
    exact hcode.2
  rw [codeWord_congr hc hp, hpc, nextPc, codeWord_toPc, BitVec.ofNat_add, ← BitVec.add_assoc]
  exact hsecond

/-- Settles O44: the second word of the skipped instruction is a NOP, and `pc` goes on from it. -/
theorem skippedTwoWordInstructionEndsInNop : Obligations.SkippedTwoWordInstructionEndsInNop := by
  intro s t i j a w1 w2 hmode ⟨t', ht', hleaves⟩ ht hj hcode
  cases ht'.symm.trans ht
  have hnop : NopBits w2 := nopBits_of_mem_tail_encode (i := j) (by simp [hj])
  have hword := codeWord_pc_of_skipped hleaves.pc hleaves.code hleaves.params (hcode.trans hj)
  have hpc : t.toPc (t.pc + 1) = s.toPc (s.pc + BitVec.ofNat 16 (instrWords a) + 2) := by
    rw [toPc_congr s t hleaves.params, hleaves.pc, if_pos rfl, nextPc, toPc_toPc_add, BitVec.ofNat_add,
      ← BitVec.add_assoc, BitVec.add_assoc (_ + _)]
    rfl
  rw [step_of_nopBits (hleaves.mode.trans hmode) (hword ▸ hnop), ← hpc]
  rfl

end Sys2Proof.Machine
end

section
/-! PROOFS. Control (`45_control.md`): the Supervisor area and the kernel's reply, NOP and the jumps, and the frame a
call with parameters leaves and a return takes down. -/

namespace Sys2Proof.Machine

/-! ### The Supervisor area and the kernel (R189, R190, R200, R203) -/

/-- In supervisor mode the Supervisor area has no meaning (I4). -/
theorem exec_supervisorArea_supervisor (bits : BitVec 12) {s : State} (hmode : s.mode = .supervisor) :
    exec (.supervisorArea bits) s = .refused .supervisorInstruction := by
  change execSupervisorArea bits s = _
  rw [execSupervisorArea, hmode]

/-- Settles O21: the mode alone decides how the area stops. -/
theorem supervisorAreaStops : Obligations.SupervisorAreaStops := fun bits _ =>
  ⟨exec_supervisorArea_user bits, exec_supervisorArea_supervisor bits⟩

/-- In supervisor mode a step is the kernel's outcome (R189). -/
theorem step_supervisor {s : State} (hmode : s.mode = .supervisor) : step s = kernelOutcome s := by
  simp only [step, hmode]

theorem kernelReply_platform {s : State} (h : s.params.kernel = .platform) :
    s.kernelReply = Config.kernel s s.supStack := by
  rw [State.kernelReply, h]

theorem kernelReply_resumesAtOnce {s : State} (h : s.params.kernel = .resumesAtOnce) :
    s.kernelReply = .resume s.unchanged := by
  rw [State.kernelReply, h]

/-- The resumption that changes nothing ends the call and reduces the program counter (R189). -/
theorem resumeUser_unchanged (s : State) :
    s.resumeUser s.unchanged = { s with pc := s.toPc s.pc, mode := .user, supStack := [] } := rfl

/-- In user mode every completed instruction ends in user mode. -/
theorem exec_mode_user {i : Instr} {s t : State} (hmode : s.mode = .user) (h : exec i s = .next t) :
    t.mode = .user := by
  by_cases hj : ∃ ps, i = .jsv ps
  · obtain ⟨ps, rfl⟩ := hj
    exact (exec_jsv_mode_supStack h).1
  · exact (exec_mode_supStack h fun ps e => hj ⟨ps, e⟩).1.trans hmode

/-- No step ends in supervisor mode (R80, R189). -/
theorem step_mode_user {s t : State} (h : step s = .next t) : t.mode = .user := by
  rcases step_next h with ⟨r, rfl⟩ | ⟨hmode, i, h⟩
  · exact resumeUser_mode s r
  · exact exec_mode_user hmode h

/-- Settles O11: the kernel's outcome by its reply, both kernels, the resumed state, and the mode after any step. -/
theorem supervisorStepAsksTheKernel : Obligations.SupervisorStepAsksTheKernel := by
  refine ⟨fun s hmode => ?reply, fun s => kernelReply_platform,
    fun s hk => ⟨s.unchanged, kernelReply_resumesAtOnce hk, resumeUser_unchanged s⟩, fun s r => ?resumed,
    fun s t => step_mode_user⟩
  case reply =>
    rw [step_supervisor hmode]
    rcases kernelOutcome_cases s with ⟨hr, ht⟩ | ⟨r, hr, ht⟩ <;> rw [ht, hr]
  case resumed => exact ⟨rfl, rfl, rfl, rfl, rfl, rfl, rfl, rfl, rfl, rfl, rfl, rfl, rfl⟩

/-! ### NOP and the jumps (R180 to R183) -/

/-- Settles O45: a word with bits 15..14 set reads as NOP, which is an advance by one. -/
theorem nopOnlyAdvances : Obligations.NopOnlyAdvances := fun _ => ⟨rfl, fun hmode h => step_of_nopBits hmode h⟩

/-- A code address is reduced as a number (R4, R16). -/
theorem toNat_toPc (s : State) (v : Word) : (s.toPc v).toNat = v.toNat % 2 ^ s.params.pcw :=
  (BitVec.toNat_ofNat _ _).trans (Nat.mod_eq_of_lt ((Nat.mod_le _ _).trans_lt v.isLt))

/-- 2^PCW divides the number of words (D1). -/
theorem two_pow_pcw_dvd {p : Params} (hp : p.wf) : 2 ^ p.pcw ∣ 2 ^ 16 := Nat.pow_dvd_pow 2 hp.2

/-- A sum that makes a program counter is exact modulo 2^PCW (R182). -/
theorem toNat_toPc_add {s : State} (hp : s.params.wf) (v w : Word) :
    (s.toPc (v + w)).toNat = (v.toNat + w.toNat) % 2 ^ s.params.pcw := by
  rw [toNat_toPc, BitVec.toNat_add, Nat.mod_mod_of_dvd _ (two_pow_pcw_dvd hp)]

/-- A signed offset counts from the program counter modulo 2^PCW (R181). -/
theorem toNat_toPc_add_signExtend {s : State} (hp : s.params.wf) (v : Word) (off : BitVec 10) :
    ((s.toPc (v + off.signExtend 16)).toNat : Int) = ((v.toNat : Int) + off.toInt) % 2 ^ s.params.pcw := by
  have hdvd : (2 : Int) ^ s.params.pcw ∣ 2 ^ 16 := by exact_mod_cast two_pow_pcw_dvd hp
  have hoff : ((off.signExtend 16).toNat : Int) = off.toInt % 2 ^ 16 := by
    rw [BitVec.signExtend, BitVec.toNat_ofInt, Int.toNat_of_nonneg (Int.emod_nonneg _ (by decide))]
    rfl
  rw [toNat_toPc_add hp]
  push_cast
  rw [hoff, Int.add_emod, Int.emod_emod_of_dvd _ hdvd, ← Int.add_emod]

/-- Settles O46: the words as the encoder writes them, and the offset added modulo 2^PCW. -/
theorem shortJumpFromItsOwnAddress : Obligations.ShortJumpFromItsOwnAddress :=
  ⟨fun off rest => decode_encode (.jms off) rest rfl, fun s off hp => ⟨_, toNat_toPc_add_signExtend hp s.pc off, rfl⟩⟩

theorem exists_partNo_bits : ∀ x : BitVec 2, ∃ n : PartNo, n.bits = x := fun x =>
  ⟨PartNo.ofBits x, by revert x; decide⟩

/-- Settles O47: the rows ignore the bits where others name a part, and the two targets reduced modulo 2^PCW. -/
theorem jumpsGoToTheirTargets : Obligations.JumpsGoToTheirTargets := by
  refine ⟨fun x a => ?words, fun s a hp hu => ⟨⟨_, toNat_toPc_add hp _ _, ?jmr⟩, _, toNat_toPc s _, ?jma⟩⟩
  case words =>
    obtain ⟨n, rfl⟩ := exists_partNo_bits x
    exact ⟨decode_encodeWith_part (mk := fun _ a => .jmr a) rfl n a,
      decode_encodeWith_part (mk := fun _ a => .jma a) rfl n a⟩
  case jmr => exact jumpTo_jumps (f := fun v => s.pc + v) _ rfl hu
  case jma => exact jumpTo_jumps (f := fun v => v) _ rfl hu

/-! ### Pushed parameters stay on the stack (R184 to R186) -/

/-- Each parameter raises the first free word by one (R185). -/
theorem pushParams_tos {ps : List Adr} {bp : Word} {s t : State} (h : pushParams ps bp s = .next t) :
    t.tos = s.tos + BitVec.ofNat 16 ps.length := by
  obtain ⟨-, -, hbp, -, -, -, -, hparams, hsp, -⟩ := pushParams_frame h
  cases hrel : s.params.spRelative <;> simp [State.tos, hparams, hrel, hbp, hsp, BitVec.add_assoc]

/-- Pushing parameters keeps the `n` words under the first free one, as far as the pushes do not come round. -/
theorem pushParams_readWord_below {ps : List Adr} {bp : Word} {s t : State} (h : pushParams ps bp s = .next t)
    {x : Word} {n : Nat} (hx : s.tos = x + BitVec.ofNat 16 n) (hpos : 0 < n) (hn : n + ps.length ≤ 65536) :
    t.readWord .stack x = s.readWord .stack x := by
  by_contra hne
  obtain ⟨-, j, hj, he⟩ := pushParams_readWord h hne
  have hzero : BitVec.ofNat 16 (n + j) = 0 := by
    rw [hx, BitVec.add_assoc, ← BitVec.ofNat_add] at he
    exact left_eq_add.mp he
  have hmod : (n + j) % 65536 = 0 := congrArg BitVec.toNat hzero
  omega

/-- The value of a parameter, evaluated after those before it, is where the first free word was then (R185, D25). -/
theorem pushParams_value {pre post : List Adr} {p : Adr} {bp : Word} {s v t : State}
    (hv : pushParams pre bp s = .next v) (ht : pushParams (pre ++ p :: post) bp s = .next t)
    (hlen : post.length < 65536) : t.readWord .stack v.tos = (resolve p bp v).read v := by
  rw [pushParams_append _ hv] at ht
  obtain ⟨-, -, ht⟩ := pushParams_cons ht
  have htos := pushed_tos ((resolve p bp v).postInc ((resolve p bp v).afterRead v)) ((resolve p bp v).read v)
  rw [evaluated_tos] at htos
  rw [pushParams_readWord_below (n := 1) ht htos one_pos (by omega), pushed_readWord, evaluated_tos]
  exact if_pos ⟨rfl, rfl⟩

/-! ### The frame of a call (R184, R186, R187) -/

/-- The pointers are none of the first four registers (R12). -/
theorem ptrReg_notMem (p : Ptr) : ptrReg p ∉ [Reg.a, .b, .c, .d] := by cases p <;> decide

section Call
variable {b : Bool} {a : Adr} {ps : List Adr} {s t : State}

/-- Where every address exists every call completes. -/
theorem exec_callInstr_completes (hs : AllMapped s) (b : Bool) (a : Adr) (ps : List Adr) :
    ∃ t, exec (callInstr b a ps) s = .next t :=
  exec_completes hs (fun _ => by cases b <;> exact nofun) fun _ => by cases b <;> exact nofun

/-- What a call leaves in the registers of the frame, and what it does not touch. -/
theorem callInstr_frame (h : exec (callInstr b a ps) s = .next t) :
    t.pc = callTarget b a s ∧ t.bp = s.tos + 2 ∧
      t.sp = (if s.params.spRelative then 0 else s.tos + 2) + BitVec.ofNat 16 ps.length ∧ t.xm = s.xm ∧
      t.mode = s.mode ∧ t.supStack = s.supStack ∧ t.code = s.code ∧ t.params = s.params := by
  obtain ⟨-, -, -, v, hv, rfl⟩ := callInstr_next h
  obtain ⟨-, hxm, hbp, hmode, -, hsup, hcode, hparams, hsp, -⟩ := pushParams_frame hv
  rw [framed_params, afterReads_params] at hparams
  refine ⟨?_, ?_, ?_, ?_, ?_, ?_, ?_, hparams⟩
  · rw [setPc_pc, toPc_congr s v hparams, toPc_callTarget]
  all_goals simp [hxm, hbp, hmode, hsup, hcode, hsp, framed_bp, framed_sp]

/-- After a call the first free word is above BP and the parameters (R184). -/
theorem callInstr_tos (h : exec (callInstr b a ps) s = .next t) : t.tos = t.bp + BitVec.ofNat 16 ps.length := by
  obtain ⟨-, hbp, hsp, -, -, -, -, hparams⟩ := callInstr_frame h
  cases hrel : s.params.spRelative <;> simp [State.tos, hparams, hrel, hbp, hsp]

/-- A call changes no register but pointers (R92, R185). -/
theorem callInstr_reg (h : exec (callInstr b a ps) s = .next t) {q : Reg} (hq : q ∈ [Reg.a, .b, .c, .d]) :
    t.reg q = s.reg q := by
  obtain ⟨-, -, -, v, hv, rfl⟩ := callInstr_next h
  by_contra hne
  obtain ⟨-, -, p, -, hp⟩ := (pointerChanges_call hv).reg q hne
  exact ptrReg_notMem p (hp ▸ hq)

/-- On plain memory a call shows the devices nothing (R39). -/
theorem callInstr_devices (h : exec (callInstr b a ps) s = .next t) (hs : AllRam s) : t.devices = s.devices := by
  obtain ⟨-, -, -, v, hv, rfl⟩ := callInstr_next h
  rw [setPc_devices, pushParams_devices (allRam_congr (by simp) hs) hv, framed_devices, afterReads_devices,
    ← afterRead_devices, afterRead_allRam _ _ hs]

/-- A call changes no word but the two saved ones and one for each parameter (R184). -/
theorem callInstr_readWord (h : exec (callInstr b a ps) s = .next t) {k : Space} {x : Word}
    (hx : ¬ InFrame s (ps.length + 2) k x) : t.readWord k x = s.readWord k x := by
  obtain ⟨-, -, -, v, hv, rfl⟩ := callInstr_next h
  by_contra hne
  exact hx (call_readWord hv hne)

/-- The return address and the caller's BP stand under BP, whatever was pushed above them (R184, R186). -/
theorem callInstr_saved (h : exec (callInstr b a ps) s = .next t) (hlen : ps.length ≤ 16) :
    t.readWord .stack (t.bp - 2) = nextPc s a 0 ∧ t.readWord .stack (t.bp - 1) = s.bp := by
  obtain ⟨-, hbp, -⟩ := callInstr_frame h
  obtain ⟨-, -, -, v, hv, rfl⟩ := callInstr_next h
  have htos : (framed (afterReads a s) (nextPc s a 0)).tos = s.tos + 2 := by rw [framed_tos, afterReads_tos]
  have hlow : s.tos + 2 - 2 = s.tos := BitVec.add_sub_cancel _ _
  have hhigh : s.tos + 2 - 1 = s.tos + 1 := by bv_omega
  rw [hbp, hlow, hhigh, readWord_setPc, readWord_setPc]
  constructor
  · rw [pushParams_readWord_below (n := 2) hv htos (by omega) (by omega)]
    simp [framed_readWord]
  · rw [pushParams_readWord_below (n := 1) hv (by rw [htos]; bv_omega) (by omega) (by omega)]
    simp [framed_readWord]

/-- The value of the parameter after `pre` stands above BP and those, as its operand is after the call with `pre` alone
(R185, D25). -/
theorem callInstr_param {pre post : List Adr} {p : Adr} {u : State} (hu : exec (callInstr b a pre) s = .next u)
    (ht : exec (callInstr b a (pre ++ p :: post)) s = .next t) (hlen : post.length < 65536) :
    t.readWord .stack (t.bp + BitVec.ofNat 16 pre.length) = (resolve p s.bp u).read u := by
  obtain ⟨-, hbpu, -⟩ := callInstr_frame hu
  obtain ⟨-, hbpt, -⟩ := callInstr_frame ht
  rw [hbpt, ← hbpu, ← callInstr_tos hu]
  obtain ⟨-, -, -, v, hv, rfl⟩ := callInstr_next hu
  obtain ⟨-, -, -, w, hw, rfl⟩ := callInstr_next ht
  rw [readWord_setPc, resolve_setPc]
  have hvalue : w.readWord .stack v.tos = (resolve p s.bp v).read v := pushParams_value hv hw hlen
  exact hvalue

end Call

/-- Settles O50: the call completes, and each part of its diagram is one of the lemmas above. -/
theorem callLeavesTheFrameLayout : Obligations.CallLeavesTheFrameLayout := by
  intro s b a ps hs hlen
  obtain ⟨t, ht⟩ := exec_callInstr_completes hs b a ps
  obtain ⟨hpc, hbp, hsp, hxm, hmode, hsup, hcode, hparams⟩ := callInstr_frame ht
  obtain ⟨hret, hold⟩ := callInstr_saved ht hlen
  refine ⟨t, ht, hpc, hbp, hret, hold, ?params, callInstr_tos ht, ?sp, ?data, ?stack, callInstr_reg ht (by decide),
    callInstr_reg ht (by decide), callInstr_reg ht (by decide), callInstr_reg ht (by decide), hxm, callInstr_devices ht,
    hmode, hsup, hcode, hparams⟩
  case params =>
    rintro pre p post rfl
    obtain ⟨u, hu⟩ := exec_callInstr_completes hs b a pre
    refine ⟨u, hu, callInstr_param hu ht ?_⟩
    rw [List.length_append, List.length_cons] at hlen
    omega
  case sp =>
    intro hrel
    simp [hsp, hrel]
  case data => exact fun x => callInstr_readWord ht fun ⟨hk, _⟩ => nomatch hk
  case stack => exact fun x hx => callInstr_readWord ht fun ⟨_, j, hj, he⟩ => hx j hj he

/-! ### Return to the caller (R188, R191) -/

/-- The distance from BP to the first free word gives SP back, where SP counts from BP and where it does not (R184). -/
theorem sp_of_tos (s : State) : (if s.params.spRelative then s.tos - s.bp else s.tos) = s.sp := by
  cases hrel : s.params.spRelative
  · simp [State.tos, hrel]
  · simp [State.tos, hrel, BitVec.add_comm s.bp]

/-- Settles O52: a return takes down the frame at BP, where the call has saved what the caller had. -/
theorem callThenReturnRestoresCaller : Obligations.CallThenReturnRestoresCaller := by
  intro s t u b a ps hs hlen ht hbp hparams hret hold
  obtain ⟨-, hbpt, -, -, -, -, -, hparamst⟩ := callInstr_frame ht
  obtain ⟨hrett, holdt⟩ := callInstr_saved ht hlen
  have hu : u.params = s.params := hparams.trans hparamst
  have hmapped : AllMapped u := allMapped_congr hu hs
  have hframe : u.bp - 2 = s.tos := by rw [hbp, hbpt, BitVec.add_sub_cancel]
  obtain ⟨v, hv, htos, hleaves⟩ := returnRestoresTheFrame.2 u (hmapped _ _) (hmapped _ _)
  have hret : u.readWord .stack (u.bp - 2) = nextPc s a 0 := by rw [hbp, hret, hrett]
  have hold : u.readWord .stack (u.bp - 1) = s.bp := by rw [hbp, hold, holdt]
  refine ⟨v, hv, hleaves.bp.trans hold, ?sp, htos.trans hframe, ?pc, hleaves.devices, hleaves.regs, hleaves.mem⟩
  case sp => rw [hleaves.sp, hold, hframe, hu, sp_of_tos]
  case pc => rw [hleaves.pc, hret, toPc_congr s u hu, nextPc, toPc_toPc]

end Sys2Proof.Machine
end
